-- ==== Sys2Proof/Word.lean ====
section
/-!
DEFINITION. The widths the spec fixes: a byte is 8 bits, the length fields are 16 bits, a control register
and a command word are 32 bits (spec/00_scope.md R7, R8), and a buffer is a sequence of bytes (R9).
-/

namespace Sys2Proof

/-- A byte: 8 bits (R7, R8). -/
abbrev Byte := BitVec 8

/-- A 16-bit field: WIDTH.N, SLEN.L, imm16 (spec/10_state.md R27, R28; spec/30_encoding.md R84). -/
abbrev Half := BitVec 16

/-- A 32-bit datum: a command word or a control register (R7). -/
abbrev Word := BitVec 32

/-- A buffer: its bytes in order, byte 0 first and least significant (R9). The empty list is the content of an
empty register (spec/10_state.md R22). -/
abbrev Buffer := List Byte

end Sys2Proof
end

