-- ==== Sys2Proof/Syntax.lean ====
section
/-!
DEFINITION. The 21 commands of the opcode map (spec/30_encoding.md R88, spec/opcode_table.json), one constructor a row.
A register operand is one of x0..x7 by its type, so the bound of R83 is carried by the term and the machine
never sees a register field of 8..15.
-/

namespace Sys2Proof

/-- The eight buffer registers (spec/10_state.md R21): no aliases, no hard-wired register. -/
inductive Reg where
  | x0 | x1 | x2 | x3 | x4 | x5 | x6 | x7
deriving DecidableEq, Repr

/-- The eight registers in order. -/
def Reg.all : List Reg := [.x0, .x1, .x2, .x3, .x4, .x5, .x6, .x7]

/-- The commands of R88. `rd` is the destination, `ra` and `rb` the sources, `k` the shift count and `base` the base
of a conversion, both the unsigned imm16 of R84. -/
inductive Instr where
  /-- ZERO rd (R110). -/
  | zero (rd : Reg)
  /-- MAX rd (R111). -/
  | max (rd : Reg)
  /-- RESIZE rd, ra (R112). -/
  | resize (rd ra : Reg)
  /-- SET rd, ra (R113). -/
  | set (rd ra : Reg)
  /-- NOT rd, ra (R136). -/
  | not (rd ra : Reg)
  /-- AND rd, ra, rb (R137). -/
  | and (rd ra rb : Reg)
  /-- OR rd, ra, rb (R138). -/
  | or (rd ra rb : Reg)
  /-- XOR rd, ra, rb (R139). -/
  | xor (rd ra rb : Reg)
  /-- LSH0 rd, ra, #k (R132). -/
  | lsh0 (rd ra : Reg) (k : Half)
  /-- LSH1 rd, ra, #k (R133). -/
  | lsh1 (rd ra : Reg) (k : Half)
  /-- RSH0 rd, ra, #k (R134). -/
  | rsh0 (rd ra : Reg) (k : Half)
  /-- RSH1 rd, ra, #k (R135). -/
  | rsh1 (rd ra : Reg) (k : Half)
  /-- ADD rd, ra, rb (R161). -/
  | add (rd ra rb : Reg)
  /-- SUB rd, ra, rb (R162). -/
  | sub (rd ra rb : Reg)
  /-- MUL rd, ra, rb (R171). -/
  | mul (rd ra rb : Reg)
  /-- DIV rd, ra, rb (R183). -/
  | div (rd ra rb : Reg)
  /-- MOD rd, ra, rb (R184). -/
  | mod (rd ra rb : Reg)
  /-- CMP ra, rb (R191). -/
  | cmp (ra rb : Reg)
  /-- ISZERO ra (R192). -/
  | isZero (ra : Reg)
  /-- TOSTR ra, #base (R201). -/
  | toStr (ra : Reg) (base : Half)
  /-- FROMSTR rd, #base (R206). -/
  | fromStr (rd : Reg) (base : Half)
deriving DecidableEq, Repr

end Sys2Proof
end

