-- ==== Sys2Proof/Decode.lean ====
section
/-!
DEFINITION. Decoding and encoding of command words (spec/30_encoding.md R80 to R89, R92). `decode` is total on any
32-bit word and rejects by name; `encode` writes the word of a command. The byte lanes of R52 come first.
-/

namespace Sys2Proof

/-- The 32-bit datum carried by four byte lanes, lowest address first: that lane holds bits [7:0] (R52). -/
def wordOfLanes : List Byte → Option Word
  | [b0, b1, b2, b3] => some (b3 ++ b2 ++ b1 ++ b0)
  | _ => none

/-- The four byte lanes of a 32-bit datum, lowest address first (R52). -/
def lanesOfWord (w : Word) : List Byte :=
  [w.extractLsb' 0 8, w.extractLsb' 8 8, w.extractLsb' 16 8, w.extractLsb' 24 8]

/-- `cmd[31:24]` (R81, R82). -/
def opField (w : Word) : BitVec 8 := w.extractLsb' 24 8

/-- `cmd[23:20]` (R81, R82). -/
def rdField (w : Word) : BitVec 4 := w.extractLsb' 20 4

/-- `cmd[19:16]` (R81, R82). -/
def raField (w : Word) : BitVec 4 := w.extractLsb' 16 4

/-- `cmd[15:12]` (R81). -/
def rbField (w : Word) : BitVec 4 := w.extractLsb' 12 4

/-- `cmd[11:0]`, which must be 0 in format R (R81). -/
def zeroField (w : Word) : BitVec 12 := w.extractLsb' 0 12

/-- `cmd[15:0]`, the immediate of format I (R82, R84). -/
def immField (w : Word) : Half := w.extractLsb' 0 16

/-- Why a word is no command (R87, R89). The hardware reports IllegalCommand for every one of them and records
nothing more (R235), so the names are for the reader only. -/
inductive IllegalWord where
  /-- `op` is in no row of R88. -/
  | unassignedOp
  /-- A register field that the command uses is 8..15 (R83). -/
  | registerOutOfRange
  /-- A register field that the command does not use is not 0 (R83). -/
  | unusedFieldNonzero
  /-- `cmd[11:0]` is not 0 in format R (R87). -/
  | zeroFieldNonzero
deriving DecidableEq, Repr

/-- The register a used field names (R83). -/
def regOfField (f : BitVec 4) : Except IllegalWord Reg :=
  match f.toNat with
  | 0 => .ok .x0
  | 1 => .ok .x1
  | 2 => .ok .x2
  | 3 => .ok .x3
  | 4 => .ok .x4
  | 5 => .ok .x5
  | 6 => .ok .x6
  | 7 => .ok .x7
  | _ => .error .registerOutOfRange

/-- The field of a register (R83). -/
def fieldOfReg : Reg → BitVec 4
  | .x0 => 0#4
  | .x1 => 1#4
  | .x2 => 2#4
  | .x3 => 3#4
  | .x4 => 4#4
  | .x5 => 5#4
  | .x6 => 6#4
  | .x7 => 7#4

/-- A register field that the command does not use must be 0 (R83). -/
def unusedField (f : BitVec 4) : Except IllegalWord Unit :=
  if f = 0#4 then .ok () else .error .unusedFieldNonzero

/-- The `zero` field of format R must be 0 (R81, R87). -/
def lowBitsZero (w : Word) : Except IllegalWord Unit :=
  if zeroField w = 0#12 then .ok () else .error .zeroFieldNonzero

/-- Format R with rd alone (ZERO, MAX). -/
def formD (c : Reg → Instr) (w : Word) : Except IllegalWord Instr := do
  let rd ← regOfField (rdField w)
  unusedField (raField w)
  unusedField (rbField w)
  lowBitsZero w
  return c rd

/-- Format R with rd and ra (RESIZE, SET, NOT). -/
def formDA (c : Reg → Reg → Instr) (w : Word) : Except IllegalWord Instr := do
  let rd ← regOfField (rdField w)
  let ra ← regOfField (raField w)
  unusedField (rbField w)
  lowBitsZero w
  return c rd ra

/-- Format R with rd, ra and rb (AND to XOR, ADD to MOD). -/
def formDAB (c : Reg → Reg → Reg → Instr) (w : Word) : Except IllegalWord Instr := do
  let rd ← regOfField (rdField w)
  let ra ← regOfField (raField w)
  let rb ← regOfField (rbField w)
  lowBitsZero w
  return c rd ra rb

/-- Format R with ra and rb (CMP). -/
def formAB (c : Reg → Reg → Instr) (w : Word) : Except IllegalWord Instr := do
  unusedField (rdField w)
  let ra ← regOfField (raField w)
  let rb ← regOfField (rbField w)
  lowBitsZero w
  return c ra rb

/-- Format R with ra alone (ISZERO). -/
def formA (c : Reg → Instr) (w : Word) : Except IllegalWord Instr := do
  unusedField (rdField w)
  let ra ← regOfField (raField w)
  unusedField (rbField w)
  lowBitsZero w
  return c ra

/-- Format I with rd and ra (the shifts). -/
def formDAI (c : Reg → Reg → Half → Instr) (w : Word) : Except IllegalWord Instr := do
  let rd ← regOfField (rdField w)
  let ra ← regOfField (raField w)
  return c rd ra (immField w)

/-- Format I with ra (TOSTR). -/
def formAI (c : Reg → Half → Instr) (w : Word) : Except IllegalWord Instr := do
  unusedField (rdField w)
  let ra ← regOfField (raField w)
  return c ra (immField w)

/-- Format I with rd (FROMSTR). -/
def formDI (c : Reg → Half → Instr) (w : Word) : Except IllegalWord Instr := do
  let rd ← regOfField (rdField w)
  unusedField (raField w)
  return c rd (immField w)

/-- The decoding algorithm of R87 over the opcode map of R88. -/
def decode (w : Word) : Except IllegalWord Instr :=
  match (opField w).toNat with
  | 0x01 => formD .zero w
  | 0x02 => formD .max w
  | 0x03 => formDA .resize w
  | 0x04 => formDA .set w
  | 0x08 => formDA .not w
  | 0x09 => formDAB .and w
  | 0x0A => formDAB .or w
  | 0x0B => formDAB .xor w
  | 0x10 => formDAI .lsh0 w
  | 0x11 => formDAI .lsh1 w
  | 0x12 => formDAI .rsh0 w
  | 0x13 => formDAI .rsh1 w
  | 0x20 => formDAB .add w
  | 0x21 => formDAB .sub w
  | 0x22 => formDAB .mul w
  | 0x24 => formDAB .div w
  | 0x25 => formDAB .mod w
  | 0x30 => formAB .cmp w
  | 0x31 => formA .isZero w
  | 0x40 => formAI .toStr w
  | 0x41 => formDI .fromStr w
  | _ => .error .unassignedOp

/-- The word of format R, absent operands being 0 (R81, R92). -/
def wordR (op : BitVec 8) (rd ra rb : BitVec 4) : Word := op ++ rd ++ ra ++ rb ++ 0#12

/-- The word of format I, absent operands being 0 (R82, R92). -/
def wordI (op : BitVec 8) (rd ra : BitVec 4) (imm : Half) : Word := op ++ rd ++ ra ++ imm

/-- The word of a command (R88, R92). -/
def encode : Instr → Word
  | .zero rd => wordR 0x01#8 (fieldOfReg rd) 0#4 0#4
  | .max rd => wordR 0x02#8 (fieldOfReg rd) 0#4 0#4
  | .resize rd ra => wordR 0x03#8 (fieldOfReg rd) (fieldOfReg ra) 0#4
  | .set rd ra => wordR 0x04#8 (fieldOfReg rd) (fieldOfReg ra) 0#4
  | .not rd ra => wordR 0x08#8 (fieldOfReg rd) (fieldOfReg ra) 0#4
  | .and rd ra rb => wordR 0x09#8 (fieldOfReg rd) (fieldOfReg ra) (fieldOfReg rb)
  | .or rd ra rb => wordR 0x0A#8 (fieldOfReg rd) (fieldOfReg ra) (fieldOfReg rb)
  | .xor rd ra rb => wordR 0x0B#8 (fieldOfReg rd) (fieldOfReg ra) (fieldOfReg rb)
  | .lsh0 rd ra k => wordI 0x10#8 (fieldOfReg rd) (fieldOfReg ra) k
  | .lsh1 rd ra k => wordI 0x11#8 (fieldOfReg rd) (fieldOfReg ra) k
  | .rsh0 rd ra k => wordI 0x12#8 (fieldOfReg rd) (fieldOfReg ra) k
  | .rsh1 rd ra k => wordI 0x13#8 (fieldOfReg rd) (fieldOfReg ra) k
  | .add rd ra rb => wordR 0x20#8 (fieldOfReg rd) (fieldOfReg ra) (fieldOfReg rb)
  | .sub rd ra rb => wordR 0x21#8 (fieldOfReg rd) (fieldOfReg ra) (fieldOfReg rb)
  | .mul rd ra rb => wordR 0x22#8 (fieldOfReg rd) (fieldOfReg ra) (fieldOfReg rb)
  | .div rd ra rb => wordR 0x24#8 (fieldOfReg rd) (fieldOfReg ra) (fieldOfReg rb)
  | .mod rd ra rb => wordR 0x25#8 (fieldOfReg rd) (fieldOfReg ra) (fieldOfReg rb)
  | .cmp ra rb => wordR 0x30#8 0#4 (fieldOfReg ra) (fieldOfReg rb)
  | .isZero ra => wordR 0x31#8 0#4 (fieldOfReg ra) 0#4
  | .toStr ra base => wordI 0x40#8 0#4 (fieldOfReg ra) base
  | .fromStr rd base => wordI 0x41#8 (fieldOfReg rd) 0#4 base

/-- The instruction the decoder reads from an instruction whose bits are `w`, numbered as spec/opcode_table.json
numbers them: the command word is laid out in its four byte lanes, least significant first (R52), and decoded. -/
def decodeTableWord (nbits w : Nat) : Option Instr :=
  match wordOfLanes (lanesOfWord (BitVec.ofNat 32 (w % 2 ^ nbits))) with
  | some cmd => (decode cmd).toOption
  | none => none

end Sys2Proof
end

