-- ==== Sys2Proof/Config.lean ====
section
/-!
DEFINITION. What an implementation fixes: the three parameters of the spec (spec/00_scope.md R6), the fixed numbers
of the host window (spec/20_memory.md R50, R51), and the one free value (the characters of the string buffer after
reset, spec/70_reset_and_hazards.md R261).
-/

namespace Sys2Proof

/-- The three OPEN parameters of R6: the largest buffer length, the capacity of the string buffer, and the address
of byte 0 of the host window. Their constraints are `Params.wellFormed`. -/
structure Params where
  /-- NMAX, 64 to 8191 (D2). -/
  nmax : Nat
  /-- SMAX, 8*NMAX to 65535 (D3). -/
  smax : Nat
  /-- BASE, a multiple of 0x40000 (D4). -/
  base : Nat
deriving DecidableEq, Repr

/-- DESIGN CHOICE (unsafe, log 1): the parameter values of `State.reset`. The spec leaves all three OPEN; 64 and 512
are the values its own vectors are written for (spec/95_test_vectors.md 2.10 and 3). -/
def Config.defaultParams : Params := { nmax := 64, smax := 512, base := 0 }

/-- FREE VALUE (safe, log 2): the character `k` of the string buffer right after the reset of number `n`, as long as
nothing has written it. R261 and U20: "any value", stable, "an unconstrained input of the model". -/
opaque Config.resetChar (n k : Nat) : Byte

/-- The size of the host window in bytes (R50). -/
def Config.windowSize : Nat := 0x30000

/-- Where the buffer window begins (R51). -/
def Config.bufferBase : Nat := 0x10000

/-- How far apart two registers lie in the buffer window (R51). -/
def Config.bufferStride : Nat := 0x2000

/-- Where the string window begins (R51). -/
def Config.stringBase : Nat := 0x20000

end Sys2Proof
end

