-- ==== Sys2Proof/Machine/State.lean ====
section
/-!
DEFINITION. The state of one engine (spec/10_state.md R20), the inputs the outside world gives it
(spec/20_memory.md R56, spec/70_reset_and_hazards.md R260), the answers it gives, the reasons a step can stop, and
the state after reset (R37).
-/

namespace Sys2Proof.Machine

/-- Bytes by index, the ones written since reset, in ONE canonical form (`Memory.wf`): indices strictly rising. An
unlisted index holds no written byte; no entry can equal that, so equal contents are equal lists. -/
abbrev Memory := List Host.Cell

/-- The canonical form: the indices rise strictly. -/
def Memory.wf : Memory → Bool
  | [] => true
  | [_] => true
  | a :: b :: rest => decide (a.1 < b.1) && Memory.wf (b :: rest)

/-- The eight buffer registers (R21). A register's length tag is the length of its list, so that the buffer has
"exactly `x[i].len` bytes" by construction; the empty list is the empty register (R22). -/
structure RegFile where
  x0 : Buffer
  x1 : Buffer
  x2 : Buffer
  x3 : Buffer
  x4 : Buffer
  x5 : Buffer
  x6 : Buffer
  x7 : Buffer
deriving DecidableEq, Repr

/-- The fields of STATUS that hold state (R29). The reserved bits [31:7] read as 0 and hold none. -/
structure Status where
  /-- ERR, bits [3:0]. -/
  err : BitVec 4
  /-- CMP, bits [5:4]. -/
  cmp : BitVec 2
  /-- Z, bit [6]. -/
  z : Bool
deriving DecidableEq, Repr

/-- The six error kinds that end a command (spec/60_exceptions.md R230). They are no stops: a failing command takes a
next state (R232). -/
inductive ErrorKind where
  | invalidFormat
  | unsupportedBase
  | divisionByZero
  | lengthMismatch
  | illegalCommand
  | invalidOperand
deriving DecidableEq, Repr

/-- What the outside world does to the engine, one step each (spec/20_memory.md R56, R60; R260). -/
inductive Input where
  /-- The host reads `n` bytes at the address `addr` of its address space. -/
  | read (addr n : Nat)
  /-- The host writes `n` bytes at the address `addr`; the datum is `v` modulo `2^(8n)` (log 15). -/
  | write (addr n v : Nat)
  /-- The platform asserts and releases the hardware reset (R260). -/
  | reset
deriving DecidableEq, Repr

/-- The engine's answer to an accepted access. -/
inductive Answer where
  /-- A write completed (R61). -/
  | done
  /-- A control register was read (R52). -/
  | word (v : Word)
  /-- A byte of the buffer window or of the string window was read (R53, R55). -/
  | byte (v : Byte)
deriving DecidableEq, Repr

/-- Why a step stops. Every one is a refused access of R57: "the engine answers with a bus error, returns no data, and
changes no state", and "a model gives a refused access no step, or a fault of the host". All are SAFE: the model
stops where the host would go on with a bus error (log 6). All are raised by serving an access, none by a command. -/
inductive Fault where
  /-- The address is outside the window, so the access is not the engine's (R50; log 7). Safe. -/
  | outsideWindow
  /-- R57 (a): a reserved offset. Safe. -/
  | reservedOffset
  /-- R57 (b): a read of CMD, a write of STATUS, CAP or BLENi. Safe. -/
  | wrongDirection
  /-- R57 (c): a control-register access not 32 bits wide or not at the register's offset. Safe. -/
  | controlShape
  /-- R57 (d): a buffer-window or string-window access not 8 bits wide. Safe. -/
  | windowWidth
  /-- R57 (e): a buffer-window access at or beyond the register's length. Safe. -/
  | beyondLength
  /-- R57 (f): a string-window access at or beyond SMAX. Safe. -/
  | beyondString
deriving DecidableEq, Repr

/-- Why an instruction has no meaning. -/
inductive Refusal where
  /-- Raised by an arm of `exec` whose instruction is not modelled yet; no arm raises it now. Safe. -/
  | notModelled (mnemonic : String)
deriving DecidableEq, Repr

/-- The whole state: what R20 gives the engine (`x`, `str`, `slen`, `width`, `status`), the parameters of the model,
and the model's own record of the host's side. -/
structure State where
  /-- The buffer registers x0..x7 (R20 (a), R21). -/
  x : RegFile
  /-- The characters of S written since reset (R20 (b), R33). -/
  str : Memory
  /-- SLEN.L (R28). -/
  slen : Half
  /-- WIDTH.N (R27). -/
  width : Half
  /-- STATUS (R29). -/
  status : Status
  /-- NMAX, SMAX and BASE (spec/00_scope.md R6), which CAP shows in part (R30); no step changes them. -/
  params : Params
  /-- The model's own: the inputs still to be served, the next one first (R24, R249; log 3). -/
  pending : List Input
  /-- The model's own: the answers given, newest first (log 5). -/
  answers : List Answer
  /-- The model's own: how many resets have happened, which indexes the free characters of S (log 2). -/
  resets : Nat
deriving DecidableEq, Repr

/-- The outcome of a step of this machine. -/
abbrev Outcome := Host.Outcome State Fault Refusal

/-- Eight empty registers (R37). -/
def RegFile.empty : RegFile := ⟨[], [], [], [], [], [], [], []⟩

/-- The state after reset for the parameters `p` (R37, R260): every register empty, WIDTH, SLEN and STATUS 0, no
character of S written. -/
def State.resetWith (p : Params) : State :=
  { x := RegFile.empty
    str := []
    slen := 0#16
    width := 0#16
    status := { err := 0#4, cmp := 0#2, z := false }
    params := p
    pending := []
    answers := []
    resets := 0 }

/-- The machine right after reset, for the parameters of log 1. -/
def State.reset : State := State.resetWith Config.defaultParams

end Sys2Proof.Machine
end

