-- ==== Sys2Proof/Machine/Ops.lean ====
section
/-!
DEFINITION. The named operations over registers, the string buffer and STATUS that every command and every host access
goes through, and the two ways a command ends: with an error (spec/60_exceptions.md R232) and with success
(spec/30_encoding.md R86). There is no trap, and so no return from one (R232, R243).
-/

namespace Sys2Proof.Machine

/-- The content of a register (R10, R21). -/
def RegFile.get (x : RegFile) : Reg → Buffer
  | .x0 => x.x0
  | .x1 => x.x1
  | .x2 => x.x2
  | .x3 => x.x3
  | .x4 => x.x4
  | .x5 => x.x5
  | .x6 => x.x6
  | .x7 => x.x7

/-- `x[r] <- b` (R10): all bytes and the length tag at once. -/
def RegFile.set (x : RegFile) (r : Reg) (b : Buffer) : RegFile :=
  match r with
  | .x0 => { x with x0 := b }
  | .x1 => { x with x1 := b }
  | .x2 => { x with x2 := b }
  | .x3 => { x with x3 := b }
  | .x4 => { x with x4 := b }
  | .x5 => { x with x5 := b }
  | .x6 => { x with x6 := b }
  | .x7 => { x with x7 := b }

/-- `x[r]` of the state (R10). -/
def State.getReg (s : State) (r : Reg) : Buffer := s.x.get r

/-- `x[r] <- b` on the state: nothing else changes (R10, R38). -/
def State.setReg (s : State) (r : Reg) (b : Buffer) : State := { s with x := s.x.set r b }

/-- The byte written at index `k`, if one was. -/
def Memory.read : Memory → Nat → Option Byte
  | [], _ => none
  | (a, v) :: rest, k => if a = k then some v else Memory.read rest k

/-- Writes the byte `v` at index `k`, keeping the indices strictly rising. -/
def Memory.write : Memory → Nat → Byte → Memory
  | [], k, v => [(k, v)]
  | (a, u) :: rest, k, v =>
    if k < a then (k, v) :: (a, u) :: rest
    else if k = a then (k, v) :: rest
    else (a, u) :: Memory.write rest k v

/-- Writes the bytes `bs` at the indices from `k` on. -/
def Memory.writeFrom (m : Memory) (k : Nat) : List Byte → Memory
  | [] => m
  | b :: bs => (Memory.writeFrom m (k + 1) bs).write k b

/-- `S[k]` (R33): the character last written, or, if none was written since reset, the free value of R261. -/
def State.charAt (s : State) (k : Nat) : Byte :=
  match s.str.read k with
  | some b => b
  | none => Config.resetChar s.resets k

/-- `S[k] <- c`: nothing else changes, SLEN included (spec/20_memory.md R55). -/
def State.setChar (s : State) (k : Nat) (c : Byte) : State := { s with str := s.str.write k c }

/-- `S[0], S[1], .. , S[n-1]`. -/
def State.chars (s : State) (n : Nat) : List Byte := (List.range n).map s.charAt

/-- `S <- str` (R10, R33): the characters from S[0] on and SLEN; the characters beyond are unchanged. -/
def State.setString (s : State) (cs : List Byte) : State :=
  { s with str := s.str.writeFrom 0 cs, slen := BitVec.ofNat 16 cs.length }

/-- The code of an error kind in STATUS.ERR (R230). -/
def ErrorKind.code : ErrorKind → BitVec 4
  | .invalidFormat => 1#4
  | .unsupportedBase => 2#4
  | .divisionByZero => 3#4
  | .lengthMismatch => 4#4
  | .illegalCommand => 5#4
  | .invalidOperand => 6#4

/-- `STATUS.ERR <- e`, nothing else. -/
def State.setErr (s : State) (e : BitVec 4) : State := { s with status := { s.status with err := e } }

/-- `raise E` (R10, R232): STATUS.ERR takes the code of E and nothing else changes; the command is over. -/
def raise (e : ErrorKind) (s : State) : Outcome := .next (s.setErr e.code)

/-- The end of a command that passed all its checks: `STATUS.ERR <- 0` over the state it has written (R86, R230). -/
def succeed (s : State) : Outcome := .next (s.setErr 0#4)

/-- The hardware reset (R260): the state of R37, the same parameters, the inputs still pending and the answers already
given (both outside the engine), and fresh free characters (R261). -/
def State.hardReset (s : State) : State :=
  { State.resetWith s.params with pending := s.pending, answers := s.answers, resets := s.resets + 1 }

end Sys2Proof.Machine
end

