-- ==== Sys2Proof/Machine/Buffer.lean ====
section
/-!
DEFINITION. Buffers as numbers (spec/00_scope.md R9) and the byte-wise constructions that several commands share.
-/

namespace Sys2Proof.Machine

/-- `val(B)` (R9): byte 0 is the least significant. -/
def val : Buffer → Nat
  | [] => 0
  | b :: bs => b.toNat + 256 * val bs

/-- `buf_N(v)` (R9): the N bytes of `v` modulo `2^(8N)`, byte 0 first. -/
def bufOf : Nat → Nat → Buffer
  | 0, _ => []
  | n + 1, v => BitVec.ofNat 8 v :: bufOf n (v / 256)

/-- Every byte is 0 (spec/45_compare.md R192). -/
def allZero (b : Buffer) : Bool := b.all (· == 0#8)

/-- Bit `k` of a buffer: bit `k mod 8` of byte `k div 8` (R9). -/
def bufferBit (b : Buffer) (k : Nat) : Nat := ((b.getD (k / 8) 0#8).toNat >>> (k % 8)) % 2

/-- Sets bit `k` of a buffer (spec/44_divide.md R183). -/
def setBufferBit (b : Buffer) (k : Nat) : Buffer :=
  b.set (k / 8) (b.getD (k / 8) 0#8 ||| 1#8 <<< (k % 8))

/-- Byte `j` of a buffer replaced (spec/20_memory.md R54). -/
def setBufferByte (b : Buffer) (j : Nat) (v : Byte) : Buffer := b.set j v

end Sys2Proof.Machine
end

