-- ==== Sys2Proof/Machine/Operands.lean ====
section
/-!
DEFINITION. The operands of the commands, with the checks the spec makes on each before anything is written
(spec/30_encoding.md R86, spec/60_exceptions.md R236 to R238), and the three shapes in which a command uses them.
-/

namespace Sys2Proof.Machine

/-- A source register: InvalidOperand if it is empty (R22, R236 (a)). -/
def sourceOperand (s : State) (r : Reg) : Except ErrorKind Buffer :=
  if (s.getReg r).length = 0 then .error .invalidOperand else .ok (s.getReg r)

/-- Two source registers: InvalidOperand if either is empty, then LengthMismatch if their lengths differ
(R236 (a), R237, R238). -/
def operandPair (s : State) (ra rb : Reg) : Except ErrorKind (Buffer × Buffer) :=
  if (s.getReg ra).length = 0 ∨ (s.getReg rb).length = 0 then .error .invalidOperand
  else if (s.getReg ra).length ≠ (s.getReg rb).length then .error .lengthMismatch
  else .ok (s.getReg ra, s.getReg rb)

/-- The declared width of a creator: InvalidOperand unless 1 <= WIDTH.N <= NMAX (R27, R236 (b)). -/
def declaredWidth (s : State) : Except ErrorKind Nat :=
  if s.width.toNat = 0 ∨ s.params.nmax < s.width.toNat then .error .invalidOperand
  else .ok s.width.toNat

/-- The supported bases (spec/00_scope.md R7). -/
inductive Base where
  | two
  | ten
  | sixteen
deriving DecidableEq, Repr

/-- The base as a number. -/
def Base.toNat : Base → Nat
  | .two => 2
  | .ten => 10
  | .sixteen => 16

/-- The base check: UnsupportedBase unless imm16 is 2, 10 or 16 (spec/46_base_conversion.md R200). -/
def baseOperand (imm : Half) : Except ErrorKind Base :=
  if imm.toNat = 2 then .ok .two
  else if imm.toNat = 10 then .ok .ten
  else if imm.toNat = 16 then .ok .sixteen
  else .error .unsupportedBase

/-- The string operand of FROMSTR, `S[0 .. SLEN-1]`: InvalidOperand if SLEN.L > SMAX (R28, R236 (c)). -/
def stringOperand (s : State) : Except ErrorKind (List Byte) :=
  if s.params.smax < s.slen.toNat then .error .invalidOperand else .ok (s.chars s.slen.toNat)

/-- A command `rd <- f(ra)` on one source. -/
def unaryCommand (f : Buffer → Buffer) (rd ra : Reg) (s : State) : Outcome :=
  match sourceOperand s ra with
  | .error e => raise e s
  | .ok a => succeed (s.setReg rd (f a))

/-- A command `rd <- f(ra, rb)` on two sources of one length. -/
def binaryCommand (f : Buffer → Buffer → Buffer) (rd ra rb : Reg) (s : State) : Outcome :=
  match operandPair s ra rb with
  | .error e => raise e s
  | .ok (a, b) => succeed (s.setReg rd (f a b))

/-- A command `rd <- f(WIDTH)` without a source. -/
def creatorCommand (f : Nat → Buffer) (rd : Reg) (s : State) : Outcome :=
  match declaredWidth s with
  | .error e => raise e s
  | .ok n => succeed (s.setReg rd (f n))

end Sys2Proof.Machine
end

