-- ==== Sys2Proof/Machine/AddSub.lean ====
section
/-!
DEFINITION. The adder and subtractor: ADD, SUB (spec/42_add_sub.md R160 to R162), byte by byte with carry and borrow.
-/

namespace Sys2Proof.Machine

/-- The carry chain of R161 from a carry in; the final carry is discarded. -/
def addCarry : Nat → Buffer → Buffer → Buffer
  | carry, a :: as, b :: bs =>
    let s := a.toNat + b.toNat + carry
    BitVec.ofNat 8 s :: addCarry (s / 256) as bs
  | _, _, _ => []

/-- The sum of two buffers of one length (R161). -/
def addBuffer (a b : Buffer) : Buffer := addCarry 0 a b

/-- The borrow chain of R162 from a borrow in; the final borrow is discarded. -/
def subBorrow : Nat → Buffer → Buffer → Buffer
  | borrow, a :: as, b :: bs =>
    let d : Int := a.toNat - b.toNat - borrow
    if d < 0 then BitVec.ofNat 8 (d + 256).toNat :: subBorrow 1 as bs
    else BitVec.ofNat 8 d.toNat :: subBorrow 0 as bs
  | _, _, _ => []

/-- The difference of two buffers of one length (R162). -/
def subBuffer (a b : Buffer) : Buffer := subBorrow 0 a b

/-- ADD rd, ra, rb (R161). -/
def execAdd (rd ra rb : Reg) (s : State) : Outcome := binaryCommand addBuffer rd ra rb s

/-- SUB rd, ra, rb (R162). -/
def execSub (rd ra rb : Reg) (s : State) : Outcome := binaryCommand subBuffer rd ra rb s

end Sys2Proof.Machine
end

