-- ==== Sys2Proof/Machine/Bitwise.lean ====
section
/-!
DEFINITION. Bitwise logic: NOT, AND, OR, XOR (spec/41_shift_bitwise.md R136 to R139).
-/

namespace Sys2Proof.Machine

/-- Every byte complemented: `0xFF - A[i]` (R136). -/
def notBuffer (a : Buffer) : Buffer := a.map (fun b => 0xFF#8 - b)

/-- Byte-wise and (R137). -/
def andBuffer (a b : Buffer) : Buffer := List.zipWith (· &&& ·) a b

/-- Byte-wise or (R138). -/
def orBuffer (a b : Buffer) : Buffer := List.zipWith (· ||| ·) a b

/-- Byte-wise exclusive or (R139). -/
def xorBuffer (a b : Buffer) : Buffer := List.zipWith (· ^^^ ·) a b

/-- NOT rd, ra (R136). -/
def execNot (rd ra : Reg) (s : State) : Outcome := unaryCommand notBuffer rd ra s

/-- AND rd, ra, rb (R137). -/
def execAnd (rd ra rb : Reg) (s : State) : Outcome := binaryCommand andBuffer rd ra rb s

/-- OR rd, ra, rb (R138). -/
def execOr (rd ra rb : Reg) (s : State) : Outcome := binaryCommand orBuffer rd ra rb s

/-- XOR rd, ra, rb (R139). -/
def execXor (rd ra rb : Reg) (s : State) : Outcome := binaryCommand xorBuffer rd ra rb s

end Sys2Proof.Machine
end

