-- ==== Sys2Proof/Machine/Flags.lean ====
section
/-!
DEFINITION. The flags and the STATUS register (spec/10_state.md R25, R29): the three-way code of CMP, the zero test,
and STATUS as the 32-bit word the host reads. No other command writes a flag.
-/

namespace Sys2Proof.Machine

/-- The scan of CMP over bytes given most significant first (spec/45_compare.md R191): the first difference decides. -/
def compareScan : List Byte → List Byte → BitVec 2
  | a :: as, b :: bs =>
    if a.toNat < b.toNat then 0b11#2
    else if b.toNat < a.toNat then 0b01#2
    else compareScan as bs
  | _, _ => 0b00#2

/-- The CMP code of two buffers of one length: 0b11 negative, 0b00 zero, 0b01 positive (R25, R191). -/
def compareCode (a b : Buffer) : BitVec 2 := compareScan a.reverse b.reverse

/-- `STATUS.CMP <- c`, nothing else (R191). -/
def State.setCmp (s : State) (c : BitVec 2) : State := { s with status := { s.status with cmp := c } }

/-- `STATUS.Z <- z`, nothing else (R192). -/
def State.setZ (s : State) (z : Bool) : State := { s with status := { s.status with z := z } }

/-- STATUS as the host reads it (R29): ERR in [3:0], CMP in [5:4], Z in [6], 0 above. -/
def statusWord (st : Status) : Word := 0#25 ++ BitVec.ofBool st.z ++ st.cmp ++ st.err

end Sys2Proof.Machine
end

