-- ==== Sys2Proof/Machine/Compare.lean ====
section
/-!
DEFINITION. Comparison and zero test: CMP, ISZERO (spec/45_compare.md R190 to R192).
-/

namespace Sys2Proof.Machine

/-- CMP ra, rb (R191): writes STATUS.CMP and no register. -/
def execCmp (ra rb : Reg) (s : State) : Outcome :=
  match operandPair s ra rb with
  | .error e => raise e s
  | .ok (a, b) => succeed (s.setCmp (compareCode a b))

/-- ISZERO ra (R192): writes STATUS.Z and no register. -/
def execIsZero (ra : Reg) (s : State) : Outcome :=
  match sourceOperand s ra with
  | .error e => raise e s
  | .ok a => succeed (s.setZ (allZero a))

end Sys2Proof.Machine
end

