-- ==== Sys2Proof/Machine/Convert.lean ====
section
/-!
DEFINITION. Base conversion: TOSTR, FROMSTR (spec/46_base_conversion.md R200 to R209). Characters are ASCII bytes
(spec/10_state.md R33, which marks the code points as general knowledge; log 14).
-/

namespace Sys2Proof.Machine

/-- The character of a digit below 16: '0'..'9', then 'A'..'F' (R202). -/
def digitChar (d : Nat) : Byte := BitVec.ofNat 8 (if d < 10 then 0x30 + d else 0x41 + (d - 10))

/-- `hexstr(A)` (R202): two digits a byte, most significant byte first, never stripped. -/
def hexString (a : Buffer) : List Byte :=
  a.reverse.flatMap (fun b => [digitChar (b.toNat / 16), digitChar (b.toNat % 16)])

/-- `binstr(A)` (R203): eight digits a byte, most significant byte and bit first, never stripped. -/
def binString (a : Buffer) : List Byte :=
  a.reverse.flatMap (fun b => [7, 6, 5, 4, 3, 2, 1, 0].map (fun j => digitChar ((b.toNat >>> j) % 2)))

/-- The loop of `decstr` (R204): the decimal digits of `v`, least significant first, until nothing is left. The fuel
bounds the number of divisions by ten (log 10). -/
def decimalDigits : Nat → Nat → List Byte
  | 0, _ => []
  | fuel + 1, v => if v = 0 then [] else digitChar (v % 10) :: decimalDigits fuel (v / 10)

/-- `decstr(A)` (R204): no leading zeros, and "0" for zero. -/
def decString (a : Buffer) : List Byte :=
  if allZero a then [0x30#8] else (decimalDigits (8 * a.length) (val a)).reverse

/-- The string of a buffer in a base (R201). -/
def stringOf : Base → Buffer → List Byte
  | .two, a => binString a
  | .ten, a => decString a
  | .sixteen, a => hexString a

/-- `digit(c, base)` (R207): the value of a character, or none outside the base's alphabet. -/
def digitOf (base : Base) (c : Byte) : Option Nat :=
  let n := c.toNat
  match base with
  | .two => if n = 0x30 then some 0 else if n = 0x31 then some 1 else none
  | .ten => if 0x30 ≤ n ∧ n ≤ 0x39 then some (n - 0x30) else none
  | .sixteen =>
    if 0x30 ≤ n ∧ n ≤ 0x39 then some (n - 0x30)
    else if 0x41 ≤ n ∧ n ≤ 0x46 then some (n - 0x41 + 10)
    else if 0x61 ≤ n ∧ n ≤ 0x66 then some (n - 0x61 + 10)
    else none

/-- The digits of a string, most significant first, or none if some character is no digit (R206). -/
def digitsOf (base : Base) : List Byte → Option (List Nat)
  | [] => some []
  | c :: cs =>
    match digitOf base c, digitsOf base cs with
    | some d, some ds => some (d :: ds)
    | _, _ => none

/-- The accumulation of R206, each step reduced modulo `2^(8N)`. -/
def accumulate (base n : Nat) : Nat → List Nat → Nat
  | acc, [] => acc
  | acc, d :: ds => accumulate base n ((acc * base + d) % 2 ^ (8 * n)) ds

/-- The buffer of N bytes a string denotes: InvalidFormat if it is empty or has a character that is no digit of the
base (R206, R209). -/
def parseString (base : Base) (n : Nat) (cs : List Byte) : Except ErrorKind Buffer :=
  if cs.length = 0 then .error .invalidFormat
  else
    match digitsOf base cs with
    | none => .error .invalidFormat
    | some ds => .ok (bufOf n (accumulate base.toNat n 0 ds))

/-- TOSTR ra, #base (R201): the base check first, then the operand check. -/
def execToStr (ra : Reg) (base : Half) (s : State) : Outcome :=
  match baseOperand base with
  | .error e => raise e s
  | .ok b =>
    match sourceOperand s ra with
    | .error e => raise e s
    | .ok a => succeed (s.setString (stringOf b a))

/-- FROMSTR rd, #base (R206): the base check, then WIDTH and SLEN, then the characters. -/
def execFromStr (rd : Reg) (base : Half) (s : State) : Outcome :=
  match baseOperand base with
  | .error e => raise e s
  | .ok b =>
    match declaredWidth s with
    | .error e => raise e s
    | .ok n =>
      match stringOperand s with
      | .error e => raise e s
      | .ok cs =>
        match parseString b n cs with
        | .error e => raise e s
        | .ok r => succeed (s.setReg rd r)

end Sys2Proof.Machine
end

