-- ==== Sys2Proof/Machine/Divide.lean ====
section
/-!
DEFINITION. The long divider: DIV, MOD (spec/44_divide.md R180 to R184), bit-serial restoring division.
-/

namespace Sys2Proof.Machine

/-- The loop of R183 over the bits k-1 .. 0 of the dividend `a`: the running remainder and the quotient under
construction. -/
def divideLoop (a : Buffer) (b : Nat) : Nat → Nat → Buffer → Nat × Buffer
  | 0, rem, q => (rem, q)
  | k + 1, rem, q =>
    let r := 2 * rem + bufferBit a k
    if b ≤ r then divideLoop a b k (r - b) (setBufferBit q k)
    else divideLoop a b k r q

/-- The remainder and the quotient of two buffers of one length (R183). -/
def divide (a b : Buffer) : Nat × Buffer :=
  divideLoop a (val b) (8 * a.length) 0 (List.replicate a.length 0x00#8)

/-- The machine of R180, with `wantRemainder` as its argument. -/
def divideCommand (wantRemainder : Bool) (rd ra rb : Reg) (s : State) : Outcome :=
  match operandPair s ra rb with
  | .error e => raise e s
  | .ok (a, b) =>
    if allZero b then raise .divisionByZero s
    else succeed (s.setReg rd (if wantRemainder then bufOf a.length (divide a b).1 else (divide a b).2))

/-- DIV rd, ra, rb (R183). -/
def execDiv (rd ra rb : Reg) (s : State) : Outcome := divideCommand false rd ra rb s

/-- MOD rd, ra, rb (R184). -/
def execMod (rd ra rb : Reg) (s : State) : Outcome := divideCommand true rd ra rb s

end Sys2Proof.Machine
end

