-- ==== Sys2Proof/Machine/Multiply.lean ====
section
/-!
DEFINITION. The long multiplier: MUL (spec/43_multiply.md R170, R171), the schoolbook algorithm with a double-length
scratch buffer, of which the low half is kept.
-/

namespace Sys2Proof.Machine

/-- One row of R171: `a` times the bytes of B, added into the scratch bytes from P[i] on, the carry left in P[i+N]. -/
def mulRow (a : Byte) : Nat → Buffer → Buffer → Buffer
  | carry, b :: bs, p :: ps =>
    let t := p.toNat + a.toNat * b.toNat + carry
    BitVec.ofNat 8 t :: mulRow a (t / 256) bs ps
  | carry, [], _ :: ps => BitVec.ofNat 8 carry :: ps
  | _, _, [] => []

/-- The rows of R171, one for each byte of A, each one byte further up in the scratch buffer. -/
def mulRows (b : Buffer) : Buffer → Buffer → Buffer
  | [], p => p
  | a :: as, p =>
    match mulRow a 0 b p with
    | [] => []
    | q :: qs => q :: mulRows b as qs

/-- The low half of the exact product of two buffers of one length (R171). -/
def mulBuffer (a b : Buffer) : Buffer :=
  (mulRows b a (List.replicate (2 * a.length) 0x00#8)).take a.length

/-- MUL rd, ra, rb (R171). -/
def execMul (rd ra rb : Reg) (s : State) : Outcome := binaryCommand mulBuffer rd ra rb s

end Sys2Proof.Machine
end

