-- ==== Sys2Proof/Machine/Primitives.lean ====
section
/-!
DEFINITION. The buffer primitives ZERO, MAX, RESIZE and SET (spec/40_buffer_primitives.md R110 to R113).
-/

namespace Sys2Proof.Machine

/-- N bytes, each 0x00 (R110). -/
def zeroBuffer (n : Nat) : Buffer := List.replicate n 0x00#8

/-- N bytes, each 0xFF (R111). -/
def maxBuffer (n : Nat) : Buffer := List.replicate n 0xFF#8

/-- Resize (R112): byte i is A[i] for i < M and 0x00 beyond; bytes N and up are dropped. -/
def resizeBuffer : Nat → Buffer → Buffer
  | 0, _ => []
  | n + 1, [] => 0x00#8 :: resizeBuffer n []
  | n + 1, a :: as => a :: resizeBuffer n as

/-- ZERO rd (R110). -/
def execZero (rd : Reg) (s : State) : Outcome := creatorCommand zeroBuffer rd s

/-- MAX rd (R111). -/
def execMax (rd : Reg) (s : State) : Outcome := creatorCommand maxBuffer rd s

/-- RESIZE rd, ra (R112): an empty source and a bad WIDTH are one error, InvalidOperand. -/
def execResize (rd ra : Reg) (s : State) : Outcome :=
  match sourceOperand s ra with
  | .error e => raise e s
  | .ok a => creatorCommand (fun n => resizeBuffer n a) rd s

/-- SET rd, ra (R113): rd is an operand too (its length), so both must be non-empty and of one length. -/
def execSet (rd ra : Reg) (s : State) : Outcome :=
  match operandPair s rd ra with
  | .error e => raise e s
  | .ok (_, a) => succeed (s.setReg rd a)

end Sys2Proof.Machine
end

