-- ==== Sys2Proof/Machine/Shift.lean ====
section
/-!
DEFINITION. The barrel shifter: LSH0, LSH1, RSH0, RSH1 (spec/41_shift_bitwise.md R130 to R135). The fill bit is the
opcode's bit 24 (R85), here the argument `f`.
-/

namespace Sys2Proof.Machine

/-- The fill byte F of R132: the fill bit in every position. -/
def fillByte (f : Bool) : Byte := if f then 0xFF#8 else 0x00#8

/-- Byte i of a left shift by `q` bytes and `s` bits (R132). -/
def leftShiftByte (a : Buffer) (fill : Byte) (q s i : Nat) : Byte :=
  if i < q then fill
  else
    let lower := if i < q + 1 then fill else a.getD (i - q - 1) fill
    (a.getD (i - q) fill <<< s) ||| (lower >>> (8 - s))

/-- The left shift of R132 and R133. -/
def leftShift (f : Bool) (k : Nat) (a : Buffer) : Buffer :=
  if 8 * a.length ≤ k then List.replicate a.length (fillByte f)
  else (List.range a.length).map (leftShiftByte a (fillByte f) (k / 8) (k % 8))

/-- Byte i of a right shift by `q` bytes and `s` bits of a buffer of `n` bytes (R134). -/
def rightShiftByte (a : Buffer) (fill : Byte) (n q s i : Nat) : Byte :=
  if n - 1 < i + q then fill
  else
    let upper := if i + q + 1 ≤ n - 1 then a.getD (i + q + 1) fill else fill
    (a.getD (i + q) fill >>> s) ||| (upper <<< (8 - s))

/-- The right shift of R134 and R135. -/
def rightShift (f : Bool) (k : Nat) (a : Buffer) : Buffer :=
  if 8 * a.length ≤ k then List.replicate a.length (fillByte f)
  else (List.range a.length).map (rightShiftByte a (fillByte f) a.length (k / 8) (k % 8))

/-- LSH0 rd, ra, #k (R132). -/
def execLsh0 (rd ra : Reg) (k : Half) (s : State) : Outcome :=
  unaryCommand (leftShift false k.toNat) rd ra s

/-- LSH1 rd, ra, #k (R133). -/
def execLsh1 (rd ra : Reg) (k : Half) (s : State) : Outcome :=
  unaryCommand (leftShift true k.toNat) rd ra s

/-- RSH0 rd, ra, #k (R134). -/
def execRsh0 (rd ra : Reg) (k : Half) (s : State) : Outcome :=
  unaryCommand (rightShift false k.toNat) rd ra s

/-- RSH1 rd, ra, #k (R135). -/
def execRsh1 (rd ra : Reg) (k : Half) (s : State) : Outcome :=
  unaryCommand (rightShift true k.toNat) rd ra s

end Sys2Proof.Machine
end

