-- ==== Sys2Proof/Machine/Dispatch.lean ====
section
/-!
DEFINITION. One arm per command of the opcode map (spec/30_encoding.md R88), each one call of its meaning.
-/

namespace Sys2Proof.Machine

def exec (i : Instr) (s : State) : Host.Outcome State Fault Refusal :=
  match i with
  | .zero rd => Sys2Proof.Machine.execZero rd s
  | .max rd => Sys2Proof.Machine.execMax rd s
  | .resize rd ra => Sys2Proof.Machine.execResize rd ra s
  | .set rd ra => Sys2Proof.Machine.execSet rd ra s
  | .not rd ra => Sys2Proof.Machine.execNot rd ra s
  | .and rd ra rb => Sys2Proof.Machine.execAnd rd ra rb s
  | .or rd ra rb => Sys2Proof.Machine.execOr rd ra rb s
  | .xor rd ra rb => Sys2Proof.Machine.execXor rd ra rb s
  | .lsh0 rd ra k => Sys2Proof.Machine.execLsh0 rd ra k s
  | .lsh1 rd ra k => Sys2Proof.Machine.execLsh1 rd ra k s
  | .rsh0 rd ra k => Sys2Proof.Machine.execRsh0 rd ra k s
  | .rsh1 rd ra k => Sys2Proof.Machine.execRsh1 rd ra k s
  | .add rd ra rb => Sys2Proof.Machine.execAdd rd ra rb s
  | .sub rd ra rb => Sys2Proof.Machine.execSub rd ra rb s
  | .mul rd ra rb => Sys2Proof.Machine.execMul rd ra rb s
  | .div rd ra rb => Sys2Proof.Machine.execDiv rd ra rb s
  | .mod rd ra rb => Sys2Proof.Machine.execMod rd ra rb s
  | .cmp ra rb => Sys2Proof.Machine.execCmp ra rb s
  | .isZero ra => Sys2Proof.Machine.execIsZero ra s
  | .toStr ra base => Sys2Proof.Machine.execToStr ra base s
  | .fromStr rd base => Sys2Proof.Machine.execFromStr rd base s

end Sys2Proof.Machine
end

