-- ==== Sys2Proof/Machine/Window.lean ====
section
/-!
DEFINITION. The host window (spec/20_memory.md R50 to R59): where an access lands, what a read answers, what a write
stores, and which accesses are refused.
-/

namespace Sys2Proof.Machine

/-- The control registers of spec/10_state.md R26. -/
inductive Control where
  | cmd
  | status
  | width
  | slen
  | cap
  | blen (r : Reg)
deriving DecidableEq, Repr

/-- What an offset of the window belongs to (R51). -/
inductive Place where
  /-- A byte of a control register: the register and the byte's distance from the register's own offset. -/
  | control (c : Control) (lane : Nat)
  /-- A reserved offset. -/
  | reserved
  /-- Byte `j` of register `r`'s stride in the buffer window. -/
  | buffer (r : Reg) (j : Nat)
  /-- Character `k` of the string window. -/
  | string (k : Nat)
deriving DecidableEq, Repr

/-- The register numbered `i`; the callers give 0..7. -/
def regNumbered (i : Nat) : Reg :=
  match i with
  | 0 => .x0
  | 1 => .x1
  | 2 => .x2
  | 3 => .x3
  | 4 => .x4
  | 5 => .x5
  | 6 => .x6
  | _ => .x7

/-- The number of a register. -/
def regNumber : Reg → Nat
  | .x0 => 0
  | .x1 => 1
  | .x2 => 2
  | .x3 => 3
  | .x4 => 4
  | .x5 => 5
  | .x6 => 6
  | .x7 => 7

/-- The map of the window below 0x10000, by 32-bit slot (R51). -/
def controlSlot (slot : Nat) : Option Control :=
  match slot with
  | 0 => some .cmd
  | 1 => some .status
  | 2 => some .width
  | 3 => some .slen
  | 4 => some .cap
  | _ => if 8 ≤ slot ∧ slot < 16 then some (.blen (regNumbered (slot - 8))) else none

/-- The map of the window (R51), for an offset below its size. -/
def placeOf (off : Nat) : Place :=
  if off < Config.bufferBase then
    match controlSlot (off / 4) with
    | some c => .control c (off % 4)
    | none => .reserved
  else if off < Config.stringBase then
    .buffer (regNumbered ((off - Config.bufferBase) / Config.bufferStride))
      ((off - Config.bufferBase) % Config.bufferStride)
  else .string (off - Config.stringBase)

/-- Where a host address lies in the window, or none outside it (R50). -/
def offsetOf (p : Params) (addr : Nat) : Option Nat :=
  if p.base ≤ addr ∧ addr < p.base + Config.windowSize then some (addr - p.base) else none

/-- CAP (spec/10_state.md R30): NMAX in [15:0], SMAX in [31:16]. -/
def capWord (p : Params) : Word := BitVec.ofNat 16 p.smax ++ BitVec.ofNat 16 p.nmax

/-- BLENi (spec/10_state.md R31): the length tag in [15:0], 0 above. -/
def blenWord (s : State) (r : Reg) : Word := 0#16 ++ BitVec.ofNat 16 (s.getReg r).length

/-- The word a control register reads as; CMD cannot be read (R26, R52). -/
def controlWord (s : State) : Control → Option Word
  | .cmd => none
  | .status => some (statusWord s.status)
  | .width => some (0#16 ++ s.width)
  | .slen => some (0#16 ++ s.slen)
  | .cap => some (capWord s.params)
  | .blen r => some (blenWord s r)

/-- `MemRead` at an offset (R52, R53, R55), or the reason it is refused (R57). A read changes nothing. -/
def readPlace (s : State) (p : Place) (n : Nat) : Except Fault Answer :=
  match p with
  | .reserved => .error .reservedOffset
  | .control c lane =>
    if n ≠ 4 ∨ lane ≠ 0 then .error .controlShape
    else
      match controlWord s c with
      | some w => .ok (.word w)
      | none => .error .wrongDirection
  | .buffer r j =>
    if n ≠ 1 then .error .windowWidth
    else
      match (s.getReg r)[j]? with
      | some b => .ok (.byte b)
      | none => .error .beyondLength
  | .string k =>
    if n ≠ 1 then .error .windowWidth
    else if s.params.smax ≤ k then .error .beyondString
    else .ok (.byte (s.charAt k))

/-- What an accepted write does: it stores its datum, or it hands a command word to the engine (R52, R61). -/
inductive WriteEffect where
  | stored (t : State)
  | command (w : Word)
deriving DecidableEq, Repr

/-- `MemWrite` at an offset (R52, R54, R55), or the reason it is refused (R57). -/
def writePlace (s : State) (p : Place) (n v : Nat) : Except Fault WriteEffect :=
  match p with
  | .reserved => .error .reservedOffset
  | .control c lane =>
    if n ≠ 4 ∨ lane ≠ 0 then .error .controlShape
    else
      match c with
      | .cmd => .ok (.command (BitVec.ofNat 32 v))
      | .width => .ok (.stored { s with width := BitVec.ofNat 16 v })
      | .slen => .ok (.stored { s with slen := BitVec.ofNat 16 v })
      | .status => .error .wrongDirection
      | .cap => .error .wrongDirection
      | .blen _ => .error .wrongDirection
  | .buffer r j =>
    if n ≠ 1 then .error .windowWidth
    else if j < (s.getReg r).length then
      .ok (.stored (s.setReg r (setBufferByte (s.getReg r) j (BitVec.ofNat 8 v))))
    else .error .beyondLength
  | .string k =>
    if n ≠ 1 then .error .windowWidth
    else if s.params.smax ≤ k then .error .beyondString
    else .ok (.stored (s.setChar k (BitVec.ofNat 8 v)))

/-- A host read of `n` bytes at an address. -/
def hostRead (s : State) (addr n : Nat) : Except Fault Answer :=
  match offsetOf s.params addr with
  | none => .error .outsideWindow
  | some off => readPlace s (placeOf off) n

/-- A host write of `n` bytes at an address. -/
def hostWrite (s : State) (addr n v : Nat) : Except Fault WriteEffect :=
  match offsetOf s.params addr with
  | none => .error .outsideWindow
  | some off => writePlace s (placeOf off) n v

end Sys2Proof.Machine
end

