-- ==== Sys2Proof/Machine/Command.lean ====
section
/-!
DEFINITION. Serving one input: a read, a write (of which a write of CMD executes a command, spec/10_state.md R32), a
reset. Step.lean only takes the next input and calls these.
-/

namespace Sys2Proof.Machine

/-- The state with one answer more given to the host. -/
def State.answer (s : State) (a : Answer) : State := { s with answers := a :: s.answers }

/-- The engine executes a command word completely (R32, R61); an illegal word ends with IllegalCommand (R89). -/
def runCommand (w : Word) (s : State) : Outcome :=
  match decode w with
  | .ok i => exec i s
  | .error _ => raise .illegalCommand s

/-- The CMD write completes when the command has finished, error or not (R61, R232). -/
def completeWrite : Outcome → Outcome
  | .next t => .next (t.answer .done)
  | .fault f => .fault f
  | .refused r => .refused r

/-- Serves a read: the datum goes to the host, the engine's state is unchanged (R52, R53, R55). -/
def serveRead (s : State) (addr n : Nat) : Outcome :=
  match hostRead s addr n with
  | .ok a => .next (s.answer a)
  | .error f => .fault f

/-- Serves a write. -/
def serveWrite (s : State) (addr n v : Nat) : Outcome :=
  match hostWrite s addr n v with
  | .ok (.stored t) => .next (t.answer .done)
  | .ok (.command w) => completeWrite (runCommand w s)
  | .error f => .fault f

/-- Serves one input. -/
def serve (s : State) : Input → Outcome
  | .read addr n => serveRead s addr n
  | .write addr n v => serveWrite s addr n v
  | .reset => .next s.hardReset

/-- The host write that hands the command word of `nbits` bits `w` to the engine (R32). -/
def commandWrite (s : State) (nbits w : Nat) : Input := .write s.params.base 4 (w % 2 ^ nbits)

end Sys2Proof.Machine
end

