-- ==== Sys2Proof/Machine/Step.lean ====
section
/-!
DEFINITION. One step: the next input is taken and served completely (spec/20_memory.md R60, R61); with none pending the
engine idles (spec/60_exceptions.md R245, R249). It only calls Command.lean.
-/

namespace Sys2Proof.Machine

/-- One step of the machine. -/
def step (s : State) : Host.Outcome State Fault Refusal :=
  match s.pending with
  | [] => .next s
  | i :: rest => serve { s with pending := rest } i

/-- `s` with the host's write of that command word to CMD as the next input (log 3). -/
def State.withFetchWord (s : State) (nbits w : Nat) : State :=
  { s with pending := commandWrite s nbits w :: s.pending }

end Sys2Proof.Machine
end

