-- ==== Sys2Proof/WellFormed.lean ====
section
/-!
DEFINITION. What is well formed: the parameters of the model (spec/00_scope.md R6), and a command word
(spec/30_encoding.md R87), the latter in the two forms the rule gives, by fields and by match and mask. Every term of
`Instr` is a legal command by its type, so it needs no check of its own (see `Reg`).
-/

namespace Sys2Proof

/-- The constraints of R6 on the three parameters. -/
def Params.wellFormed (p : Params) : Bool :=
  decide (64 ≤ p.nmax) && decide (p.nmax ≤ 8191) && decide (8 * p.nmax ≤ p.smax) &&
    decide (p.smax ≤ 65535) && decide (p.base % 0x40000 = 0)

/-- `w[hi:lo]` of R8, as a natural number. -/
def bitField (w : Word) (hi lo : Nat) : Nat := (w.toNat >>> lo) % 2 ^ (hi - lo + 1)

/-- A row of the opcode map of R88: the opcode, whether the format is I (an immediate) or R, and which register
fields the command uses. -/
structure CommandShape where
  op : Nat
  immediate : Bool
  usesRd : Bool
  usesRa : Bool
  usesRb : Bool
deriving DecidableEq, Repr

/-- The opcode map of R88. -/
def commandShapes : List CommandShape :=
  [ ⟨0x01, false, true, false, false⟩,
    ⟨0x02, false, true, false, false⟩,
    ⟨0x03, false, true, true, false⟩,
    ⟨0x04, false, true, true, false⟩,
    ⟨0x08, false, true, true, false⟩,
    ⟨0x09, false, true, true, true⟩,
    ⟨0x0A, false, true, true, true⟩,
    ⟨0x0B, false, true, true, true⟩,
    ⟨0x10, true, true, true, false⟩,
    ⟨0x11, true, true, true, false⟩,
    ⟨0x12, true, true, true, false⟩,
    ⟨0x13, true, true, true, false⟩,
    ⟨0x20, false, true, true, true⟩,
    ⟨0x21, false, true, true, true⟩,
    ⟨0x22, false, true, true, true⟩,
    ⟨0x24, false, true, true, true⟩,
    ⟨0x25, false, true, true, true⟩,
    ⟨0x30, false, false, true, true⟩,
    ⟨0x31, false, false, true, false⟩,
    ⟨0x40, true, false, true, false⟩,
    ⟨0x41, true, true, false, false⟩ ]

/-- A register field of R87: 0..7 where the command uses it, 0 where it does not. -/
def registerFieldLegal (used : Bool) (f : Nat) : Bool := if used then decide (f ≤ 7) else f == 0

/-- The checks R87 makes for one row. Format I has no rb field and no zero field (R82). -/
def CommandShape.accepts (c : CommandShape) (w : Word) : Bool :=
  bitField w 31 24 == c.op && registerFieldLegal c.usesRd (bitField w 23 20) &&
    registerFieldLegal c.usesRa (bitField w 19 16) &&
    (c.immediate || (registerFieldLegal c.usesRb (bitField w 15 12) && bitField w 11 0 == 0))

/-- A word is legal by the decoding algorithm of R87. -/
def legalByFields (w : Word) : Bool := commandShapes.any (·.accepts w)

/-- A row of spec/opcode_table.json: its mnemonic, its match and its mask. -/
structure OpcodeRow where
  mnemonic : String
  pattern : Word
  mask : Word
deriving DecidableEq, Repr

/-- The rows of spec/opcode_table.json in its order. -/
def opcodeRows : List OpcodeRow :=
  [ ⟨"ZERO", 0x01000000, 0xFF8FFFFF⟩,
    ⟨"MAX", 0x02000000, 0xFF8FFFFF⟩,
    ⟨"RESIZE", 0x03000000, 0xFF88FFFF⟩,
    ⟨"SET", 0x04000000, 0xFF88FFFF⟩,
    ⟨"NOT", 0x08000000, 0xFF88FFFF⟩,
    ⟨"AND", 0x09000000, 0xFF888FFF⟩,
    ⟨"OR", 0x0A000000, 0xFF888FFF⟩,
    ⟨"XOR", 0x0B000000, 0xFF888FFF⟩,
    ⟨"LSH0", 0x10000000, 0xFF880000⟩,
    ⟨"LSH1", 0x11000000, 0xFF880000⟩,
    ⟨"RSH0", 0x12000000, 0xFF880000⟩,
    ⟨"RSH1", 0x13000000, 0xFF880000⟩,
    ⟨"ADD", 0x20000000, 0xFF888FFF⟩,
    ⟨"SUB", 0x21000000, 0xFF888FFF⟩,
    ⟨"MUL", 0x22000000, 0xFF888FFF⟩,
    ⟨"DIV", 0x24000000, 0xFF888FFF⟩,
    ⟨"MOD", 0x25000000, 0xFF888FFF⟩,
    ⟨"CMP", 0x30000000, 0xFFF88FFF⟩,
    ⟨"ISZERO", 0x31000000, 0xFFF8FFFF⟩,
    ⟨"TOSTR", 0x40000000, 0xFFF80000⟩,
    ⟨"FROMSTR", 0x41000000, 0xFF8F0000⟩ ]

/-- The rows whose match and mask a word meets (R87). -/
def matchingRows (w : Word) : List OpcodeRow := opcodeRows.filter (fun r => w &&& r.mask == r.pattern)

/-- A word is legal by match and mask: exactly one row of the table (R87). -/
def legalByMask (w : Word) : Bool := (matchingRows w).length == 1

end Sys2Proof
end

