-- ==== Sys2Proof/Safety.lean ====
section
/-!
DEFINITION. The terms the claims use: the invariant of the machine, which accesses are accepted, what "nothing else
changes" means for a command, and what a safe step is.
-/

namespace Sys2Proof.Machine

/-- STATUS holds only the codes of R29: ERR 0..6, CMP not 0b10. -/
def Status.legal (st : Status) : Bool := decide (st.err.toNat ≤ 6) && st.cmp != 0b10#2

/-- Every character written lies below SMAX (spec/20_memory.md R57 (f)). -/
def Memory.below (m : Memory) (bound : Nat) : Bool := m.all (fun c => decide (c.1 < bound))

/-- The invariant: legal parameters (R6), no buffer longer than NMAX (R21), the string buffer in its canonical form and
below SMAX (R33), STATUS legal (R29). -/
abbrev State.Inv (s : State) : Prop :=
  s.params.wellFormed = true ∧ (∀ r ∈ Reg.all, (s.getReg r).length ≤ s.params.nmax) ∧
    s.str.wf = true ∧ s.str.below s.params.smax = true ∧ s.status.legal = true

/-- `t` is `s` with STATUS.ERR at `code` and nothing else changed (spec/60_exceptions.md R232). -/
def OnlyErr (s t : State) (code : BitVec 4) : Prop :=
  t = { s with status := { s.status with err := code } }

/-- `t` is `s` after a command that wrote the buffer `b` to `rd`, set STATUS.ERR to 0, and changed nothing else. -/
def OnlyRegister (s t : State) (rd : Reg) (b : Buffer) : Prop :=
  t.getReg rd = b ∧ (∀ r, r ≠ rd → t.getReg r = s.getReg r) ∧ (∀ k, t.charAt k = s.charAt k) ∧
    t.slen = s.slen ∧ t.width = s.width ∧ t.status = { s.status with err := 0#4 } ∧
    t.params = s.params ∧ t.pending = s.pending ∧ t.answers = s.answers ∧ t.resets = s.resets

/-- `t` is `s` after a command that wrote the string `cs` to S and SLEN, set STATUS.ERR to 0, and changed nothing
else (spec/46_base_conversion.md R201). -/
def OnlyString (s t : State) (cs : List Byte) : Prop :=
  (∀ k (h : k < cs.length), t.charAt k = cs[k]) ∧ (∀ k, cs.length ≤ k → t.charAt k = s.charAt k) ∧
    t.slen = BitVec.ofNat 16 cs.length ∧ (∀ r, t.getReg r = s.getReg r) ∧ t.width = s.width ∧
    t.status = { s.status with err := 0#4 } ∧
    t.params = s.params ∧ t.pending = s.pending ∧ t.answers = s.answers ∧ t.resets = s.resets

/-- The offsets at which a 32-bit read is defined (spec/20_memory.md R51, R56). -/
def controlReadable (off : Nat) : Prop :=
  off = 0x4 ∨ off = 0x8 ∨ off = 0xC ∨ off = 0x10 ∨ ∃ i, i < 8 ∧ off = 0x20 + 4 * i

/-- The offsets at which a 32-bit write is defined (R51, R56). -/
def controlWritable (off : Nat) : Prop := off = 0x0 ∨ off = 0x8 ∨ off = 0xC

/-- The offsets at which an 8-bit access is defined (R51, R56): a byte of a register below its length, a character
below SMAX. -/
def byteAccessible (s : State) (off : Nat) : Prop :=
  (∃ i j, i < 8 ∧ j < 0x2000 ∧ j < (s.getReg (regNumbered i)).length ∧ off = 0x10000 + 0x2000 * i + j) ∨
    (∃ k, k < 0x10000 ∧ k < s.params.smax ∧ off = 0x20000 + k)

/-- A read the window defines (R56). -/
def readAccepted (s : State) (addr n : Nat) : Prop :=
  ∃ off, addr = s.params.base + off ∧ ((n = 4 ∧ controlReadable off) ∨ (n = 1 ∧ byteAccessible s off))

/-- A write the window defines (R56). -/
def writeAccepted (s : State) (addr n : Nat) : Prop :=
  ∃ off, addr = s.params.base + off ∧ ((n = 4 ∧ controlWritable off) ∨ (n = 1 ∧ byteAccessible s off))

/-- An input the engine serves: every reset, and every access the window defines. -/
def inputAccepted (s : State) : Input → Prop
  | .read addr n => readAccepted s addr n
  | .write addr n _ => writeAccepted s addr n
  | .reset => True

/-- A state whose next step does not stop: nothing is pending, or the next input is accepted. -/
def State.Safe (s : State) : Prop :=
  match s.pending with
  | [] => True
  | i :: _ => inputAccepted s i

/-- `t` is `s` after a command that set the two flags and STATUS.ERR to 0, and changed nothing else (R190). -/
def OnlyFlags (s t : State) (cmp : BitVec 2) (z : Bool) : Prop :=
  t = { s with status := { err := 0#4, cmp := cmp, z := z } }

/-- The word with these fields in format R (spec/30_encoding.md R92). -/
def formatR (op rd ra rb : Nat) : Word := BitVec.ofNat 32 (op * 2 ^ 24 + rd * 2 ^ 20 + ra * 2 ^ 16 + rb * 2 ^ 12)

/-- The word with these fields in format I (R92). -/
def formatI (op rd ra imm : Nat) : Word := BitVec.ofNat 32 (op * 2 ^ 24 + rd * 2 ^ 20 + ra * 2 ^ 16 + imm)

/-- The instruction `i` and the word `w` stand for each other. -/
def Spelled (i : Instr) (w : Word) : Prop := encode i = w ∧ decode w = .ok i

/-- The command `i` ends in a next state with the error `code` and no other effect. -/
def Fails (i : Instr) (s : State) (code : BitVec 4) : Prop := ∃ t, exec i s = .next t ∧ OnlyErr s t code

/-- The command `i` ends in a next state whose only effect is a buffer with the property `P` in `rd`. -/
def Writes (i : Instr) (s : State) (rd : Reg) (P : Buffer → Prop) : Prop :=
  ∃ t r, exec i s = .next t ∧ OnlyRegister s t rd r ∧ P r

/-- WIDTH is no legal length (spec/10_state.md R27). -/
def badWidth (s : State) : Prop := s.width.toNat = 0 ∨ s.params.nmax < s.width.toNat

/-- A command without a source: its word, its error, its result of WIDTH bytes. -/
def CreatorRule (c : Reg → Instr) (op : Nat) (P : Nat → Buffer → Prop) : Prop :=
  ∀ (s : State) (rd : Reg),
    Spelled (c rd) (formatR op (regNumber rd) 0 0) ∧
    (badWidth s → Fails (c rd) s 6#4) ∧
    (¬ badWidth s → Writes (c rd) s rd (fun r => r.length = s.width.toNat ∧ P s.width.toNat r))

/-- A command on one source, of word `w`: its word, its error, its result of the source's length. -/
def UnaryRule (i : Instr) (w : Word) (rd ra : Reg) (P : Buffer → Buffer → Prop) : Prop :=
  ∀ s : State,
    Spelled i w ∧
    (s.getReg ra = [] → Fails i s 6#4) ∧
    (s.getReg ra ≠ [] → Writes i s rd (fun r => r.length = (s.getReg ra).length ∧ P (s.getReg ra) r))

/-- A command on two sources: its word, its errors in order, its result of their common length. -/
def BinaryRule (c : Reg → Reg → Reg → Instr) (op : Nat) (P : Buffer → Buffer → Buffer → Prop) : Prop :=
  ∀ (s : State) (rd ra rb : Reg),
    Spelled (c rd ra rb) (formatR op (regNumber rd) (regNumber ra) (regNumber rb)) ∧
    (s.getReg ra = [] ∨ s.getReg rb = [] → Fails (c rd ra rb) s 6#4) ∧
    (s.getReg ra ≠ [] → s.getReg rb ≠ [] → (s.getReg ra).length ≠ (s.getReg rb).length →
      Fails (c rd ra rb) s 4#4) ∧
    (s.getReg ra ≠ [] → (s.getReg ra).length = (s.getReg rb).length →
      Writes (c rd ra rb) s rd
        (fun r => r.length = (s.getReg ra).length ∧ P (s.getReg ra) (s.getReg rb) r))

/-- A division command: as `BinaryRule`, with DivisionByZero after the length check (spec/44_divide.md R182). -/
def DivisionRule (c : Reg → Reg → Reg → Instr) (op : Nat) (P : Buffer → Buffer → Buffer → Prop) : Prop :=
  ∀ (s : State) (rd ra rb : Reg),
    Spelled (c rd ra rb) (formatR op (regNumber rd) (regNumber ra) (regNumber rb)) ∧
    (s.getReg ra = [] ∨ s.getReg rb = [] → Fails (c rd ra rb) s 6#4) ∧
    (s.getReg ra ≠ [] → s.getReg rb ≠ [] → (s.getReg ra).length ≠ (s.getReg rb).length →
      Fails (c rd ra rb) s 4#4) ∧
    (s.getReg ra ≠ [] → (s.getReg ra).length = (s.getReg rb).length → (∀ b ∈ s.getReg rb, b = 0#8) →
      Fails (c rd ra rb) s 3#4) ∧
    (s.getReg ra ≠ [] → (s.getReg ra).length = (s.getReg rb).length → ¬ (∀ b ∈ s.getReg rb, b = 0#8) →
      Writes (c rd ra rb) s rd
        (fun r => r.length = (s.getReg ra).length ∧ P (s.getReg ra) (s.getReg rb) r))

/-- A byte-wise result on two sources (spec/41_shift_bitwise.md R137). -/
def Bytewise (f : Byte → Byte → Byte) (a b r : Buffer) : Prop :=
  ∀ i, i < a.length → r.getD i 0#8 = f (a.getD i 0#8) (b.getD i 0#8)

/-- The digits of R202, in the character codes of R33 (PRESUMED, log 14). -/
def hexAlphabet : List Byte :=
  [0x30#8, 0x31#8, 0x32#8, 0x33#8, 0x34#8, 0x35#8, 0x36#8, 0x37#8, 0x38#8, 0x39#8,
    0x41#8, 0x42#8, 0x43#8, 0x44#8, 0x45#8, 0x46#8]

/-- `hexstr` (R202): 2N characters, the high then the low nibble of each byte from the most significant down. -/
def HexNumeral (a : Buffer) (cs : List Byte) : Prop :=
  cs.length = 2 * a.length ∧ ∀ i, i < a.length →
    cs.getD (2 * i) 0#8 = hexAlphabet.getD ((a.getD (a.length - 1 - i) 0#8).toNat / 16) 0#8 ∧
    cs.getD (2 * i + 1) 0#8 = hexAlphabet.getD ((a.getD (a.length - 1 - i) 0#8).toNat % 16) 0#8

/-- `binstr` (R203): 8N characters, character k the digit of bit 8N-1-k (codes: log 14). -/
def BinaryNumeral (a : Buffer) (cs : List Byte) : Prop :=
  cs.length = 8 * a.length ∧ ∀ k, k < 8 * a.length →
    cs.getD k 0#8 = if (val a).testBit (8 * a.length - 1 - k) then 0x31#8 else 0x30#8

/-- `decstr` (R204): the ordinary decimal numeral of a value, without leading zeros, "0" for zero
(codes: log 14). -/
def DecimalNumeral (v : Nat) (cs : List Byte) : Prop :=
  cs ≠ [] ∧ (∀ c ∈ cs, 0x30 ≤ c.toNat ∧ c.toNat ≤ 0x39) ∧ (cs.head? = some 0x30#8 → cs = [0x30#8]) ∧
    cs.foldl (fun n c => 10 * n + (c.toNat - 0x30)) 0 = v

/-- The digit alphabets of R207 in the character codes of R33 (PRESUMED, log 14): each character with its value. -/
def digitAlphabet (base : Nat) : List (Byte × Nat) :=
  let decimal : List (Byte × Nat) :=
    [(0x30#8, 0), (0x31#8, 1), (0x32#8, 2), (0x33#8, 3), (0x34#8, 4), (0x35#8, 5), (0x36#8, 6), (0x37#8, 7),
      (0x38#8, 8), (0x39#8, 9)]
  if base = 2 then [(0x30#8, 0), (0x31#8, 1)]
  else if base = 10 then decimal
  else if base = 16 then
    decimal ++
      [(0x41#8, 10), (0x42#8, 11), (0x43#8, 12), (0x44#8, 13), (0x45#8, 14), (0x46#8, 15),
        (0x61#8, 10), (0x62#8, 11), (0x63#8, 12), (0x64#8, 13), (0x65#8, 14), (0x66#8, 15)]
  else []

/-- The value of a character in a base, if it is a digit of the base (R207). -/
def digitValue (base : Nat) (c : Byte) : Option Nat := (digitAlphabet base).lookup c

/-- A string FROMSTR accepts in a base (R206, R209): not empty, every character a digit. -/
def IsNumeral (base : Nat) (cs : List Byte) : Prop := cs ≠ [] ∧ ∀ c ∈ cs, (digitValue base c).isSome = true

/-- The number a string denotes in a base (R206). -/
def numeralValue (base : Nat) (cs : List Byte) : Nat :=
  cs.foldl (fun n c => n * base + (digitValue base c).getD 0) 0

/-- The supported bases (R200). -/
def supportedBase (base : Nat) : Prop := base = 2 ∨ base = 10 ∨ base = 16

/-- The registers a command reads as operands (spec/30_encoding.md R88, spec/60_exceptions.md R236 (a)). -/
def sourcesOf : Instr → List Reg
  | .zero _ => []
  | .max _ => []
  | .resize _ ra => [ra]
  | .set rd ra => [rd, ra]
  | .not _ ra => [ra]
  | .and _ ra rb => [ra, rb]
  | .or _ ra rb => [ra, rb]
  | .xor _ ra rb => [ra, rb]
  | .lsh0 _ ra _ => [ra]
  | .lsh1 _ ra _ => [ra]
  | .rsh0 _ ra _ => [ra]
  | .rsh1 _ ra _ => [ra]
  | .add _ ra rb => [ra, rb]
  | .sub _ ra rb => [ra, rb]
  | .mul _ ra rb => [ra, rb]
  | .div _ ra rb => [ra, rb]
  | .mod _ ra rb => [ra, rb]
  | .cmp ra rb => [ra, rb]
  | .isZero ra => [ra]
  | .toStr ra _ => [ra]
  | .fromStr _ _ => []

/-- The destination register of a command, if it has one (R88). -/
def destinationOf : Instr → Option Reg
  | .zero rd => some rd
  | .max rd => some rd
  | .resize rd _ => some rd
  | .set rd _ => some rd
  | .not rd _ => some rd
  | .and rd _ _ => some rd
  | .or rd _ _ => some rd
  | .xor rd _ _ => some rd
  | .lsh0 rd _ _ => some rd
  | .lsh1 rd _ _ => some rd
  | .rsh0 rd _ _ => some rd
  | .rsh1 rd _ _ => some rd
  | .add rd _ _ => some rd
  | .sub rd _ _ => some rd
  | .mul rd _ _ => some rd
  | .div rd _ _ => some rd
  | .mod rd _ _ => some rd
  | .cmp _ _ => none
  | .isZero _ => none
  | .toStr _ _ => none
  | .fromStr rd _ => some rd

/-- The creators: the commands whose result takes its length from WIDTH (spec/00_scope.md R12). -/
def isCreator : Instr → Bool
  | .zero _ => true
  | .max _ => true
  | .resize _ _ => true
  | .fromStr _ _ => true
  | _ => false

/-- The base immediate of a command that has one (R84). -/
def baseOf : Instr → Option Nat
  | .toStr _ b => some b.toNat
  | .fromStr _ b => some b.toNat
  | _ => none

/-- DIV or MOD. -/
def isDivision : Instr → Bool
  | .div _ _ _ => true
  | .mod _ _ _ => true
  | _ => false

/-- FROMSTR. -/
def isFromStr : Instr → Bool
  | .fromStr _ _ => true
  | _ => false

/-- TOSTR. -/
def isToStr : Instr → Bool
  | .toStr _ _ => true
  | _ => false

/-- CMP. -/
def isCmp : Instr → Bool
  | .cmp _ _ => true
  | _ => false

/-- ISZERO. -/
def isIsZero : Instr → Bool
  | .isZero _ => true
  | _ => false

/-- SET. -/
def isSet : Instr → Bool
  | .set _ _ => true
  | _ => false

/-- R238 item 2, the cause of R233: UnsupportedBase. -/
def causesUnsupportedBase (i : Instr) : Prop := ∃ b, baseOf i = some b ∧ ¬ supportedBase b

/-- R238 item 3, the causes of R236: InvalidOperand. -/
def causesInvalidOperand (i : Instr) (s : State) : Prop :=
  (∃ r ∈ sourcesOf i, s.getReg r = []) ∨ (isCreator i = true ∧ badWidth s) ∨
    (isFromStr i = true ∧ s.params.smax < s.slen.toNat)

/-- R238 item 4, the cause of R237: LengthMismatch. -/
def causesLengthMismatch (i : Instr) (s : State) : Prop :=
  ∃ p q, sourcesOf i = [p, q] ∧ (s.getReg p).length ≠ (s.getReg q).length

/-- R238 item 5, the cause of R234: DivisionByZero. -/
def causesDivisionByZero (i : Instr) (s : State) : Prop :=
  isDivision i = true ∧ ∃ p q, sourcesOf i = [p, q] ∧ ∀ b ∈ s.getReg q, b = 0#8

/-- R238 item 6, the cause of R231: InvalidFormat. -/
def causesInvalidFormat (i : Instr) (s : State) : Prop :=
  isFromStr i = true ∧ ∃ b, baseOf i = some b ∧ ¬ IsNumeral b ((List.range s.slen.toNat).map s.charAt)

/-- Two states agree on everything the command names (spec/10_state.md R36): its sources, WIDTH for a creator, the
string operand of FROMSTR, and the parameters. -/
def SameOperands (i : Instr) (s u : State) : Prop :=
  s.params = u.params ∧ (∀ r ∈ sourcesOf i, s.getReg r = u.getReg r) ∧
    (isCreator i = true → s.width = u.width) ∧
    (isFromStr i = true → s.slen = u.slen ∧ ∀ k, k < s.slen.toNat → s.charAt k = u.charAt k)

/-- Several commands one after another, each on the state the one before left. -/
def execAll : List Instr → State → Outcome
  | [], s => .next s
  | i :: is, s =>
    match exec i s with
    | .next t => execAll is t
    | .fault f => .fault f
    | .refused r => .refused r

/-- The commands run, the last one succeeds, and `r` then holds `b`. -/
def Yields (is : List Instr) (s : State) (r : Reg) (b : Buffer) : Prop :=
  ∃ t, execAll is s = .next t ∧ t.status.err = 0#4 ∧ t.getReg r = b

/-- Two lists of commands run from one state, both succeed, and leave the same buffer in `p` and in `q`. -/
def SameResult (is : List Instr) (p : Reg) (js : List Instr) (q : Reg) (s : State) : Prop :=
  ∃ b, Yields is s p b ∧ Yields js s q b

end Sys2Proof.Machine
end

