-- ==== Sys2Proof/Certificates/Slice0/Obligations.lean ====
section
/-!
DEFINITION. The statements for the provers, each a proposition about the machine over every state, register and
operand. The shapes they use (`BinaryRule`, `OnlyErr`, ...) are in Sys2Proof/Safety.lean. Where a statement speaks of
`pending` and `answers`, that is the model's record of the host's side (logs 3 and 5): "the host issues this access next"
and "the access returns this", which the spec says in words.
-/

open Sys2Proof Sys2Proof.Machine

/-! ## Encoding and decoding -/

/-- Decoding the word of a command gives the command back, for every operand (spec/30_encoding.md R87, R92). -/
def Obligations.DecodeOfEncodeIsIdentity : Prop := ∀ i : Instr, decode (encode i) = .ok i

/-- Every word that decodes is the word of the command it decodes to: no bit is ignored (R83, R87, R89). -/
def Obligations.EncodeOfDecodeIsIdentity : Prop := ∀ (w : Word) (i : Instr), decode w = .ok i → encode i = w

/-- R87: a word decodes exactly when the field checks pass for a row of R88, exactly when one row of
spec/opcode_table.json matches, and no word matches two rows. -/
def Obligations.WordsDecodeExactlyByFieldsAndByMasks : Prop :=
  ∀ w : Word,
    ((∃ i, decode w = .ok i) ↔ legalByFields w = true) ∧
    ((∃ i, decode w = .ok i) ↔ legalByMask w = true) ∧
    (matchingRows w).length ≤ 1

/-- R235: a CMD write of a word that no row accepts completes, sets ERR to 5 and changes nothing else; the word is
not recorded. -/
def Obligations.IllegalWordsEndWithIllegalCommand : Prop :=
  ∀ (s : State) (rest : List Input) (w : Word), s.pending = .write s.params.base 4 w.toNat :: rest →
    legalByFields w = false →
    step s = .next { s with pending := rest, answers := .done :: s.answers,
                            status := { s.status with err := 5#4 } }

/-- The examples of R92 decode to the commands they are written for. -/
def Obligations.ExampleWordsDecode : Prop :=
  decode 0x20201000#32 = .ok (.add .x2 .x0 .x1) ∧ decode 0x11330009#32 = .ok (.lsh1 .x3 .x3 9#16) ∧
    decode 0x30001000#32 = .ok (.cmp .x0 .x1) ∧ decode 0x31040000#32 = .ok (.isZero .x4) ∧
    decode 0x40020010#32 = .ok (.toStr .x2 16#16) ∧ decode 0x4150000A#32 = .ok (.fromStr .x5 10#16) ∧
    decode 0x01700000#32 = .ok (.zero .x7)

/-! ## The step and the host window -/

/-- A step whose next input is a CMD write of a word that decodes runs exactly that command on the state without the
input, and answers the host when it is done (spec/10_state.md R32, spec/20_memory.md R61). -/
def Obligations.StepRunsTheDecodedCommand : Prop :=
  ∀ (s : State) (rest : List Input) (w : Word) (i : Instr), decode w = .ok i →
    (s.pending = .write s.params.base 4 w.toNat :: rest →
      ∃ t, exec i { s with pending := rest } = .next t ∧
        step s = .next { t with answers := .done :: t.answers }) ∧
    ∃ t, exec i s = .next t ∧ step (s.withFetchWord 32 w.toNat) = .next { t with answers := .done :: t.answers }

/-- A step that answers takes the next input and no other, gives it exactly one answer (none for a reset), and idles
without changing anything when no input is pending (spec/20_memory.md R60, spec/60_exceptions.md R245). -/
def Obligations.StepServesOneInputInOrder : Prop :=
  ∀ s t : State, step s = .next t →
    (s.pending = [] → t = s) ∧
    (∀ i rest, s.pending = i :: rest → t.pending = rest ∧
      (i = .reset → t.answers = s.answers) ∧ (i ≠ .reset → ∃ a, t.answers = a :: s.answers))

/-- R56: a step stops exactly on an access the window does not define, and no step is refused. -/
def Obligations.StepStopsExactlyOnUndefinedAccess : Prop :=
  ∀ s : State, (s.Safe ↔ ∃ t, step s = .next t) ∧ (¬ s.Safe ↔ ∃ f, step s = .fault f) ∧
    ∀ r, step s ≠ .refused r

/-- R57: the refused accesses, case by case; each stops the step, so none returns data or changes state. -/
def Obligations.RefusedAccessesStop : Prop :=
  ∀ (s : State) (rest : List Input) (off n v : Nat),
    let readStops := s.pending = .read (s.params.base + off) n :: rest → ∃ f, step s = .fault f
    let writeStops := s.pending = .write (s.params.base + off) n v :: rest → ∃ f, step s = .fault f
    ((0x14 ≤ off ∧ off < 0x20) ∨ (0x40 ≤ off ∧ off < 0x10000) → readStops ∧ writeStops) ∧
    (off = 0x0 → readStops) ∧
    (off = 0x4 ∨ off = 0x10 ∨ (∃ i, i < 8 ∧ off = 0x20 + 4 * i) → writeStops) ∧
    (off < 0x40 → n ≠ 4 ∨ off % 4 ≠ 0 → readStops ∧ writeStops) ∧
    (0x10000 ≤ off → off < 0x30000 → n ≠ 1 → readStops ∧ writeStops) ∧
    (∀ i j, i < 8 → j < 0x2000 → off = 0x10000 + 0x2000 * i + j → (s.getReg (regNumbered i)).length ≤ j →
      readStops ∧ writeStops) ∧
    (∀ k, k < 0x10000 → off = 0x20000 + k → s.params.smax ≤ k → readStops ∧ writeStops)

/-- The words the control registers read as (spec/10_state.md R27 to R31), and that reading one changes nothing
(spec/20_memory.md R52). -/
def Obligations.ControlRegistersReadAsSpecified : Prop :=
  ∀ (s : State) (rest : List Input), s.Inv →
    let reads := fun (off v : Nat) => s.pending = .read (s.params.base + off) 4 :: rest →
      ∃ w : Word, w.toNat = v ∧ step s = .next { s with pending := rest, answers := .word w :: s.answers }
    reads 0x4 (s.status.err.toNat + 16 * s.status.cmp.toNat + 64 * s.status.z.toNat) ∧
    reads 0x8 s.width.toNat ∧ reads 0xC s.slen.toNat ∧ reads 0x10 (s.params.nmax + 65536 * s.params.smax) ∧
    (∀ i, i < 8 → reads (0x20 + 4 * i) (s.getReg (regNumbered i)).length)

/-- A write of WIDTH or SLEN stores bits [15:0] of the datum and ignores the others; nothing else changes
(spec/10_state.md R27, R28, spec/20_memory.md R52). -/
def Obligations.WidthAndSlenStoreSixteenBits : Prop :=
  ∀ (s : State) (rest : List Input) (v : Nat),
    (s.pending = .write (s.params.base + 0x8) 4 v :: rest → ∃ n : Half, n.toNat = v % 65536 ∧
      step s = .next { s with pending := rest, answers := .done :: s.answers, width := n }) ∧
    (s.pending = .write (s.params.base + 0xC) 4 v :: rest → ∃ n : Half, n.toNat = v % 65536 ∧
      step s = .next { s with pending := rest, answers := .done :: s.answers, slen := n })

/-- R53, R54: the buffer window reads byte j of a register, and a write sets that byte and nothing else: not the other
bytes, not the length, not another register. -/
def Obligations.BufferWindowReadsAndWritesOneByte : Prop :=
  ∀ (s : State) (rest : List Input) (i j v : Nat), i < 8 → j < 0x2000 →
    ∀ h : j < (s.getReg (regNumbered i)).length,
    (s.pending = .read (s.params.base + (0x10000 + 0x2000 * i + j)) 1 :: rest →
      step s = .next { s with pending := rest, answers := .byte (s.getReg (regNumbered i))[j] :: s.answers }) ∧
    (s.pending = .write (s.params.base + (0x10000 + 0x2000 * i + j)) 1 v :: rest →
      ∃ t, step s = .next t ∧ (t.getReg (regNumbered i)).length = (s.getReg (regNumbered i)).length ∧
        (t.getReg (regNumbered i)).getD j 0#8 = BitVec.ofNat 8 v ∧
        (∀ k, k ≠ j → (t.getReg (regNumbered i)).getD k 0#8 = (s.getReg (regNumbered i)).getD k 0#8) ∧
        (∀ r, r ≠ regNumbered i → t.getReg r = s.getReg r) ∧ (∀ k, t.charAt k = s.charAt k) ∧
        t.slen = s.slen ∧ t.width = s.width ∧ t.status = s.status ∧ t.params = s.params ∧
        t.resets = s.resets ∧ t.pending = rest ∧ t.answers = .done :: s.answers)

/-- The string window reads and writes S[k] for every k below SMAX, whatever SLEN is, and a write changes that
character alone (R55). -/
def Obligations.StringWindowReadsAndWritesOneCharacter : Prop :=
  ∀ (s : State) (rest : List Input) (k v : Nat), k < 0x10000 → k < s.params.smax →
    (s.pending = .read (s.params.base + (0x20000 + k)) 1 :: rest →
      step s = .next { s with pending := rest, answers := .byte (s.charAt k) :: s.answers }) ∧
    (s.pending = .write (s.params.base + (0x20000 + k)) 1 v :: rest →
      ∃ t, step s = .next t ∧ t.charAt k = BitVec.ofNat 8 v ∧ (∀ j, j ≠ k → t.charAt j = s.charAt j) ∧
        t.x = s.x ∧ t.slen = s.slen ∧ t.width = s.width ∧ t.status = s.status ∧ t.params = s.params ∧
        t.resets = s.resets ∧ t.pending = rest ∧ t.answers = .done :: s.answers)

/-- Accesses other than a CMD write are idempotent (R58): a write done twice in a row leaves the state it left the first
time, a read done twice answers the same; only the model's list of answers grows (log 5). -/
def Obligations.WindowAccessesAreIdempotent : Prop :=
  ∀ (s t u : State) (rest : List Input) (off n v : Nat), step s = .next t → step t = .next u →
    (off ≠ 0 → s.pending = .write (s.params.base + off) n v :: .write (s.params.base + off) n v :: rest →
      u = { t with pending := rest, answers := .done :: t.answers }) ∧
    (s.pending = .read (s.params.base + off) n :: .read (s.params.base + off) n :: rest →
      ∃ a, t = { s with pending := t.pending, answers := a :: s.answers } ∧
        u = { t with pending := rest, answers := a :: t.answers })

/-! ## The commands, one rule each: its word, its errors in order, its result, and nothing else changed -/

/-- R110. -/
def Obligations.ZeroFollowsItsRule : Prop := CreatorRule .zero 0x01 (fun _ r => ∀ b ∈ r, b = 0x00#8)

/-- R111. -/
def Obligations.MaxFollowsItsRule : Prop :=
  CreatorRule .max 0x02 (fun n r => (∀ b ∈ r, b = 0xFF#8) ∧ val r = 2 ^ (8 * n) - 1)

/-- R112. -/
def Obligations.ResizeFollowsItsRule : Prop :=
  ∀ (s : State) (rd ra : Reg),
    Spelled (.resize rd ra) (formatR 0x03 (regNumber rd) (regNumber ra) 0) ∧
    (s.getReg ra = [] ∨ badWidth s → Fails (.resize rd ra) s 6#4) ∧
    (s.getReg ra ≠ [] → ¬ badWidth s →
      Writes (.resize rd ra) s rd (fun r => r.length = s.width.toNat ∧
        (∀ i, i < s.width.toNat →
          r.getD i 0#8 = if i < (s.getReg ra).length then (s.getReg ra).getD i 0#8 else 0x00#8) ∧
        val r = val (s.getReg ra) % 2 ^ (8 * s.width.toNat)))

/-- R113. -/
def Obligations.SetFollowsItsRule : Prop :=
  ∀ (s : State) (rd ra : Reg),
    Spelled (.set rd ra) (formatR 0x04 (regNumber rd) (regNumber ra) 0) ∧
    (s.getReg rd = [] ∨ s.getReg ra = [] → Fails (.set rd ra) s 6#4) ∧
    (s.getReg rd ≠ [] → s.getReg ra ≠ [] → (s.getReg rd).length ≠ (s.getReg ra).length →
      Fails (.set rd ra) s 4#4) ∧
    (s.getReg rd ≠ [] → (s.getReg rd).length = (s.getReg ra).length →
      Writes (.set rd ra) s rd (fun r => r = s.getReg ra))

/-- R136. -/
def Obligations.NotFollowsItsRule : Prop :=
  ∀ rd ra : Reg,
    UnaryRule (.not rd ra) (formatR 0x08 (regNumber rd) (regNumber ra) 0) rd ra (fun a r =>
      (∀ i, i < a.length → (r.getD i 0#8).toNat = 255 - (a.getD i 0#8).toNat) ∧
      val r = 2 ^ (8 * a.length) - 1 - val a)

/-- R137. -/
def Obligations.AndFollowsItsRule : Prop := BinaryRule .and 0x09 (Bytewise (· &&& ·))

/-- R138. -/
def Obligations.OrFollowsItsRule : Prop := BinaryRule .or 0x0A (Bytewise (· ||| ·))

/-- R139. -/
def Obligations.XorFollowsItsRule : Prop := BinaryRule .xor 0x0B (Bytewise (· ^^^ ·))

/-- R132, with the bit form of R130: bit j of the source becomes bit j+k, and bits 0..k-1 are 0. -/
def Obligations.Lsh0FollowsItsRule : Prop :=
  ∀ (rd ra : Reg) (k : Half),
    UnaryRule (.lsh0 rd ra k) (formatI 0x10 (regNumber rd) (regNumber ra) k.toNat) rd ra (fun a r =>
      val r = val a * 2 ^ k.toNat % 2 ^ (8 * a.length) ∧
      ∀ j, j < 8 * a.length → (val r).testBit j = if j < k.toNat then false else (val a).testBit (j - k.toNat))

/-- R133. -/
def Obligations.Lsh1FollowsItsRule : Prop :=
  ∀ (rd ra : Reg) (k : Half),
    UnaryRule (.lsh1 rd ra k) (formatI 0x11 (regNumber rd) (regNumber ra) k.toNat) rd ra (fun a r =>
      val r = (val a * 2 ^ k.toNat + 2 ^ k.toNat - 1) % 2 ^ (8 * a.length) ∧
      ∀ j, j < 8 * a.length → (val r).testBit j = if j < k.toNat then true else (val a).testBit (j - k.toNat))

/-- R134, with the bit form of R130: bit j of the source becomes bit j-k, and bits W-k..W-1 are 0. -/
def Obligations.Rsh0FollowsItsRule : Prop :=
  ∀ (rd ra : Reg) (k : Half),
    UnaryRule (.rsh0 rd ra k) (formatI 0x12 (regNumber rd) (regNumber ra) k.toNat) rd ra (fun a r =>
      val r = val a / 2 ^ min k.toNat (8 * a.length) ∧
      ∀ j, j < 8 * a.length →
        (val r).testBit j = if j + k.toNat < 8 * a.length then (val a).testBit (j + k.toNat) else false)

/-- R135. -/
def Obligations.Rsh1FollowsItsRule : Prop :=
  ∀ (rd ra : Reg) (k : Half),
    UnaryRule (.rsh1 rd ra k) (formatI 0x13 (regNumber rd) (regNumber ra) k.toNat) rd ra (fun a r =>
      val r = val a / 2 ^ min k.toNat (8 * a.length) + 2 ^ (8 * a.length) -
        2 ^ (8 * a.length - min k.toNat (8 * a.length)) ∧
      ∀ j, j < 8 * a.length →
        (val r).testBit j = if j + k.toNat < 8 * a.length then (val a).testBit (j + k.toNat) else true)

/-- R161. -/
def Obligations.AddFollowsItsRule : Prop :=
  BinaryRule .add 0x20 (fun a b r => val r = (val a + val b) % 2 ^ (8 * a.length))

/-- R162. -/
def Obligations.SubFollowsItsRule : Prop :=
  BinaryRule .sub 0x21 (fun a b r =>
    val r = if val b ≤ val a then val a - val b else 2 ^ (8 * a.length) + val a - val b)

/-- R171. -/
def Obligations.MulFollowsItsRule : Prop :=
  BinaryRule .mul 0x22 (fun a b r => val r = val a * val b % 2 ^ (8 * a.length))

/-- R183. -/
def Obligations.DivFollowsItsRule : Prop := DivisionRule .div 0x24 (fun a b r => val r = val a / val b)

/-- R184. -/
def Obligations.ModFollowsItsRule : Prop :=
  DivisionRule .mod 0x25 (fun a b r => val r = val a % val b ∧ val r < val b)

/-- R191. -/
def Obligations.CmpFollowsItsRule : Prop :=
  ∀ (s : State) (ra rb : Reg),
    Spelled (.cmp ra rb) (formatR 0x30 0 (regNumber ra) (regNumber rb)) ∧
    (s.getReg ra = [] ∨ s.getReg rb = [] → Fails (.cmp ra rb) s 6#4) ∧
    (s.getReg ra ≠ [] → s.getReg rb ≠ [] → (s.getReg ra).length ≠ (s.getReg rb).length →
      Fails (.cmp ra rb) s 4#4) ∧
    (s.getReg ra ≠ [] → (s.getReg ra).length = (s.getReg rb).length →
      ∃ t, exec (.cmp ra rb) s = .next t ∧
        OnlyFlags s t
          (if val (s.getReg ra) < val (s.getReg rb) then 0b11#2
            else if val (s.getReg ra) = val (s.getReg rb) then 0b00#2 else 0b01#2) s.status.z)

/-- R192. -/
def Obligations.IsZeroFollowsItsRule : Prop :=
  ∀ (s : State) (ra : Reg),
    Spelled (.isZero ra) (formatR 0x31 0 (regNumber ra) 0) ∧
    (s.getReg ra = [] → Fails (.isZero ra) s 6#4) ∧
    (s.getReg ra ≠ [] → ∃ z t, exec (.isZero ra) s = .next t ∧ OnlyFlags s t s.status.cmp z ∧
      (z = true ↔ ∀ b ∈ s.getReg ra, b = 0#8) ∧ (z = true ↔ val (s.getReg ra) = 0))

/-- R201, with the strings of R202, R203 and R204. The character codes are those of R33, which the spec marks as general
knowledge (PRESUMED, log 14); SLEN holds the length in 16 bits (DEDUCED, log 11). -/
def Obligations.ToStrFollowsItsRule : Prop :=
  ∀ (s : State) (ra : Reg) (base : Half),
    Spelled (.toStr ra base) (formatI 0x40 0 (regNumber ra) base.toNat) ∧
    (¬ supportedBase base.toNat → Fails (.toStr ra base) s 2#4) ∧
    (supportedBase base.toNat → s.getReg ra = [] → Fails (.toStr ra base) s 6#4) ∧
    (supportedBase base.toNat → s.getReg ra ≠ [] →
      ∃ t cs, exec (.toStr ra base) s = .next t ∧ OnlyString s t cs ∧
        (base.toNat = 16 → HexNumeral (s.getReg ra) cs) ∧
        (base.toNat = 2 → BinaryNumeral (s.getReg ra) cs) ∧
        (base.toNat = 10 → DecimalNumeral (val (s.getReg ra)) cs))

/-- R206, with R209; a string too long for the width is reduced (R208). The digit alphabets are those of R207 in the
character codes of R33, which the spec marks as general knowledge (PRESUMED, log 14). -/
def Obligations.FromStrFollowsItsRule : Prop :=
  ∀ (s : State) (rd : Reg) (base : Half),
    Spelled (.fromStr rd base) (formatI 0x41 (regNumber rd) 0 base.toNat) ∧
    (¬ supportedBase base.toNat → Fails (.fromStr rd base) s 2#4) ∧
    (supportedBase base.toNat → badWidth s ∨ s.params.smax < s.slen.toNat → Fails (.fromStr rd base) s 6#4) ∧
    (supportedBase base.toNat → ¬ badWidth s → s.slen.toNat ≤ s.params.smax →
      ¬ IsNumeral base.toNat ((List.range s.slen.toNat).map s.charAt) → Fails (.fromStr rd base) s 1#4) ∧
    (supportedBase base.toNat → ¬ badWidth s → s.slen.toNat ≤ s.params.smax →
      IsNumeral base.toNat ((List.range s.slen.toNat).map s.charAt) →
      Writes (.fromStr rd base) s rd (fun r => r.length = s.width.toNat ∧
        val r = numeralValue base.toNat ((List.range s.slen.toNat).map s.charAt) % 2 ^ (8 * s.width.toNat)))

/-! ## All commands together -/

/-- R232: a CMD write, of any word, completes normally, and if it leaves an error in ERR then ERR is all it has
changed. -/
def Obligations.ErrorsChangeNothingElse : Prop :=
  ∀ (s : State) (rest : List Input) (w : Word), s.pending = .write s.params.base 4 w.toNat :: rest →
    ∃ t, step s = .next t ∧ t.answers = .done :: s.answers ∧
      (t.status.err ≠ 0#4 →
        t = { s with pending := rest, answers := .done :: s.answers,
                     status := { s.status with err := t.status.err } })

/-- R238: a CMD write, of any word, completes and reports the first error that applies in the fixed order, or none. The
InvalidFormat clause uses the digit alphabets of R207 in the character codes of R33, which the spec marks as general
knowledge (PRESUMED, log 14). -/
def Obligations.EveryCommandReportsItsFirstError : Prop :=
  ∀ (s : State) (rest : List Input) (w : Word), s.pending = .write s.params.base 4 w.toNat :: rest →
    ∃ t, step s = .next t ∧
      (legalByFields w = false → t.status.err = 5#4) ∧
      ∀ i, decode w = .ok i →
        (causesUnsupportedBase i → t.status.err = 2#4) ∧
        (¬ causesUnsupportedBase i → causesInvalidOperand i s → t.status.err = 6#4) ∧
        (¬ causesUnsupportedBase i → ¬ causesInvalidOperand i s → causesLengthMismatch i s →
          t.status.err = 4#4) ∧
        (¬ causesUnsupportedBase i → ¬ causesInvalidOperand i s → ¬ causesLengthMismatch i s →
          causesDivisionByZero i s → t.status.err = 3#4) ∧
        (¬ causesUnsupportedBase i → ¬ causesInvalidOperand i s → ¬ causesLengthMismatch i s →
          ¬ causesDivisionByZero i s → causesInvalidFormat i s → t.status.err = 1#4) ∧
        (¬ causesUnsupportedBase i → ¬ causesInvalidOperand i s → ¬ causesLengthMismatch i s →
          ¬ causesDivisionByZero i s → ¬ causesInvalidFormat i s → t.status.err = 0#4)

/-- Which command can leave which code (R239): UnsupportedBase only the conversions, LengthMismatch only the commands
with two operands, DivisionByZero only the divisions, InvalidFormat only FROMSTR, IllegalCommand none. -/
def Obligations.EachErrorHasItsCommands : Prop :=
  ∀ (i : Instr) (s t : State), exec i s = .next t →
    (t.status.err = 1#4 → isFromStr i = true) ∧
    (t.status.err = 2#4 → isFromStr i = true ∨ isToStr i = true) ∧
    (t.status.err = 3#4 → isDivision i = true) ∧
    (t.status.err = 4#4 → (sourcesOf i).length = 2) ∧
    t.status.err ≠ 5#4 ∧ t.status.err.toNat ≤ 6

/-- R25: only CMP writes STATUS.CMP, only ISZERO writes STATUS.Z, and a command that ends with an error leaves both. -/
def Obligations.FlagsAreWrittenByTheirCommandOnly : Prop :=
  ∀ (i : Instr) (s t : State), exec i s = .next t →
    (isCmp i = false → t.status.cmp = s.status.cmp) ∧ (isIsZero i = false → t.status.z = s.status.z) ∧
    (t.status.err ≠ 0#4 → t.status.cmp = s.status.cmp ∧ t.status.z = s.status.z)

/-- No command makes a register empty; a register stops being empty only as the destination of a command
(spec/10_state.md R22). -/
def Obligations.NoCommandEmptiesARegister : Prop :=
  ∀ (i : Instr) (s t : State) (r : Reg), exec i s = .next t →
    (s.getReg r ≠ [] → t.getReg r ≠ []) ∧
    (s.getReg r = [] → t.getReg r ≠ [] → destinationOf i = some r)

/-- R23: a length tag changes only at the destination of a command, to WIDTH for a creator, to the common length of the
sources otherwise, and not at all for SET; a host write other than of CMD changes no length tag. -/
def Obligations.LengthTagsChangeOnlyAtTheDestination : Prop :=
  (∀ (i : Instr) (s t : State), exec i s = .next t →
    (∀ r, destinationOf i ≠ some r → (t.getReg r).length = (s.getReg r).length) ∧
    (∀ r, destinationOf i = some r → t.status.err ≠ 0#4 → (t.getReg r).length = (s.getReg r).length) ∧
    (∀ r, destinationOf i = some r → t.status.err = 0#4 → isCreator i = true →
      (t.getReg r).length = s.width.toNat) ∧
    (∀ r, destinationOf i = some r → t.status.err = 0#4 → isCreator i = false →
      ∀ q ∈ sourcesOf i, (t.getReg r).length = (s.getReg q).length) ∧
    (∀ r, isSet i = true → (t.getReg r).length = (s.getReg r).length)) ∧
  ∀ (s t : State) (rest : List Input) (off n v : Nat), off ≠ 0 →
    s.pending = .write (s.params.base + off) n v :: rest → step s = .next t →
    ∀ r, (t.getReg r).length = (s.getReg r).length

/-- The frame of all commands: a register other than the destination is unchanged, WIDTH and the parameters are never
written, STATUS.CMP only by CMP, STATUS.Z only by ISZERO, S and SLEN only by TOSTR, and TOSTR leaves every character
beyond its string (spec/10_state.md R25, R27, R33, R38; spec/45_compare.md R190). -/
def Obligations.CommandsTouchOnlyWhatTheyName : Prop :=
  ∀ (i : Instr) (s t : State), exec i s = .next t →
    (∀ r, destinationOf i ≠ some r → t.getReg r = s.getReg r) ∧
    (isCmp i = false → t.status.cmp = s.status.cmp) ∧ (isIsZero i = false → t.status.z = s.status.z) ∧
    t.width = s.width ∧ t.params = s.params ∧ t.pending = s.pending ∧ t.answers = s.answers ∧
    t.resets = s.resets ∧
    (isToStr i = false → t.slen = s.slen ∧ ∀ k, t.charAt k = s.charAt k) ∧
    (s.Inv → ∀ k, t.slen.toNat ≤ k → t.charAt k = s.charAt k)

/-- R36: two states that agree on what a command names get the same error, and, where it succeeds, the same
destination, the same flag from CMP and ISZERO and the same string from TOSTR. -/
def Obligations.ResultsDependOnlyOnNamedOperands : Prop :=
  ∀ (i : Instr) (s u s' u' : State), SameOperands i s u → exec i s = .next s' → exec i u = .next u' →
    s'.status.err = u'.status.err ∧
    (s'.status.err = 0#4 →
      (∀ r, destinationOf i = some r → s'.getReg r = u'.getReg r) ∧
      (isCmp i = true → s'.status.cmp = u'.status.cmp) ∧
      (isIsZero i = true → s'.status.z = u'.status.z) ∧
      (isToStr i = true → s'.slen = u'.slen ∧ ∀ k, k < s'.slen.toNat → s'.charAt k = u'.charAt k))

/-! ## Laws between commands -/

/-- R114. -/
def Obligations.PrimitivesObeyTheirLaws : Prop :=
  ∀ (s : State) (a r q : Reg) (n : Half), s.Inv → s.getReg a ≠ [] → 1 ≤ n.toNat → n.toNat ≤ s.params.nmax →
    (∃ t u, exec (.resize r a) { s with width := n } = .next t ∧
      exec (.resize q r) { t with width := BitVec.ofNat 16 (s.getReg a).length } = .next u ∧
      (u.getReg q).length = (s.getReg a).length ∧
      ((s.getReg a).length ≤ n.toNat → u.getReg q = s.getReg a) ∧
      (n.toNat < (s.getReg a).length → val (u.getReg q) = val (s.getReg a) % 2 ^ (8 * n.toNat))) ∧
    (∃ t, execAll [.zero r, .isZero r] { s with width := n } = .next t ∧ val (t.getReg r) = 0 ∧
      t.status.z = true) ∧
    (∃ t, execAll [.max r, .isZero r] { s with width := n } = .next t ∧
      val (t.getReg r) = 2 ^ (8 * n.toNat) - 1 ∧ t.status.z = false) ∧
    SameResult [.zero r, .not q r] q [.max q] q { s with width := n } ∧
    SameResult [.max r, .not q r] q [.zero q] q { s with width := n }

/-- R140. -/
def Obligations.ShiftsObeyTheirLaws : Prop :=
  ∀ (s : State) (a r q : Reg) (j k : Half), s.getReg a ≠ [] →
    (∃ t, execAll [.lsh0 r a k, .rsh0 q r k] s = .next t ∧
      val (t.getReg q) = val (s.getReg a) %
        2 ^ (8 * (s.getReg a).length - min k.toNat (8 * (s.getReg a).length))) ∧
    (∃ t, execAll [.rsh0 r a k, .lsh0 q r k] s = .next t ∧
      val (t.getReg q) = val (s.getReg a) -
        val (s.getReg a) % 2 ^ min k.toNat (8 * (s.getReg a).length)) ∧
    (q ≠ r → SameResult [.lsh1 r a k] r [.lsh0 r a k, .xor q a a, .lsh1 q q k, .or r r q] r s) ∧
    (q ≠ r → SameResult [.rsh1 r a k] r [.rsh0 r a k, .xor q a a, .rsh1 q q k, .or r r q] r s) ∧
    (j.toNat + k.toNat ≤ 65535 →
      SameResult [.lsh0 r a j, .lsh0 r r k] r [.lsh0 r a (j + k)] r s ∧
      SameResult [.lsh1 r a j, .lsh1 r r k] r [.lsh1 r a (j + k)] r s ∧
      SameResult [.rsh0 r a j, .rsh0 r r k] r [.rsh0 r a (j + k)] r s ∧
      SameResult [.rsh1 r a j, .rsh1 r r k] r [.rsh1 r a (j + k)] r s) ∧
    SameResult [.lsh0 r a 1#16] r [.add r a a] r s

/-- R163, (a) to (e) in turn; the registers of c, ONE and ZERO are asked for only by the law that uses them. -/
def Obligations.AddAndSubObeyTheirLaws : Prop :=
  ∀ (s : State) (a b r q : Reg), s.getReg a ≠ [] → (s.getReg a).length = (s.getReg b).length →
    (r ≠ b → Yields [.sub r a b, .add r r b] s r (s.getReg a)) ∧
    (r ≠ b → Yields [.add r a b, .sub r r b] s r (s.getReg a)) ∧
    SameResult [.add r a b] r [.add r b a] r s ∧
    (∀ c, (s.getReg a).length = (s.getReg c).length → r ≠ a → r ≠ c →
      SameResult [.add r a b, .add r r c] r [.add r b c, .add r a r] r s) ∧
    (∀ one, (s.getReg a).length = (s.getReg one).length → val (s.getReg one) = 1 → r ≠ a → r ≠ one →
      SameResult [.sub q a b] q [.not r b, .add r r one, .add q a r] q s) ∧
    (∀ zero, (s.getReg a).length = (s.getReg zero).length → val (s.getReg zero) = 0 →
      Yields [.add r a zero] s r (s.getReg a))

/-- R172, (a) to (e) in turn; the registers of c, the power of two and ZERO are asked for only by the law that uses them.
(e) says that the product of a quotient and its divisor does not wrap. -/
def Obligations.MulObeysItsLaws : Prop :=
  ∀ (s : State) (a b r q : Reg), s.getReg a ≠ [] → (s.getReg a).length = (s.getReg b).length →
    SameResult [.mul r a b] r [.mul r b a] r s ∧
    (∀ c, (s.getReg a).length = (s.getReg c).length → r ≠ a → r ≠ c →
      SameResult [.mul r a b, .mul r r c] r [.mul r b c, .mul r a r] r s) ∧
    (∀ c, (s.getReg a).length = (s.getReg c).length → r ≠ a → q ≠ a → q ≠ c → q ≠ r →
      SameResult [.add r b c, .mul r a r] r [.mul q a b, .mul r a c, .add r q r] r s ∧
      SameResult [.sub r b c, .mul r a r] r [.mul q a b, .mul r a c, .sub r q r] r s) ∧
    (∀ (power : Reg) (k : Half), (s.getReg a).length = (s.getReg power).length →
      val (s.getReg power) = 2 ^ k.toNat → SameResult [.mul r a power] r [.lsh0 r a k] r s) ∧
    (∀ zero, (s.getReg a).length = (s.getReg zero).length → val (s.getReg zero) = 0 →
      Yields [.mul r a zero] s r (s.getReg zero)) ∧
    (val (s.getReg b) ≠ 0 → q ≠ b →
      ∃ t u, exec (.div q a b) s = .next t ∧ exec (.mul r q b) t = .next u ∧ u.status.err = 0#4 ∧
        val (u.getReg r) = val (t.getReg q) * val (s.getReg b))

/-- R185: with Q the result of DIV and R the result of MOD, `ADD(MUL(Q, B), R)` equals A exactly and `CMP(R, B)` is
negative, for every dividend and every nonzero divisor of one length. -/
def Obligations.DivisionIdentityHoldsExactly : Prop :=
  ∀ (s : State) (a b q r p : Reg), [a, b, q, r, p].Nodup → s.getReg a ≠ [] →
    (s.getReg a).length = (s.getReg b).length → val (s.getReg b) ≠ 0 →
    ∃ t, execAll [.div q a b, .mod r a b, .mul p q b, .add p p r, .cmp r b] s = .next t ∧
      t.getReg p = s.getReg a ∧ t.status.cmp = 0b11#2 ∧ t.status.err = 0#4

/-- R193, (a) to (g) in turn; the registers of c and ZERO are asked for only by the law that uses them. -/
def Obligations.CompareIsATotalOrder : Prop :=
  ∀ (s : State) (a b r : Reg), s.getReg a ≠ [] → (s.getReg a).length = (s.getReg b).length →
    let gives := fun (p q : Reg) (code : BitVec 2) =>
      ∃ t, exec (.cmp p q) s = .next t ∧ t.status.err = 0#4 ∧ t.status.cmp = code
    let isZeroGives := fun (is : List Instr) (z : Bool) =>
      ∃ t, execAll is s = .next t ∧ t.status.err = 0#4 ∧ t.status.z = z
    gives a a 0b00#2 ∧ (gives a b 0b00#2 ↔ s.getReg a = s.getReg b) ∧
    (gives a b 0b11#2 ↔ gives b a 0b01#2) ∧
    (∀ c, (s.getReg a).length = (s.getReg c).length →
      gives a b 0b11#2 → gives b c 0b11#2 → gives a c 0b11#2) ∧
    (gives a b 0b11#2 ↔ val (s.getReg a) < val (s.getReg b)) ∧
    (∀ zero, (s.getReg a).length = (s.getReg zero).length → val (s.getReg zero) = 0 →
      (isZeroGives [.isZero a] true ↔ gives a zero 0b00#2)) ∧
    (gives a b 0b00#2 ↔ isZeroGives [.xor r a b, .isZero r] true) ∧
    (gives a b 0b00#2 ↔ isZeroGives [.sub r a b, .isZero r] true)

/-- TOSTR then FROMSTR at the same width gives every buffer back, in every base (R210 (a)). -/
def Obligations.BufferToStringAndBack : Prop :=
  ∀ (s : State) (a r : Reg) (base : Half), s.Inv → s.getReg a ≠ [] →
    s.width.toNat = (s.getReg a).length → supportedBase base.toNat →
    Yields [.toStr a base, .fromStr r base] s r (s.getReg a)

/-- FROMSTR then TOSTR in base 10 gives the string without its leading zeros, "0" if all were zeros (R210 (b)). The
character codes are those of R33, which the spec marks as general knowledge (PRESUMED, log 14). -/
def Obligations.DecimalStringToBufferAndBack : Prop :=
  ∀ (s : State) (r : Reg), s.Inv → ¬ badWidth s → s.slen.toNat ≤ s.params.smax →
    let cs := (List.range s.slen.toNat).map s.charAt
    IsNumeral 10 cs → numeralValue 10 cs < 2 ^ (8 * s.width.toNat) →
    ∃ t, execAll [.fromStr r 10#16, .toStr r 10#16] s = .next t ∧ t.status.err = 0#4 ∧
      (List.range t.slen.toNat).map t.charAt =
        if cs.dropWhile (· == 0x30#8) = [] then [0x30#8] else cs.dropWhile (· == 0x30#8)

/-- FROMSTR then TOSTR in base 16 or 2 gives the string in upper case, padded with '0' or stripped of leading '0' to
2N or 8N characters (R210 (c), (d)). The character codes are those of R33, which the spec marks as general knowledge
(PRESUMED, log 14). -/
def Obligations.HexAndBinaryStringsToBufferAndBack : Prop :=
  ∀ (s : State) (r : Reg), s.Inv → ¬ badWidth s → s.slen.toNat ≤ s.params.smax →
    let cs := (List.range s.slen.toNat).map s.charAt
    let upper := fun c : Byte => if 0x61 ≤ c.toNat ∧ c.toNat ≤ 0x66 then c - 0x20#8 else c
    let fitted := fun n : Nat => (List.replicate n 0x30#8 ++ cs.map upper).drop cs.length
    (IsNumeral 16 cs → numeralValue 16 cs < 2 ^ (8 * s.width.toNat) →
      ∃ t, execAll [.fromStr r 16#16, .toStr r 16#16] s = .next t ∧ t.status.err = 0#4 ∧
        (List.range t.slen.toNat).map t.charAt = fitted (2 * s.width.toNat)) ∧
    (IsNumeral 2 cs → numeralValue 2 cs < 2 ^ (8 * s.width.toNat) →
      ∃ t, execAll [.fromStr r 2#16, .toStr r 2#16] s = .next t ∧ t.status.err = 0#4 ∧
        (List.range t.slen.toNat).map t.charAt = fitted (8 * s.width.toNat))

/-- R205: the lengths of TOSTR's strings, which always fit the string buffer. `10 ^ (L - 1) < 2 ^ (8N)` is
`L <= ceil(8N * log10(2))`. -/
def Obligations.StringsOfBuffersFit : Prop :=
  ∀ (s t : State) (a : Reg) (base : Half), s.Inv → s.getReg a ≠ [] → supportedBase base.toNat →
    exec (.toStr a base) s = .next t →
    let n := (s.getReg a).length
    t.slen.toNat ≤ s.params.smax ∧ t.slen.toNat ≤ 8 * n ∧
    (base.toNat = 16 → t.slen.toNat = 2 * n) ∧ (base.toNat = 2 → t.slen.toNat = 8 * n) ∧
    (base.toNat = 10 → 1 ≤ t.slen.toNat ∧ 10 ^ (t.slen.toNat - 1) < 2 ^ (8 * n) ∧ t.slen.toNat ≤ 3 * n ∧
      (n = 16 → t.slen.toNat ≤ 39) ∧
      (n = 32 → t.slen.toNat ≤ 78) ∧ (n = 64 → t.slen.toNat ≤ 155))

/-! ## Reset, initialisation and the invariant -/

/-- R37, R260: a hardware reset, from any state, leaves every register empty, BLENi, WIDTH, SLEN and STATUS 0, and CAP as
it was. That no character of S is written, so that each reads as a free value, is how the model says that they are
unspecified (DESIGN CHOICE, logs 2 and 12); that a reset is an input served in one step is log 9 (DEDUCED). -/
def Obligations.HardwareResetLeavesTheResetState : Prop :=
  ∀ (s : State) (rest : List Input), s.pending = .reset :: rest →
    ∃ t, step s = .next t ∧ (∀ r, t.getReg r = []) ∧ t.width = 0#16 ∧ t.slen = 0#16 ∧
      t.status.err = 0#4 ∧ t.status.cmp = 0b00#2 ∧ t.status.z = false ∧ statusWord t.status = 0#32 ∧
      (∀ r, blenWord t r = 0#32) ∧ (∀ k, t.str.read k = none) ∧ t.params = s.params ∧
      capWord t.params = capWord s.params

/-- R264: after reset, for every choice of the parameters, every command ends with InvalidOperand, or with
UnsupportedBase by priority, until a width is declared. With a legal width declared, and whatever string the host wrote,
only ZERO, MAX and FROMSTR can succeed, RESIZE still lacking a source: ZERO and MAX always do, FROMSTR on a numeral of its
base. The digits are those of R207 in the character codes of R33, which the spec marks as general knowledge (PRESUMED,
log 14); the string is written as the model holds it (log 12). -/
def Obligations.AfterResetOnlyCreatorsCanSucceed : Prop :=
  ∀ (p : Params) (i : Instr), p.wellFormed = true →
    (∃ t, exec i (State.resetWith p) = .next t ∧
      ((causesUnsupportedBase i ∧ OnlyErr (State.resetWith p) t 2#4) ∨
        (¬ causesUnsupportedBase i ∧ OnlyErr (State.resetWith p) t 6#4))) ∧
    ∀ (n len : Half) (chars : Memory), 1 ≤ n.toNat → n.toNat ≤ p.nmax →
      let s : State := { State.resetWith p with width := n, slen := len, str := chars }
      ∃ t, exec i s = .next t ∧
        (t.status.err = 0#4 → ∃ r, i = .zero r ∨ i = .max r ∨ ∃ base, i = .fromStr r base) ∧
        (∀ rd ra, i = .resize rd ra → OnlyErr s t 6#4) ∧
        (∀ r, i = .zero r ∨ i = .max r → t.status.err = 0#4 ∧ (t.getReg r).length = n.toNat) ∧
        (∀ r base, i = .fromStr r base → supportedBase base.toNat → len.toNat ≤ p.smax →
          IsNumeral base.toNat ((List.range len.toNat).map s.charAt) →
          t.status.err = 0#4 ∧ (t.getReg r).length = n.toNat)

/-- R265: writing N to WIDTH, ZERO xi, then the N bytes through the buffer window, loads the register with exactly
those bytes and leaves every other register. -/
def Obligations.LoadSequenceLoadsTheRegister : Prop :=
  ∀ (s : State) (rest : List Input) (r : Reg) (bs : Buffer), s.Inv → bs ≠ [] → bs.length ≤ s.params.nmax →
    s.pending =
      .write (s.params.base + 0x8) 4 bs.length :: .write s.params.base 4 (encode (.zero r)).toNat ::
        ((List.range bs.length).map (fun j =>
          .write (s.params.base + (0x10000 + 0x2000 * regNumber r + j)) 1 (bs.getD j 0#8).toNat) ++ rest) →
    ∃ t, Host.Core.run Sys2Proof.core (bs.length + 2) s = .next t ∧ t.getReg r = bs ∧
      (∀ q, q ≠ r → t.getReg q = s.getReg q) ∧ t.pending = rest ∧ t.status.err = 0#4

/-- The storage of S is stable: a character that no step has written since reset keeps its value, whatever it is
(R261). The value itself is the free value of log 2. -/
def Obligations.UnwrittenCharactersAreStable : Prop :=
  ∀ (s t : State) (k : Nat), step s = .next t → t.resets = s.resets → t.str.read k = none →
    t.charAt k = s.charAt k

/-- No step changes the parameters, so CAP reads the same for ever (spec/10_state.md R30). -/
def Obligations.NoStepChangesTheParameters : Prop :=
  ∀ s t : State, step s = .next t → t.params = s.params ∧ capWord t.params = capWord s.params

/-- Every step keeps the invariant: buffers within NMAX, the string buffer in canonical form and below SMAX, STATUS
legal (spec/10_state.md R21, R29, R33). -/
def Obligations.EveryStepKeepsTheInvariant : Prop :=
  ∀ s t : State, s.Inv → Sys2Proof.Machine.step s = .next t → t.Inv

/-- The reset state meets the invariant, for every choice of the parameters, and so does State.reset (R37). -/
def Obligations.ResetMeetsTheInvariant : Prop :=
  (∀ p : Params, p.wellFormed = true → (State.resetWith p).Inv) ∧ State.reset.Inv
end

