-- ==== Sys2Proof/Laws/Buffer.lean ====
section
/-!
SUPPORT. Buffers as numbers: `val` and `bufOf` are inverse (spec/00_scope.md R9), and the small lemmas of the buffer
operations.
-/

namespace Sys2Proof.Laws
open Sys2Proof.Machine

/-- The modulus of an N-byte buffer in the two spellings used here. -/
theorem two_pow_eight_mul (n : Nat) : 2 ^ (8 * n) = 256 ^ n := by
  rw [pow_mul]; norm_num

theorem pow_succ_256 (n : Nat) : 256 ^ (n + 1) = 256 * 256 ^ n := by rw [pow_succ, Nat.mul_comm]

theorem byte_lt (b : Byte) : b.toNat < 256 := b.isLt

@[simp] theorem val_nil : val [] = 0 := rfl
@[simp] theorem val_cons (b : Byte) (bs : Buffer) : val (b :: bs) = b.toNat + 256 * val bs := rfl

theorem val_lt (a : Buffer) : val a < 256 ^ a.length := by
  induction a with
  | nil => simp
  | cons b bs ih =>
    have := byte_lt b
    simp only [val_cons, List.length_cons, pow_succ_256]
    omega

theorem val_append (a b : Buffer) : val (a ++ b) = val a + 256 ^ a.length * val b := by
  induction a with
  | nil => simp
  | cons x a ih =>
    simp only [List.cons_append, val_cons, ih, List.length_cons, pow_succ_256]
    ring

@[simp] theorem length_bufOf (n v : Nat) : (bufOf n v).length = n := by
  induction n generalizing v with
  | zero => rfl
  | succ n ih => simp [bufOf, ih]

theorem ofNat_toNat (v : Nat) : (BitVec.ofNat 8 v).toNat = v % 256 := by simp [BitVec.toNat_ofNat]

/-- `val (buf_N(v)) = v mod 2^(8N)` (R9). -/
theorem val_bufOf (n v : Nat) : val (bufOf n v) = v % 256 ^ n := by
  induction n generalizing v with
  | zero => simp [bufOf, Nat.mod_one]
  | succ n ih => rw [bufOf, val_cons, ih, ofNat_toNat, pow_succ_256, Nat.mod_mul]

/-- `buf_N(val(B)) = B` (R9). -/
theorem bufOf_val (a : Buffer) : bufOf a.length (val a) = a := by
  induction a with
  | nil => rfl
  | cons b bs ih =>
    have h := byte_lt b
    have h1 : (b.toNat + 256 * val bs) / 256 = val bs := by omega
    have h2 : BitVec.ofNat 8 (b.toNat + 256 * val bs) = b := by
      apply BitVec.eq_of_toNat_eq
      rw [ofNat_toNat]
      omega
    rw [List.length_cons, bufOf, val_cons, h1, h2, ih]

/-- Two buffers of one length with one value are equal byte for byte. -/
theorem val_injective {a b : Buffer} (hl : a.length = b.length) (hv : val a = val b) : a = b := by
  rw [← bufOf_val a, ← bufOf_val b, hl, hv]

theorem val_replicate_zero (n : Nat) : val (List.replicate n 0x00#8) = 0 := by
  induction n with
  | zero => rfl
  | succ n ih => simp [List.replicate_succ, ih]

theorem val_replicate_max (n : Nat) : val (List.replicate n 0xFF#8) = 256 ^ n - 1 := by
  induction n with
  | zero => rfl
  | succ n ih =>
    have h : 0 < 256 ^ n := by positivity
    have h2 : (0xFF#8).toNat = 255 := rfl
    rw [List.replicate_succ, val_cons, ih, pow_succ_256, h2]
    omega

theorem val_take (a : Buffer) (n : Nat) (h : n ≤ a.length) : val (a.take n) = val a % 256 ^ n := by
  have h1 : val a = val (a.take n) + 256 ^ n * val (a.drop n) := by
    conv_lhs => rw [← List.take_append_drop n a]
    rw [val_append, List.length_take, Nat.min_eq_left h]
  have h2 := val_lt (a.take n)
  rw [List.length_take, Nat.min_eq_left h] at h2
  rw [h1, Nat.add_mul_mod_self_left, Nat.mod_eq_of_lt h2]

/-- The zero test is a test of the value (spec/45_compare.md R192). -/
theorem allZero_iff (a : Buffer) : allZero a = true ↔ val a = 0 := by
  induction a with
  | nil => simp [allZero]
  | cons b bs ih =>
    have h : (b == 0#8) = true ↔ b.toNat = 0 := by
      rw [beq_iff_eq]
      constructor
      · rintro rfl; rfl
      · intro h; exact BitVec.eq_of_toNat_eq (by simpa using h)
    simp only [allZero, List.all_cons, Bool.and_eq_true, val_cons] at ih ⊢
    rw [ih, h]
    omega

theorem div_pow_256 (v i : Nat) : v / 256 ^ (i + 1) = v / 256 / 256 ^ i := by
  rw [pow_succ_256, Nat.div_div_eq_div_mul]

/-- Byte i of a buffer, as a digit of its value. -/
theorem getD_toNat (a : Buffer) (i : Nat) : (a.getD i 0#8).toNat = val a / 256 ^ i % 256 := by
  induction a generalizing i with
  | nil => simp
  | cons b bs ih =>
    have h := byte_lt b
    cases i with
    | zero => simp [Nat.mod_eq_of_lt h]
    | succ i =>
      have h1 : (b.toNat + 256 * val bs) / 256 = val bs := by omega
      rw [val_cons, div_pow_256, h1, ← ih]
      simp

/-- Bit k of a buffer is bit k of its value (R9). -/
theorem bufferBit_eq (a : Buffer) (k : Nat) : bufferBit a k = val a / 2 ^ k % 2 := by
  have hk : k % 8 < 8 := Nat.mod_lt _ (by norm_num)
  have hp : 2 ^ k = 256 ^ (k / 8) * 2 ^ (k % 8) := by
    rw [← two_pow_eight_mul, ← pow_add, Nat.div_add_mod]
  rw [bufferBit, getD_toNat, Nat.shiftRight_eq_div_pow, hp, ← Nat.div_div_eq_div_mul]
  generalize val a / 256 ^ (k / 8) = x
  have h8 : (256 : Nat) = 2 ^ (k % 8) * 2 ^ (8 - k % 8) := by
    rw [← pow_add, Nat.add_sub_cancel' hk.le]; norm_num
  rw [h8, Nat.mod_mul_right_div_self]
  exact Nat.mod_mod_of_dvd _ (dvd_pow_self 2 (by omega))

theorem val_set (a : Buffer) (i : Nat) (v : Byte) (h : i < a.length) :
    val (a.set i v) + 256 ^ i * (a.getD i 0#8).toNat = val a + 256 ^ i * v.toNat := by
  induction a generalizing i with
  | nil => simp at h
  | cons b bs ih =>
    cases i with
    | zero => simp; omega
    | succ i =>
      have := ih i (by simpa using h)
      simp only [List.set_cons_succ, val_cons, List.getD_cons_succ, pow_succ_256]
      linear_combination 256 * this

theorem or_bit (x : Byte) (j : Nat) (hj : j < 8) (h : x.toNat / 2 ^ j % 2 = 0) :
    (x ||| 1#8 <<< j).toNat = x.toNat + 2 ^ j := by
  have key : ∀ j : Fin 8, ∀ x : BitVec 8, x.toNat / 2 ^ j.val % 2 = 0 →
      (x ||| 1#8 <<< j.val).toNat = x.toNat + 2 ^ j.val := by decide
  exact key ⟨j, hj⟩ x h

@[simp] theorem length_setBufferBit (a : Buffer) (k : Nat) : (setBufferBit a k).length = a.length := by
  simp [setBufferBit]

/-- Setting a clear bit adds its weight (spec/44_divide.md R183). -/
theorem val_setBufferBit (a : Buffer) (k : Nat) (hk : k < 8 * a.length) (h0 : val a / 2 ^ k % 2 = 0) :
    val (setBufferBit a k) = val a + 2 ^ k := by
  have hi : k / 8 < a.length := by omega
  have hj : k % 8 < 8 := Nat.mod_lt _ (by norm_num)
  have hp : 2 ^ k = 256 ^ (k / 8) * 2 ^ (k % 8) := by
    rw [← two_pow_eight_mul, ← pow_add, Nat.div_add_mod]
  have hb : (a.getD (k / 8) 0#8).toNat / 2 ^ (k % 8) % 2 = 0 := by
    have := bufferBit_eq a k
    rwa [bufferBit, Nat.shiftRight_eq_div_pow, h0] at this
  have h1 := val_set a (k / 8) (a.getD (k / 8) 0#8 ||| 1#8 <<< (k % 8)) hi
  rw [or_bit _ _ hj hb, Nat.mul_add, ← hp] at h1
  rw [setBufferBit]
  omega

end Sys2Proof.Laws
end

