-- ==== Sys2Proof/Laws/Arith.lean ====
section
/-!
SUPPORT. What each arithmetic operation computes, in values: the value laws of spec/42_add_sub.md, spec/43_multiply.md
and spec/44_divide.md for the byte and bit algorithms of the model.
-/

namespace Sys2Proof.Laws
open Sys2Proof.Machine

@[simp] theorem length_addCarry (c : Nat) (a b : Buffer) (h : a.length = b.length) :
    (addCarry c a b).length = a.length := by
  induction a generalizing b c with
  | nil => simp [addCarry]
  | cons x a ih =>
    cases b with
    | nil => simp at h
    | cons y b => simp [addCarry, ih _ b (by simpa using h)]

theorem val_addCarry (c : Nat) (a b : Buffer) (h : a.length = b.length) :
    val (addCarry c a b) = (val a + val b + c) % 256 ^ a.length := by
  induction a generalizing b c with
  | nil => simp [addCarry, Nat.mod_one]
  | cons x a ih =>
    cases b with
    | nil => simp at h
    | cons y b =>
      rw [addCarry, val_cons, ih _ b (by simpa using h), ofNat_toNat, List.length_cons, pow_succ_256,
        Nat.mod_mul, val_cons, val_cons]
      congr 1
      · omega
      · congr 2; omega

theorem length_addBuffer (a b : Buffer) (h : a.length = b.length) : (addBuffer a b).length = a.length :=
  length_addCarry 0 a b h

/-- ADD in values: `(a + b) mod 2^(8N)` (R161). -/
theorem val_addBuffer (a b : Buffer) (h : a.length = b.length) :
    val (addBuffer a b) = (val a + val b) % 256 ^ a.length := val_addCarry 0 a b h

theorem length_subBorrow (c : Nat) (a b : Buffer) (h : a.length = b.length) :
    (subBorrow c a b).length = a.length := by
  induction a generalizing b c with
  | nil => simp [subBorrow]
  | cons x a ih =>
    cases b with
    | nil => simp at h
    | cons y b =>
      simp only [subBorrow]
      split <;> simp [ih _ b (by simpa using h)]

/-- The borrow chain, as an equation without subtraction. -/
theorem val_subBorrow (c : Nat) (hc : c ≤ 1) (a b : Buffer) (h : a.length = b.length) :
    (val (subBorrow c a b) + val b + c) % 256 ^ a.length = val a % 256 ^ a.length := by
  induction a generalizing b c with
  | nil => simp [Nat.mod_one]
  | cons x a ih =>
    cases b with
    | nil => simp at h
    | cons y b =>
      have hx := byte_lt x
      have hy := byte_lt y
      have hl : a.length = b.length := by simpa using h
      simp only [subBorrow]
      split
      · rename_i hd
        have hr : ((x.toNat - y.toNat - c : Int) + 256).toNat = x.toNat + 256 - y.toNat - c := by omega
        have hi := ih 1 le_rfl b hl
        rw [val_cons, hr, ofNat_toNat, List.length_cons, pow_succ_256, val_cons, val_cons,
          Nat.mod_mul, Nat.mod_mul]
        have e1 : ((x.toNat + 256 - y.toNat - c) % 256 + 256 * val (subBorrow 1 a b) +
            (y.toNat + 256 * val b) + c) % 256 = (x.toNat + 256 * val a) % 256 := by omega
        have e2 : ((x.toNat + 256 - y.toNat - c) % 256 + 256 * val (subBorrow 1 a b) +
            (y.toNat + 256 * val b) + c) / 256 = val (subBorrow 1 a b) + val b + 1 := by omega
        have e3 : (x.toNat + 256 * val a) / 256 = val a := by omega
        rw [e1, e2, e3, hi]
      · rename_i hd
        have hr : ((x.toNat - y.toNat - c : Int)).toNat = x.toNat - y.toNat - c := by omega
        have hi := ih 0 (by omega) b hl
        rw [val_cons, hr, ofNat_toNat, List.length_cons, pow_succ_256, val_cons, val_cons,
          Nat.mod_mul, Nat.mod_mul]
        have e1 : ((x.toNat - y.toNat - c) % 256 + 256 * val (subBorrow 0 a b) +
            (y.toNat + 256 * val b) + c) % 256 = (x.toNat + 256 * val a) % 256 := by omega
        have e2 : ((x.toNat - y.toNat - c) % 256 + 256 * val (subBorrow 0 a b) +
            (y.toNat + 256 * val b) + c) / 256 = val (subBorrow 0 a b) + val b + 0 := by omega
        have e3 : (x.toNat + 256 * val a) / 256 = val a := by omega
        rw [e1, e2, e3, hi]

theorem length_subBuffer (a b : Buffer) (h : a.length = b.length) : (subBuffer a b).length = a.length :=
  length_subBorrow 0 a b h

/-- SUB in values: `2^(8N) + a - b mod 2^(8N)` (R162). -/
theorem val_subBuffer (a b : Buffer) (h : a.length = b.length) :
    val (subBuffer a b) = (256 ^ a.length + val a - val b) % 256 ^ a.length := by
  have h1 := val_subBorrow 0 (by omega) a b h
  have ha := val_lt a
  have hb := val_lt b
  have hr := val_lt (subBuffer a b)
  rw [length_subBuffer a b h] at hr
  rw [← h] at hb
  change (val (subBuffer a b) + val b + 0) % _ = _ at h1
  rw [Nat.add_zero, Nat.mod_eq_of_lt ha] at h1
  generalize 256 ^ a.length = m at *
  by_cases hs : val (subBuffer a b) + val b < m
  · rw [Nat.mod_eq_of_lt hs] at h1
    have : m + val a - val b = val (subBuffer a b) + m := by omega
    rw [this, Nat.add_mod_right, Nat.mod_eq_of_lt hr]
  · rw [Nat.mod_eq_sub_mod (by omega), Nat.mod_eq_of_lt (by omega)] at h1
    have : m + val a - val b = val (subBuffer a b) := by omega
    rw [this, Nat.mod_eq_of_lt hr]

/-- One row of the multiplier (R171): the scratch bytes from P[i] to P[i+N-1] and the byte P[i+N], which is still 0,
become the sum with `a * val B` and the carry; the bytes above stay. -/
theorem mulRow_spec (a : Byte) (c : Nat) (hc : c ≤ 255) (b p ps : Buffer) (h : p.length = b.length) :
    ∃ q : Buffer, mulRow a c b (p ++ 0#8 :: ps) = q ++ ps ∧ q.length = b.length + 1 ∧
      val q = val p + a.toNat * val b + c := by
  have ha := byte_lt a
  induction b generalizing p c with
  | nil =>
    have hp : p = [] := by simpa using h
    subst hp
    refine ⟨[BitVec.ofNat 8 c], by simp [mulRow], by simp, ?_⟩
    simp only [val_cons, val_nil, ofNat_toNat]
    omega
  | cons y b ih =>
    cases p with
    | nil => simp at h
    | cons x p =>
      have hx := byte_lt x
      have hy := byte_lt y
      have hm : a.toNat * y.toNat ≤ 255 * 255 := Nat.mul_le_mul (by omega) (by omega)
      obtain ⟨q, hq, hl, hv⟩ := ih ((x.toNat + a.toNat * y.toNat + c) / 256) (by omega) p (by simpa using h)
      refine ⟨BitVec.ofNat 8 (x.toNat + a.toNat * y.toNat + c) :: q, ?_, by simp [hl], ?_⟩
      · rw [List.cons_append, mulRow, hq, List.cons_append]
      · rw [val_cons, hv, ofNat_toNat, val_cons, val_cons]
        have := Nat.div_add_mod (x.toNat + a.toNat * y.toNat + c) 256
        linear_combination this

/-- The rows of the multiplier leave the exact product, on top of what the lower half held, in the scratch buffer. -/
theorem mulRows_spec (b a p : Buffer) (h : p.length = b.length) :
    (mulRows b a (p ++ List.replicate a.length 0#8)).length = a.length + b.length ∧
      val (mulRows b a (p ++ List.replicate a.length 0#8)) = val p + val a * val b := by
  induction a generalizing p with
  | nil => simp [mulRows, h]
  | cons x a ih =>
    obtain ⟨q, hq, hl, hv⟩ := mulRow_spec x 0 (by omega) b p (List.replicate a.length 0#8) h
    cases q with
    | nil => simp at hl
    | cons q0 q =>
      have hi := ih q (by simpa using hl)
      rw [List.length_cons, List.replicate_succ, mulRows, hq]
      simp only [List.cons_append, List.length_cons, val_cons] at hv ⊢
      refine ⟨by omega, ?_⟩
      rw [hi.2]
      linear_combination hv

theorem mulBuffer_spec (a b : Buffer) (h : a.length = b.length) :
    (mulBuffer a b).length = a.length ∧ val (mulBuffer a b) = val a * val b % 256 ^ a.length := by
  have hs := mulRows_spec b a (List.replicate a.length 0#8) (by simp [h])
  rw [← List.replicate_add, ← two_mul, val_replicate_zero, Nat.zero_add] at hs
  have hle : a.length ≤ (mulRows b a (List.replicate (2 * a.length) 0#8)).length := by omega
  exact ⟨by rw [mulBuffer, List.length_take]; omega, by rw [mulBuffer, val_take _ _ hle, hs.2]⟩

theorem length_mulBuffer (a b : Buffer) (h : a.length = b.length) : (mulBuffer a b).length = a.length :=
  (mulBuffer_spec a b h).1

/-- MUL in values: `(a * b) mod 2^(8N)` (R171). -/
theorem val_mulBuffer (a b : Buffer) (h : a.length = b.length) :
    val (mulBuffer a b) = val a * val b % 256 ^ a.length := (mulBuffer_spec a b h).2

/-- The divider's loop (R183): with `k` bits of the dividend to go it divides what the running remainder and those
bits stand for. -/
theorem divideLoop_spec (a : Buffer) (b : Nat) (hb : 0 < b) (k rem : Nat) (q : Buffer)
    (hk : k ≤ 8 * q.length) (hr : rem < b) (hq : val q % 2 ^ k = 0) :
    (divideLoop a b k rem q).1 = (2 ^ k * rem + val a % 2 ^ k) % b ∧
      (divideLoop a b k rem q).2.length = q.length ∧
      val (divideLoop a b k rem q).2 = val q + (2 ^ k * rem + val a % 2 ^ k) / b := by
  induction k generalizing rem q with
  | zero => simp [divideLoop, Nat.mod_one, Nat.mod_eq_of_lt hr, Nat.div_eq_of_lt hr]
  | succ k ih =>
    have hbit : val a % 2 ^ (k + 1) = 2 ^ k * bufferBit a k + val a % 2 ^ k := by
      rw [bufferBit_eq, pow_succ, Nat.mod_mul]; ring
    have hD : 2 ^ (k + 1) * rem + val a % 2 ^ (k + 1) =
        2 ^ k * (2 * rem + bufferBit a k) + val a % 2 ^ k := by rw [hbit]; ring
    have hq0 : val q % 2 ^ k = 0 := by
      have := Nat.mod_mod_of_dvd (val q) (pow_dvd_pow 2 (Nat.le_succ k))
      rw [hq] at this
      simpa using this.symm
    have hqb : val q / 2 ^ k % 2 = 0 := by
      rw [pow_succ, Nat.mod_mul] at hq
      have h2 : 0 < 2 ^ k := by positivity
      rcases Nat.eq_zero_or_pos (val q / 2 ^ k % 2) with h | h
      · exact h
      · have := Nat.mul_pos h2 h; omega
    have hbl : bufferBit a k < 2 := by rw [bufferBit_eq]; exact Nat.mod_lt _ (by norm_num)
    rw [hD, divideLoop]
    split
    · rename_i hle
      have hv := val_setBufferBit q k (by omega) hqb
      obtain ⟨h1, h2, h3⟩ := ih (2 * rem + bufferBit a k - b) (setBufferBit q k)
        (by rw [length_setBufferBit]; omega) (by omega) (by rw [hv, Nat.add_mod_right, hq0])
      have hsplit : 2 ^ k * (2 * rem + bufferBit a k) + val a % 2 ^ k =
          2 ^ k * (2 * rem + bufferBit a k - b) + val a % 2 ^ k + b * 2 ^ k := by
        have : 2 * rem + bufferBit a k = (2 * rem + bufferBit a k - b) + b := by omega
        conv_lhs => rw [this]
        ring
      refine ⟨?_, by rw [h2, length_setBufferBit], ?_⟩
      · rw [h1, hsplit, Nat.add_mul_mod_self_left]
      · rw [h3, hv, hsplit, Nat.add_mul_div_left _ _ hb]; ring
    · rename_i hlt
      exact ih (2 * rem + bufferBit a k) q (by omega) (by omega) hq0

theorem divide_spec (a b : Buffer) (hb : val b ≠ 0) :
    (divide a b).1 = val a % val b ∧ (divide a b).2.length = a.length ∧
      val (divide a b).2 = val a / val b := by
  have hp : 0 < val b := Nat.pos_of_ne_zero hb
  have h := divideLoop_spec a (val b) hp (8 * a.length) 0 (List.replicate a.length 0#8) (by simp) hp
    (by simp [val_replicate_zero])
  have ha : val a % 2 ^ (8 * a.length) = val a := by
    rw [two_pow_eight_mul]; exact Nat.mod_eq_of_lt (val_lt a)
  rw [val_replicate_zero, ha, Nat.mul_zero, Nat.zero_add, Nat.zero_add, List.length_replicate] at h
  exact h

/-- DIV and MOD in values: the floor quotient and the remainder (R181, R183, R184). -/
theorem divide_values (a b : Buffer) (hb : val b ≠ 0) (h : a.length = b.length) :
    val (divide a b).2 = val a / val b ∧ val (bufOf a.length (divide a b).1) = val a % val b := by
  refine ⟨(divide_spec a b hb).2.2, ?_⟩
  rw [val_bufOf, (divide_spec a b hb).1]
  have h1 := Nat.mod_lt (val a) (Nat.pos_of_ne_zero hb)
  have h2 := val_lt b
  rw [← h] at h2
  exact Nat.mod_eq_of_lt (lt_trans h1 h2)

end Sys2Proof.Laws
end

