-- ==== Sys2Proof/Laws/State.lean ====
section
/-!
SUPPORT. Reading the state after one update: one lemma per field per update, and the two laws of the register file.
-/

namespace Sys2Proof.Laws
open Sys2Proof.Machine

theorem mem_all (r : Reg) : r ∈ Reg.all := by cases r <;> decide

@[simp] theorem get_set_same (x : RegFile) (r : Reg) (b : Buffer) : (x.set r b).get r = b := by
  cases r <;> rfl

theorem get_set_other (x : RegFile) {r q : Reg} (b : Buffer) (h : q ≠ r) : (x.set r b).get q = x.get q := by
  cases r <;> cases q <;> first | rfl | exact absurd rfl h

@[simp] theorem set_get_self (x : RegFile) (r : Reg) : x.set r (x.get r) = x := by cases r <;> rfl

@[simp] theorem set_set_same (x : RegFile) (r : Reg) (b c : Buffer) : (x.set r b).set r c = x.set r c := by
  cases r <;> rfl

@[simp] theorem get_empty (r : Reg) : RegFile.empty.get r = [] := by cases r <;> rfl

section setReg
variable (s : State) (r : Reg) (b : Buffer)

@[simp] theorem setReg_getReg_same : (s.setReg r b).getReg r = b := get_set_same s.x r b
theorem setReg_getReg_other {q : Reg} (h : q ≠ r) : (s.setReg r b).getReg q = s.getReg q :=
  get_set_other s.x b h
@[simp] theorem setReg_str : (s.setReg r b).str = s.str := rfl
@[simp] theorem setReg_slen : (s.setReg r b).slen = s.slen := rfl
@[simp] theorem setReg_width : (s.setReg r b).width = s.width := rfl
@[simp] theorem setReg_status : (s.setReg r b).status = s.status := rfl
@[simp] theorem setReg_params : (s.setReg r b).params = s.params := rfl
@[simp] theorem setReg_pending : (s.setReg r b).pending = s.pending := rfl
@[simp] theorem setReg_answers : (s.setReg r b).answers = s.answers := rfl
@[simp] theorem setReg_resets : (s.setReg r b).resets = s.resets := rfl
@[simp] theorem setReg_charAt (k : Nat) : (s.setReg r b).charAt k = s.charAt k := rfl

end setReg

section setErr
variable (s : State) (e : BitVec 4)

@[simp] theorem setErr_x : (s.setErr e).x = s.x := rfl
@[simp] theorem setErr_getReg (r : Reg) : (s.setErr e).getReg r = s.getReg r := rfl
@[simp] theorem setErr_str : (s.setErr e).str = s.str := rfl
@[simp] theorem setErr_slen : (s.setErr e).slen = s.slen := rfl
@[simp] theorem setErr_width : (s.setErr e).width = s.width := rfl
@[simp] theorem setErr_err : (s.setErr e).status.err = e := rfl
@[simp] theorem setErr_cmp : (s.setErr e).status.cmp = s.status.cmp := rfl
@[simp] theorem setErr_z : (s.setErr e).status.z = s.status.z := rfl
@[simp] theorem setErr_params : (s.setErr e).params = s.params := rfl
@[simp] theorem setErr_pending : (s.setErr e).pending = s.pending := rfl
@[simp] theorem setErr_answers : (s.setErr e).answers = s.answers := rfl
@[simp] theorem setErr_resets : (s.setErr e).resets = s.resets := rfl
@[simp] theorem setErr_charAt (k : Nat) : (s.setErr e).charAt k = s.charAt k := rfl

end setErr

section setCmp
variable (s : State) (c : BitVec 2)

@[simp] theorem setCmp_x : (s.setCmp c).x = s.x := rfl
@[simp] theorem setCmp_getReg (r : Reg) : (s.setCmp c).getReg r = s.getReg r := rfl
@[simp] theorem setCmp_str : (s.setCmp c).str = s.str := rfl
@[simp] theorem setCmp_slen : (s.setCmp c).slen = s.slen := rfl
@[simp] theorem setCmp_width : (s.setCmp c).width = s.width := rfl
@[simp] theorem setCmp_err : (s.setCmp c).status.err = s.status.err := rfl
@[simp] theorem setCmp_cmp : (s.setCmp c).status.cmp = c := rfl
@[simp] theorem setCmp_z : (s.setCmp c).status.z = s.status.z := rfl
@[simp] theorem setCmp_params : (s.setCmp c).params = s.params := rfl
@[simp] theorem setCmp_pending : (s.setCmp c).pending = s.pending := rfl
@[simp] theorem setCmp_answers : (s.setCmp c).answers = s.answers := rfl
@[simp] theorem setCmp_resets : (s.setCmp c).resets = s.resets := rfl
@[simp] theorem setCmp_charAt (k : Nat) : (s.setCmp c).charAt k = s.charAt k := rfl

end setCmp

section setZ
variable (s : State) (z : Bool)

@[simp] theorem setZ_x : (s.setZ z).x = s.x := rfl
@[simp] theorem setZ_getReg (r : Reg) : (s.setZ z).getReg r = s.getReg r := rfl
@[simp] theorem setZ_str : (s.setZ z).str = s.str := rfl
@[simp] theorem setZ_slen : (s.setZ z).slen = s.slen := rfl
@[simp] theorem setZ_width : (s.setZ z).width = s.width := rfl
@[simp] theorem setZ_err : (s.setZ z).status.err = s.status.err := rfl
@[simp] theorem setZ_cmp : (s.setZ z).status.cmp = s.status.cmp := rfl
@[simp] theorem setZ_z : (s.setZ z).status.z = z := rfl
@[simp] theorem setZ_params : (s.setZ z).params = s.params := rfl
@[simp] theorem setZ_pending : (s.setZ z).pending = s.pending := rfl
@[simp] theorem setZ_answers : (s.setZ z).answers = s.answers := rfl
@[simp] theorem setZ_resets : (s.setZ z).resets = s.resets := rfl
@[simp] theorem setZ_charAt (k : Nat) : (s.setZ z).charAt k = s.charAt k := rfl

end setZ

section setString
variable (s : State) (cs : List Byte)

@[simp] theorem setString_x : (s.setString cs).x = s.x := rfl
@[simp] theorem setString_getReg (r : Reg) : (s.setString cs).getReg r = s.getReg r := rfl
@[simp] theorem setString_str : (s.setString cs).str = s.str.writeFrom 0 cs := rfl
@[simp] theorem setString_slen : (s.setString cs).slen = BitVec.ofNat 16 cs.length := rfl
@[simp] theorem setString_width : (s.setString cs).width = s.width := rfl
@[simp] theorem setString_status : (s.setString cs).status = s.status := rfl
@[simp] theorem setString_params : (s.setString cs).params = s.params := rfl
@[simp] theorem setString_pending : (s.setString cs).pending = s.pending := rfl
@[simp] theorem setString_answers : (s.setString cs).answers = s.answers := rfl
@[simp] theorem setString_resets : (s.setString cs).resets = s.resets := rfl

end setString

section setChar
variable (s : State) (k : Nat) (c : Byte)

@[simp] theorem setChar_x : (s.setChar k c).x = s.x := rfl
@[simp] theorem setChar_getReg (r : Reg) : (s.setChar k c).getReg r = s.getReg r := rfl
@[simp] theorem setChar_str : (s.setChar k c).str = s.str.write k c := rfl
@[simp] theorem setChar_slen : (s.setChar k c).slen = s.slen := rfl
@[simp] theorem setChar_width : (s.setChar k c).width = s.width := rfl
@[simp] theorem setChar_status : (s.setChar k c).status = s.status := rfl
@[simp] theorem setChar_params : (s.setChar k c).params = s.params := rfl
@[simp] theorem setChar_pending : (s.setChar k c).pending = s.pending := rfl
@[simp] theorem setChar_answers : (s.setChar k c).answers = s.answers := rfl
@[simp] theorem setChar_resets : (s.setChar k c).resets = s.resets := rfl

end setChar

section answer
variable (s : State) (a : Answer)

@[simp] theorem answer_x : (s.answer a).x = s.x := rfl
@[simp] theorem answer_getReg (r : Reg) : (s.answer a).getReg r = s.getReg r := rfl
@[simp] theorem answer_str : (s.answer a).str = s.str := rfl
@[simp] theorem answer_slen : (s.answer a).slen = s.slen := rfl
@[simp] theorem answer_width : (s.answer a).width = s.width := rfl
@[simp] theorem answer_status : (s.answer a).status = s.status := rfl
@[simp] theorem answer_params : (s.answer a).params = s.params := rfl
@[simp] theorem answer_pending : (s.answer a).pending = s.pending := rfl
@[simp] theorem answer_answers : (s.answer a).answers = a :: s.answers := rfl
@[simp] theorem answer_resets : (s.answer a).resets = s.resets := rfl
@[simp] theorem answer_charAt (k : Nat) : (s.answer a).charAt k = s.charAt k := rfl

end answer

section hardReset
variable (s : State)

@[simp] theorem hardReset_getReg (r : Reg) : s.hardReset.getReg r = [] := get_empty r
@[simp] theorem hardReset_str : s.hardReset.str = [] := rfl
@[simp] theorem hardReset_slen : s.hardReset.slen = 0#16 := rfl
@[simp] theorem hardReset_width : s.hardReset.width = 0#16 := rfl
@[simp] theorem hardReset_status : s.hardReset.status = ⟨0#4, 0#2, false⟩ := rfl
@[simp] theorem hardReset_params : s.hardReset.params = s.params := rfl
@[simp] theorem hardReset_pending : s.hardReset.pending = s.pending := rfl
@[simp] theorem hardReset_answers : s.hardReset.answers = s.answers := rfl
@[simp] theorem hardReset_resets : s.hardReset.resets = s.resets + 1 := rfl

end hardReset

end Sys2Proof.Laws
end

