-- ==== Sys2Proof/Laws/Commands.lean ====
section
/-!
SUPPORT. What each shared operation of the commands can do: the operand checks, the two ways a command ends, and the
command shapes. Later proofs cite these and never unfold the operations.
-/

namespace Sys2Proof.Laws
open Sys2Proof.Machine

/-- The source check passes exactly on a non-empty register (spec/60_exceptions.md R236 (a)). -/
theorem sourceOperand_eq (s : State) (r : Reg) :
    sourceOperand s r = if s.getReg r = [] then .error .invalidOperand else .ok (s.getReg r) := by
  simp [sourceOperand, List.length_eq_zero_iff]

theorem sourceOperand_of_ne {s : State} {r : Reg} (h : s.getReg r ≠ []) :
    sourceOperand s r = .ok (s.getReg r) := by rw [sourceOperand_eq, if_neg h]

theorem sourceOperand_of_empty {s : State} {r : Reg} (h : s.getReg r = []) :
    sourceOperand s r = .error .invalidOperand := by rw [sourceOperand_eq, if_pos h]

/-- The pair check (R236 (a), R237, R238): emptiness first, then the lengths. -/
theorem operandPair_eq (s : State) (ra rb : Reg) :
    operandPair s ra rb =
      if s.getReg ra = [] ∨ s.getReg rb = [] then .error .invalidOperand
      else if (s.getReg ra).length ≠ (s.getReg rb).length then .error .lengthMismatch
      else .ok (s.getReg ra, s.getReg rb) := by
  simp [operandPair, List.length_eq_zero_iff]

theorem operandPair_of_ok {s : State} {ra rb : Reg} (ha : s.getReg ra ≠ [])
    (h : (s.getReg ra).length = (s.getReg rb).length) :
    operandPair s ra rb = .ok (s.getReg ra, s.getReg rb) := by
  have hb : s.getReg rb ≠ [] := by
    intro hb
    rw [hb, List.length_nil, List.length_eq_zero_iff] at h
    exact ha h
  rw [operandPair_eq, if_neg (by simp [ha, hb]), if_neg (by simpa using h)]

theorem operandPair_of_empty {s : State} {ra rb : Reg} (h : s.getReg ra = [] ∨ s.getReg rb = []) :
    operandPair s ra rb = .error .invalidOperand := by rw [operandPair_eq, if_pos h]

theorem operandPair_of_mismatch {s : State} {ra rb : Reg} (ha : s.getReg ra ≠ []) (hb : s.getReg rb ≠ [])
    (h : (s.getReg ra).length ≠ (s.getReg rb).length) :
    operandPair s ra rb = .error .lengthMismatch := by
  rw [operandPair_eq, if_neg (by simp [ha, hb]), if_pos h]

theorem declaredWidth_of_ok {s : State} (h1 : 1 ≤ s.width.toNat) (h2 : s.width.toNat ≤ s.params.nmax) :
    declaredWidth s = .ok s.width.toNat := by
  rw [declaredWidth, if_neg (by omega)]

theorem declaredWidth_of_bad {s : State} (h : s.width.toNat = 0 ∨ s.params.nmax < s.width.toNat) :
    declaredWidth s = .error .invalidOperand := by
  rw [declaredWidth, if_pos h]

theorem baseOperand_of_ok {b : Half} {base : Base} (h : b.toNat = base.toNat) : baseOperand b = .ok base := by
  cases base <;> simp only [Base.toNat] at h <;> simp [baseOperand, h]

theorem baseOperand_of_bad {b : Half} (h2 : b.toNat ≠ 2) (h10 : b.toNat ≠ 10) (h16 : b.toNat ≠ 16) :
    baseOperand b = .error .unsupportedBase := by
  simp [baseOperand, h2, h10, h16]

theorem stringOperand_of_ok {s : State} (h : s.slen.toNat ≤ s.params.smax) :
    stringOperand s = .ok (s.chars s.slen.toNat) := by
  rw [stringOperand, if_neg (by omega)]

theorem stringOperand_of_bad {s : State} (h : s.params.smax < s.slen.toNat) :
    stringOperand s = .error .invalidOperand := by
  rw [stringOperand, if_pos h]

/-- Everything a command on one source can do. -/
theorem unaryCommand_cases {f : Buffer → Buffer} {rd ra : Reg} {s t : State}
    (h : unaryCommand f rd ra s = .next t) :
    (s.getReg ra = [] ∧ t = s.setErr 6#4) ∨
      (s.getReg ra ≠ [] ∧ t = (s.setReg rd (f (s.getReg ra))).setErr 0#4) := by
  unfold unaryCommand at h
  by_cases ha : s.getReg ra = []
  · rw [sourceOperand_of_empty ha] at h
    cases h
    exact .inl ⟨ha, rfl⟩
  · rw [sourceOperand_of_ne ha] at h
    cases h
    exact .inr ⟨ha, rfl⟩

/-- Everything a command on two sources can do. -/
theorem binaryCommand_cases {f : Buffer → Buffer → Buffer} {rd ra rb : Reg} {s t : State}
    (h : binaryCommand f rd ra rb s = .next t) :
    ((s.getReg ra = [] ∨ s.getReg rb = []) ∧ t = s.setErr 6#4) ∨
      (s.getReg ra ≠ [] ∧ s.getReg rb ≠ [] ∧ (s.getReg ra).length ≠ (s.getReg rb).length ∧ t = s.setErr 4#4) ∨
      (s.getReg ra ≠ [] ∧ (s.getReg ra).length = (s.getReg rb).length ∧
        t = (s.setReg rd (f (s.getReg ra) (s.getReg rb))).setErr 0#4) := by
  unfold binaryCommand at h
  by_cases he : s.getReg ra = [] ∨ s.getReg rb = []
  · rw [operandPair_of_empty he] at h
    cases h
    exact .inl ⟨he, rfl⟩
  · push Not at he
    by_cases hl : (s.getReg ra).length = (s.getReg rb).length
    · rw [operandPair_of_ok he.1 hl] at h
      cases h
      exact .inr (.inr ⟨he.1, hl, rfl⟩)
    · rw [operandPair_of_mismatch he.1 he.2 hl] at h
      cases h
      exact .inr (.inl ⟨he.1, he.2, hl, rfl⟩)

/-- Everything a creator without a source can do. -/
theorem creatorCommand_cases {f : Nat → Buffer} {rd : Reg} {s t : State}
    (h : creatorCommand f rd s = .next t) :
    ((s.width.toNat = 0 ∨ s.params.nmax < s.width.toNat) ∧ t = s.setErr 6#4) ∨
      (1 ≤ s.width.toNat ∧ s.width.toNat ≤ s.params.nmax ∧
        t = (s.setReg rd (f s.width.toNat)).setErr 0#4) := by
  unfold creatorCommand at h
  by_cases hb : s.width.toNat = 0 ∨ s.params.nmax < s.width.toNat
  · rw [declaredWidth_of_bad hb] at h
    cases h
    exact .inl ⟨hb, rfl⟩
  · have h1 : 1 ≤ s.width.toNat := by omega
    have h2 : s.width.toNat ≤ s.params.nmax := by omega
    rw [declaredWidth_of_ok h1 h2] at h
    cases h
    exact .inr ⟨h1, h2, rfl⟩

/-- Everything the divider can do. -/
theorem divideCommand_cases {w : Bool} {rd ra rb : Reg} {s t : State}
    (h : divideCommand w rd ra rb s = .next t) :
    ((s.getReg ra = [] ∨ s.getReg rb = []) ∧ t = s.setErr 6#4) ∨
      (s.getReg ra ≠ [] ∧ s.getReg rb ≠ [] ∧ (s.getReg ra).length ≠ (s.getReg rb).length ∧ t = s.setErr 4#4) ∨
      (s.getReg ra ≠ [] ∧ (s.getReg ra).length = (s.getReg rb).length ∧ allZero (s.getReg rb) = true ∧
        t = s.setErr 3#4) ∨
      (s.getReg ra ≠ [] ∧ (s.getReg ra).length = (s.getReg rb).length ∧ allZero (s.getReg rb) = false ∧
        t = (s.setReg rd (if w then bufOf (s.getReg ra).length (divide (s.getReg ra) (s.getReg rb)).1
          else (divide (s.getReg ra) (s.getReg rb)).2)).setErr 0#4) := by
  unfold divideCommand at h
  by_cases he : s.getReg ra = [] ∨ s.getReg rb = []
  · rw [operandPair_of_empty he] at h
    cases h
    exact .inl ⟨he, rfl⟩
  · push Not at he
    by_cases hl : (s.getReg ra).length = (s.getReg rb).length
    · rw [operandPair_of_ok he.1 hl] at h
      cases hz : allZero (s.getReg rb)
      · simp only [hz] at h
        cases h
        exact .inr (.inr (.inr ⟨he.1, hl, rfl, rfl⟩))
      · simp only [hz] at h
        cases h
        exact .inr (.inr (.inl ⟨he.1, hl, rfl, rfl⟩))
    · rw [operandPair_of_mismatch he.1 he.2 hl] at h
      cases h
      exact .inr (.inl ⟨he.1, he.2, hl, rfl⟩)

end Sys2Proof.Laws
end

