-- ==== Sys2Proof/Laws/Convert.lean ====
section
/-!
SUPPORT. The strings of TOSTR: their lengths (spec/46_base_conversion.md R202 to R205), and the fuel of the decimal
loop suffices (R204).
-/

namespace Sys2Proof.Laws
open Sys2Proof.Machine

theorem length_flatMap_const (l : List Byte) (f : Byte → List Byte) (c : Nat) (h : ∀ b, (f b).length = c) :
    (l.flatMap f).length = c * l.length := by
  induction l with
  | nil => simp
  | cons b l ih => simp [List.flatMap_cons, ih, h, Nat.mul_add, Nat.add_comm]

/-- Hexadecimal output has 2N characters (R202). -/
theorem length_hexString (a : Buffer) : (hexString a).length = 2 * a.length := by
  rw [hexString, length_flatMap_const _ _ 2 (by simp), List.length_reverse]

/-- Binary output has 8N characters (R203). -/
theorem length_binString (a : Buffer) : (binString a).length = 8 * a.length := by
  rw [binString, length_flatMap_const _ _ 8 (by simp), List.length_reverse]

/-- The decimal loop emits at most as many digits as the power of ten above the value. -/
theorem length_decimalDigits_le (fuel v n : Nat) (h : v < 10 ^ n) : (decimalDigits fuel v).length ≤ n := by
  induction fuel generalizing v n with
  | zero => simp [decimalDigits]
  | succ fuel ih =>
    unfold decimalDigits
    split
    · simp
    · rename_i hv
      cases n with
      | zero => simp at h; omega
      | succ n =>
        have : v / 10 < 10 ^ n := by rw [Nat.div_lt_iff_lt_mul (by norm_num), ← pow_succ]; exact h
        simpa using ih (v / 10) n this

/-- The fuel suffices: with fuel for the bits of the value, more fuel changes nothing (R204, log 10). -/
theorem decimalDigits_fuel (fuel extra v : Nat) (h : v < 2 ^ fuel) :
    decimalDigits (fuel + extra) v = decimalDigits fuel v := by
  induction fuel generalizing v with
  | zero =>
    have hv : v = 0 := by simpa using h
    subst hv
    cases extra <;> simp [decimalDigits]
  | succ fuel ih =>
    rw [Nat.succ_add]
    unfold decimalDigits
    split
    · rfl
    · rw [ih (v / 10) (by rw [pow_succ] at h; omega)]

/-- Decimal output has 1 to 3N characters (R205). -/
theorem length_decString (a : Buffer) (h : a ≠ []) :
    1 ≤ (decString a).length ∧ (decString a).length ≤ 3 * a.length := by
  have hn : 1 ≤ a.length := List.length_pos_iff.mpr h
  unfold decString
  split
  · simp only [List.length_singleton]; omega
  · rename_i hz
    have hv : val a ≠ 0 := fun hv => hz ((allZero_iff a).mpr hv)
    constructor
    · have : 8 * a.length = (8 * a.length - 1) + 1 := by omega
      rw [List.length_reverse, this, decimalDigits, if_neg hv]
      simp
    · rw [List.length_reverse]
      apply length_decimalDigits_le
      calc val a < 256 ^ a.length := val_lt a
        _ ≤ 1000 ^ a.length := Nat.pow_le_pow_left (by norm_num) _
        _ = 10 ^ (3 * a.length) := by rw [pow_mul]; norm_num

/-- No string of TOSTR is longer than 8N characters (R205). -/
theorem length_stringOf_le (base : Base) (a : Buffer) (h : a ≠ []) : (stringOf base a).length ≤ 8 * a.length := by
  cases base
  · exact (length_binString a).le
  · exact (length_decString a h).2.trans (by omega)
  · exact (length_hexString a).le.trans (by omega)

end Sys2Proof.Laws
end

