-- ==== Sys2Proof/Laws/Decode.lean ====
section
/-!
SUPPORT. The fields of an encoded word are the fields it was built from (spec/30_encoding.md R81, R82), and the
register fields read back.
-/

namespace Sys2Proof.Laws

section wordR
variable (op : BitVec 8) (rd ra rb : BitVec 4)

theorem opField_wordR : opField (wordR op rd ra rb) = op := by
  unfold opField wordR
  rw [BitVec.extractLsb'_append_eq_of_le (by decide), BitVec.extractLsb'_append_eq_of_le (by decide),
    BitVec.extractLsb'_append_eq_of_le (by decide), BitVec.extractLsb'_append_eq_of_le (by decide)]
  exact BitVec.extractLsb'_eq_self

theorem rdField_wordR : rdField (wordR op rd ra rb) = rd := by
  unfold rdField wordR
  rw [BitVec.extractLsb'_append_eq_of_le (by decide), BitVec.extractLsb'_append_eq_of_le (by decide),
    BitVec.extractLsb'_append_eq_of_le (by decide)]
  exact BitVec.extractLsb'_append_eq_right

theorem raField_wordR : raField (wordR op rd ra rb) = ra := by
  unfold raField wordR
  rw [BitVec.extractLsb'_append_eq_of_le (by decide), BitVec.extractLsb'_append_eq_of_le (by decide)]
  exact BitVec.extractLsb'_append_eq_right

theorem rbField_wordR : rbField (wordR op rd ra rb) = rb := by
  unfold rbField wordR
  rw [BitVec.extractLsb'_append_eq_of_le (by decide)]
  exact BitVec.extractLsb'_append_eq_right

theorem zeroField_wordR : zeroField (wordR op rd ra rb) = 0#12 := by
  unfold zeroField wordR
  exact BitVec.extractLsb'_append_eq_right

end wordR

section wordI
variable (op : BitVec 8) (rd ra : BitVec 4) (k : Half)

theorem opField_wordI : opField (wordI op rd ra k) = op := by
  unfold opField wordI
  rw [BitVec.extractLsb'_append_eq_of_le (by decide), BitVec.extractLsb'_append_eq_of_le (by decide),
    BitVec.extractLsb'_append_eq_of_le (by decide)]
  exact BitVec.extractLsb'_eq_self

theorem rdField_wordI : rdField (wordI op rd ra k) = rd := by
  unfold rdField wordI
  rw [BitVec.extractLsb'_append_eq_of_le (by decide), BitVec.extractLsb'_append_eq_of_le (by decide)]
  exact BitVec.extractLsb'_append_eq_right

theorem raField_wordI : raField (wordI op rd ra k) = ra := by
  unfold raField wordI
  rw [BitVec.extractLsb'_append_eq_of_le (by decide)]
  exact BitVec.extractLsb'_append_eq_right

theorem immField_wordI : immField (wordI op rd ra k) = k := by
  unfold immField wordI
  exact BitVec.extractLsb'_append_eq_right

end wordI

theorem regOfField_fieldOfReg (r : Reg) : regOfField (fieldOfReg r) = .ok r := by cases r <;> rfl

/-- A register field that decodes is the field of the register it decodes to (R83). -/
theorem fieldOfReg_of_regOfField {f : BitVec 4} {r : Reg} (h : regOfField f = .ok r) : fieldOfReg r = f := by
  have key : ∀ f : BitVec 4, ∀ r ∈ Reg.all, regOfField f = .ok r → fieldOfReg r = f := by
    intro f r hr
    fin_cases hr <;> (revert f; decide)
  exact key f r (by cases r <;> decide) h

end Sys2Proof.Laws
end

