-- ==== Sys2Proof/Laws/Memory.lean ====
section
/-!
SUPPORT. The laws of the string buffer's store: reading after a write, the canonical form, and the bound.
-/

namespace Sys2Proof.Laws
open Sys2Proof.Machine

theorem read_write_same (m : Memory) (k : Nat) (v : Byte) : (m.write k v).read k = some v := by
  induction m with
  | nil => simp [Memory.write, Memory.read]
  | cons c m ih =>
    obtain ⟨a, u⟩ := c
    by_cases h1 : k < a
    · simp [Memory.write, Memory.read, h1]
    · by_cases h2 : k = a
      · simp [Memory.write, Memory.read, h2]
      · simp [Memory.write, Memory.read, h1, h2, Ne.symm h2, ih]

theorem read_write_other (m : Memory) {k j : Nat} (v : Byte) (h : j ≠ k) :
    (m.write k v).read j = m.read j := by
  induction m with
  | nil => simp [Memory.write, Memory.read, Ne.symm h]
  | cons c m ih =>
    obtain ⟨a, u⟩ := c
    by_cases h1 : k < a
    · simp [Memory.write, Memory.read, h1, Ne.symm h]
    · by_cases h2 : k = a
      · subst h2; simp [Memory.write, Memory.read, Ne.symm h]
      · by_cases h3 : a = j
        · subst h3; simp [Memory.write, Memory.read, h1, h2]
        · simp [Memory.write, Memory.read, h1, h2, h3, ih]

/-- The first index of a store in canonical form is below every other: the head stays in place under a write above. -/
theorem write_head (m : Memory) (a : Nat) (u : Byte) (k : Nat) (v : Byte) (h : a < k)
    (hw : Memory.wf ((a, u) :: m) = true) (ih : (m.write k v).wf = true) :
    Memory.wf ((a, u) :: m.write k v) = true := by
  cases m with
  | nil => simp [Memory.write, Memory.wf, h]
  | cons c m =>
    obtain ⟨b, w⟩ := c
    simp only [Memory.wf, Bool.and_eq_true, decide_eq_true_eq] at hw
    by_cases h1 : k < b
    · simp only [Memory.write, h1, if_true] at ih ⊢
      simp only [Memory.wf, Bool.and_eq_true, decide_eq_true_eq] at ih ⊢
      exact ⟨h, ih⟩
    · by_cases h2 : k = b
      · subst h2
        simp only [Memory.write, lt_irrefl, if_false, if_true] at ih ⊢
        simp only [Memory.wf, Bool.and_eq_true, decide_eq_true_eq]
        exact ⟨h, ih⟩
      · simp only [Memory.write, h1, h2, if_false] at ih ⊢
        simp only [Memory.wf, Bool.and_eq_true, decide_eq_true_eq]
        exact ⟨hw.1, ih⟩

theorem wf_tail {c : Host.Cell} {m : Memory} (h : Memory.wf (c :: m) = true) : m.wf = true := by
  cases m with
  | nil => rfl
  | cons d m =>
    simp only [Memory.wf, Bool.and_eq_true] at h
    exact h.2

/-- A write keeps the canonical form. -/
theorem wf_write (m : Memory) (k : Nat) (v : Byte) (h : m.wf = true) : (m.write k v).wf = true := by
  induction m with
  | nil => rfl
  | cons c m ih =>
    obtain ⟨a, u⟩ := c
    by_cases h1 : k < a
    · simp only [Memory.write, h1, if_true]
      simp only [Memory.wf, Bool.and_eq_true, decide_eq_true_eq]
      exact ⟨h1, h⟩
    · by_cases h2 : k = a
      · subst h2
        simp only [Memory.write, lt_irrefl, if_false, if_true]
        cases m with
        | nil => rfl
        | cons d m => simpa only [Memory.wf] using h
      · have h3 : a < k := by omega
        have := write_head m a u k v h3 h (ih (wf_tail h))
        simpa only [Memory.write, h1, h2, if_false] using this

/-- Writing a run of bytes keeps the canonical form. -/
theorem wf_writeFrom (m : Memory) (k : Nat) (bs : List Byte) (h : m.wf = true) :
    (m.writeFrom k bs).wf = true := by
  induction bs generalizing k with
  | nil => exact h
  | cons b bs ih => exact wf_write _ _ _ (ih (k + 1))

theorem below_write (m : Memory) (k n : Nat) (v : Byte) (hk : k < n) (h : m.below n = true) :
    (m.write k v).below n = true := by
  induction m with
  | nil => simpa [Memory.write, Memory.below] using hk
  | cons c m ih =>
    obtain ⟨a, u⟩ := c
    simp only [Memory.below, List.all_cons, Bool.and_eq_true, decide_eq_true_eq] at h ih ⊢
    by_cases h1 : k < a
    · simp only [Memory.write, h1, if_true, List.all_cons, Bool.and_eq_true, decide_eq_true_eq]
      exact ⟨hk, h.1, h.2⟩
    · by_cases h2 : k = a
      · simp only [Memory.write, h2, if_false, if_true, lt_irrefl, List.all_cons, Bool.and_eq_true,
          decide_eq_true_eq]
        exact h
      · simp only [Memory.write, h1, h2, if_false, List.all_cons, Bool.and_eq_true, decide_eq_true_eq]
        exact ⟨h.1, ih h.2⟩

theorem below_writeFrom (m : Memory) (k n : Nat) (bs : List Byte) (hk : k + bs.length ≤ n)
    (h : m.below n = true) : (m.writeFrom k bs).below n = true := by
  induction bs generalizing k with
  | nil => exact h
  | cons b bs ih =>
    simp only [List.length_cons] at hk
    exact below_write _ _ _ _ (by omega) (ih (k + 1) (by omega))

/-- Reading below a run of written bytes. -/
theorem read_writeFrom_below (m : Memory) (k : Nat) (bs : List Byte) {j : Nat} (h : j < k) :
    (m.writeFrom k bs).read j = m.read j := by
  induction bs generalizing k with
  | nil => rfl
  | cons b bs ih =>
    rw [Memory.writeFrom, read_write_other _ _ (by omega), ih (k + 1) (by omega)]

/-- Reading above a run of written bytes. -/
theorem read_writeFrom_above (m : Memory) (k : Nat) (bs : List Byte) {j : Nat} (h : k + bs.length ≤ j) :
    (m.writeFrom k bs).read j = m.read j := by
  induction bs generalizing k with
  | nil => rfl
  | cons b bs ih =>
    simp only [List.length_cons] at h
    rw [Memory.writeFrom, read_write_other _ _ (by omega), ih (k + 1) (by omega)]

/-- Reading inside a run of written bytes. -/
theorem read_writeFrom_inside (m : Memory) (k : Nat) (bs : List Byte) {j : Nat} (h : j < bs.length) :
    (m.writeFrom k bs).read (k + j) = some bs[j] := by
  induction bs generalizing k j with
  | nil => simp at h
  | cons b bs ih =>
    cases j with
    | zero => simp [Memory.writeFrom, read_write_same]
    | succ j =>
      simp only [List.length_cons] at h
      have := ih (k + 1) (j := j) (by omega)
      rw [Memory.writeFrom, read_write_other _ _ (by omega)]
      simpa [Nat.add_comm, Nat.add_left_comm, Nat.add_assoc] using this

theorem setChar_charAt_same (s : State) (k : Nat) (c : Byte) : (s.setChar k c).charAt k = c := by
  simp [State.charAt, State.setChar, read_write_same]

theorem setChar_charAt_other (s : State) {k j : Nat} (c : Byte) (h : j ≠ k) :
    (s.setChar k c).charAt j = s.charAt j := by
  simp [State.charAt, State.setChar, read_write_other _ _ h]

/-- What the string buffer holds after a string is written: the string, and beyond it what was there (R33). -/
theorem setString_charAt (s : State) (cs : List Byte) (k : Nat) :
    (s.setString cs).charAt k = if h : k < cs.length then cs[k] else s.charAt k := by
  by_cases h : k < cs.length
  · have := read_writeFrom_inside s.str 0 cs h
    simp only [Nat.zero_add] at this
    simp [State.charAt, State.setString, this, h]
  · have := read_writeFrom_above s.str 0 cs (j := k) (by omega)
    simp [State.charAt, State.setString, this, h]

end Sys2Proof.Laws
end

