-- ==== Sys2Proof/Laws/PerInstr.lean ====
section
/-!
SUPPORT. One statement per command about its syntax: the opcode in the word of a command is the one the opcode map gives
it (spec/30_encoding.md R88).
-/

namespace Sys2Proof.Laws

/-- The opcode of each command, read off the table of R88. -/
def opcodeOf : Instr → BitVec 8
  | .zero _ => 0x01#8
  | .max _ => 0x02#8
  | .resize _ _ => 0x03#8
  | .set _ _ => 0x04#8
  | .not _ _ => 0x08#8
  | .and _ _ _ => 0x09#8
  | .or _ _ _ => 0x0A#8
  | .xor _ _ _ => 0x0B#8
  | .lsh0 _ _ _ => 0x10#8
  | .lsh1 _ _ _ => 0x11#8
  | .rsh0 _ _ _ => 0x12#8
  | .rsh1 _ _ _ => 0x13#8
  | .add _ _ _ => 0x20#8
  | .sub _ _ _ => 0x21#8
  | .mul _ _ _ => 0x22#8
  | .div _ _ _ => 0x24#8
  | .mod _ _ _ => 0x25#8
  | .cmp _ _ => 0x30#8
  | .isZero _ => 0x31#8
  | .toStr _ _ => 0x40#8
  | .fromStr _ _ => 0x41#8

/-- The word of a command carries its opcode in bits [31:24]. -/
def OpcodeField.Statement (i : Instr) : Prop := opField (encode i) = opcodeOf i

theorem OpcodeField.zero (rd : Reg) : OpcodeField.Statement (.zero rd) := opField_wordR _ _ _ _
theorem OpcodeField.max (rd : Reg) : OpcodeField.Statement (.max rd) := opField_wordR _ _ _ _
theorem OpcodeField.resize (rd ra : Reg) : OpcodeField.Statement (.resize rd ra) := opField_wordR _ _ _ _
theorem OpcodeField.set (rd ra : Reg) : OpcodeField.Statement (.set rd ra) := opField_wordR _ _ _ _
theorem OpcodeField.not (rd ra : Reg) : OpcodeField.Statement (.not rd ra) := opField_wordR _ _ _ _
theorem OpcodeField.and (rd ra rb : Reg) : OpcodeField.Statement (.and rd ra rb) := opField_wordR _ _ _ _
theorem OpcodeField.or (rd ra rb : Reg) : OpcodeField.Statement (.or rd ra rb) := opField_wordR _ _ _ _
theorem OpcodeField.xor (rd ra rb : Reg) : OpcodeField.Statement (.xor rd ra rb) := opField_wordR _ _ _ _
theorem OpcodeField.lsh0 (rd ra : Reg) (k : Half) : OpcodeField.Statement (.lsh0 rd ra k) := opField_wordI _ _ _ _
theorem OpcodeField.lsh1 (rd ra : Reg) (k : Half) : OpcodeField.Statement (.lsh1 rd ra k) := opField_wordI _ _ _ _
theorem OpcodeField.rsh0 (rd ra : Reg) (k : Half) : OpcodeField.Statement (.rsh0 rd ra k) := opField_wordI _ _ _ _
theorem OpcodeField.rsh1 (rd ra : Reg) (k : Half) : OpcodeField.Statement (.rsh1 rd ra k) := opField_wordI _ _ _ _
theorem OpcodeField.add (rd ra rb : Reg) : OpcodeField.Statement (.add rd ra rb) := opField_wordR _ _ _ _
theorem OpcodeField.sub (rd ra rb : Reg) : OpcodeField.Statement (.sub rd ra rb) := opField_wordR _ _ _ _
theorem OpcodeField.mul (rd ra rb : Reg) : OpcodeField.Statement (.mul rd ra rb) := opField_wordR _ _ _ _
theorem OpcodeField.div (rd ra rb : Reg) : OpcodeField.Statement (.div rd ra rb) := opField_wordR _ _ _ _
theorem OpcodeField.mod (rd ra rb : Reg) : OpcodeField.Statement (.mod rd ra rb) := opField_wordR _ _ _ _
theorem OpcodeField.cmp (ra rb : Reg) : OpcodeField.Statement (.cmp ra rb) := opField_wordR _ _ _ _
theorem OpcodeField.isZero (ra : Reg) : OpcodeField.Statement (.isZero ra) := opField_wordR _ _ _ _
theorem OpcodeField.toStr (ra : Reg) (base : Half) : OpcodeField.Statement (.toStr ra base) := opField_wordI _ _ _ _
theorem OpcodeField.fromStr (rd : Reg) (base : Half) : OpcodeField.Statement (.fromStr rd base) := opField_wordI _ _ _ _

end Sys2Proof.Laws
end

