-- ==== Sys2Proof/Laws/Primitives.lean ====
section
/-!
SUPPORT. What the buffer primitives, the bitwise commands, CMP and the shifts compute, in values
(spec/40_buffer_primitives.md, spec/41_shift_bitwise.md, spec/45_compare.md).
-/

namespace Sys2Proof.Laws
open Sys2Proof.Machine

@[simp] theorem length_zeroBuffer (n : Nat) : (zeroBuffer n).length = n := by simp [zeroBuffer]
@[simp] theorem length_maxBuffer (n : Nat) : (maxBuffer n).length = n := by simp [maxBuffer]
theorem val_zeroBuffer (n : Nat) : val (zeroBuffer n) = 0 := val_replicate_zero n
theorem val_maxBuffer (n : Nat) : val (maxBuffer n) = 256 ^ n - 1 := val_replicate_max n

@[simp] theorem length_resizeBuffer (n : Nat) (a : Buffer) : (resizeBuffer n a).length = n := by
  induction n generalizing a with
  | zero => rfl
  | succ n ih => cases a <;> simp [resizeBuffer, ih]

/-- RESIZE in values: `val(A) mod 2^(8N)` (R112). -/
theorem val_resizeBuffer (n : Nat) (a : Buffer) : val (resizeBuffer n a) = val a % 256 ^ n := by
  induction n generalizing a with
  | zero => simp [resizeBuffer, Nat.mod_one]
  | succ n ih =>
    cases a with
    | nil => simp [resizeBuffer, ih]
    | cons x a =>
      have hx := byte_lt x
      have h1 : (x.toNat + 256 * val a) % 256 = x.toNat := by omega
      have h2 : (x.toNat + 256 * val a) / 256 = val a := by omega
      rw [resizeBuffer, val_cons, ih, val_cons, pow_succ_256, Nat.mod_mul, h1, h2]

@[simp] theorem length_notBuffer (a : Buffer) : (notBuffer a).length = a.length := by simp [notBuffer]

theorem complement_toNat (b : Byte) : (0xFF#8 - b).toNat = 255 - b.toNat := by
  have h := byte_lt b
  have h2 : (0xFF#8).toNat = 255 := rfl
  rw [BitVec.toNat_sub, h2]
  omega

/-- NOT in values: `2^(8N) - 1 - a` (R136). -/
theorem val_notBuffer (a : Buffer) : val (notBuffer a) = 256 ^ a.length - 1 - val a := by
  induction a with
  | nil => rfl
  | cons x a ih =>
    have h := byte_lt x
    have h2 := val_lt a
    have h3 : notBuffer (x :: a) = (0xFF#8 - x) :: notBuffer a := rfl
    rw [h3, val_cons, ih, complement_toNat, List.length_cons, pow_succ_256, val_cons]
    omega

theorem length_zipWith (f : Byte → Byte → Byte) (a b : Buffer) (h : a.length = b.length) :
    (List.zipWith f a b).length = a.length := by simp [h]

theorem length_andBuffer (a b : Buffer) (h : a.length = b.length) : (andBuffer a b).length = a.length :=
  length_zipWith _ a b h
theorem length_orBuffer (a b : Buffer) (h : a.length = b.length) : (orBuffer a b).length = a.length :=
  length_zipWith _ a b h
theorem length_xorBuffer (a b : Buffer) (h : a.length = b.length) : (xorBuffer a b).length = a.length :=
  length_zipWith _ a b h

/-- A scan of two strings of bytes: the first part decides, and the rest only where the first part is equal. -/
theorem compareScan_append (a b c d : List Byte) (h : a.length = b.length) :
    compareScan (a ++ c) (b ++ d) = if compareScan a b = 0#2 then compareScan c d else compareScan a b := by
  induction a generalizing b with
  | nil =>
    have hb : b = [] := by simpa using h.symm
    subst hb
    simp [compareScan]
  | cons x a ih =>
    cases b with
    | nil => simp at h
    | cons y b =>
      simp only [List.cons_append, compareScan]
      by_cases h1 : x.toNat < y.toNat
      · simp [h1]
      · by_cases h2 : y.toNat < x.toNat
        · simp [h1, h2]
        · simp [h1, h2, ih b (by simpa using h)]

/-- CMP in values (R191): negative, positive or zero as `val(A)` is below, above or equal to `val(B)`. -/
theorem compareCode_eq (a b : Buffer) (h : a.length = b.length) :
    compareCode a b = if val a < val b then 0b11#2 else if val b < val a then 0b01#2 else 0b00#2 := by
  unfold compareCode
  induction a generalizing b with
  | nil =>
    have hb : b = [] := by simpa using h.symm
    subst hb
    rfl
  | cons x a ih =>
    cases b with
    | nil => simp at h
    | cons y b =>
      have hx := byte_lt x
      have hy := byte_lt y
      have hl : a.length = b.length := by simpa using h
      have ea := val_cons x a
      have eb := val_cons y b
      have hi := ih b hl
      rw [List.reverse_cons, List.reverse_cons, compareScan_append _ _ _ _ (by simpa using hl)]
      rcases Nat.lt_trichotomy (val a) (val b) with h1 | h1 | h1
      · rw [if_pos h1] at hi
        rw [hi, if_pos (by omega : val (x :: a) < val (y :: b))]
        rfl
      · rw [if_neg (by omega), if_neg (by omega)] at hi
        rw [hi, if_pos rfl]
        simp only [compareScan]
        split_ifs <;> first | rfl | omega
      · rw [if_neg (by omega), if_pos h1] at hi
        rw [hi, if_neg (by omega : ¬ val (x :: a) < val (y :: b)),
          if_pos (by omega : val (y :: b) < val (x :: a))]
        rfl

theorem compareCode_legal (a b : Buffer) : compareCode a b ≠ 0b10#2 := by
  have key : ∀ (l m : List Byte), compareScan l m ≠ 0b10#2 := by
    intro l
    induction l with
    | nil => intro m; simp [compareScan]
    | cons x l ih =>
      intro m
      cases m with
      | nil => simp [compareScan]
      | cons y m =>
        simp only [compareScan]
        split_ifs
        · decide
        · decide
        · exact ih m
  exact key _ _

/-- Bit j of a buffer's value, read in the byte that holds it. -/
theorem testBit_val (a : Buffer) (j : Nat) :
    (val a).testBit j = (a.getD (j / 8) 0#8).getLsbD (j % 8) := by
  have h1 := bufferBit_eq a j
  rw [bufferBit, Nat.shiftRight_eq_div_pow] at h1
  rw [BitVec.getLsbD, Nat.testBit_eq_decide_div_mod_eq, Nat.testBit_eq_decide_div_mod_eq, h1]

@[simp] theorem length_leftShift (f : Bool) (k : Nat) (a : Buffer) : (leftShift f k a).length = a.length := by
  unfold leftShift; split <;> simp

@[simp] theorem length_rightShift (f : Bool) (k : Nat) (a : Buffer) : (rightShift f k a).length = a.length := by
  unfold rightShift; split <;> simp

theorem fillByte_bit (f : Bool) (j : Nat) (h : j < 8) : (fillByte f).getLsbD j = f := by
  have key : ∀ f : Bool, ∀ j : Fin 8, (fillByte f).getLsbD j.val = f := by decide
  exact key f ⟨j, h⟩

end Sys2Proof.Laws
end

