-- ==== Sys2Proof/Laws/Shift.lean ====
section
/-!
SUPPORT. What the barrel shifter computes, bit by bit and in values (spec/41_shift_bitwise.md R130 to R135).
-/

namespace Sys2Proof.Laws
open Sys2Proof.Machine

theorem getD_in_range (a : Buffer) (i : Nat) (d e : Byte) (h : i < a.length) : a.getD i d = a.getD i e := by
  rw [List.getD_eq_getElem _ _ h, List.getD_eq_getElem _ _ h]

theorem getD_map_range (n i : Nat) (g : Nat → Byte) (d : Byte) (h : i < n) :
    ((List.range n).map g).getD i d = g i := by
  simp [List.getD, h]

theorem testBit_at (a : Buffer) (i t : Nat) (ht : t < 8) :
    (val a).testBit (8 * i + t) = (a.getD i 0#8).getLsbD t := by
  have h1 : (8 * i + t) / 8 = i := by omega
  have h2 : (8 * i + t) % 8 = t := by omega
  rw [testBit_val, h1, h2]

/-- Bit t of byte i of a left shift: the fill bit below the count, else the source's bit (R130). -/
theorem leftShiftByte_bit (a : Buffer) (f : Bool) (q s i t : Nat) (hs : s < 8) (ht : t < 8)
    (hi : i < a.length) :
    (leftShiftByte a (fillByte f) q s i).getLsbD t =
      if 8 * i + t < 8 * q + s then f else (val a).testBit (8 * i + t - (8 * q + s)) := by
  unfold leftShiftByte
  by_cases h1 : i < q
  · rw [if_pos h1, if_pos (by omega), fillByte_bit f t ht]
  · rw [if_neg h1]
    simp only [BitVec.getLsbD_or, BitVec.getLsbD_shiftLeft, BitVec.getLsbD_ushiftRight]
    by_cases h2 : t < s
    · by_cases h3 : i < q + 1
      · rw [if_pos h3, if_pos (by omega), fillByte_bit f _ (by omega)]
        simp [h2]
      · have e : 8 * i + t - (8 * q + s) = 8 * (i - q - 1) + (8 - s + t) := by omega
        rw [if_neg h3, if_neg (by omega), e, testBit_at _ _ _ (by omega),
          getD_in_range a (i - q - 1) _ 0#8 (by omega)]
        simp [h2]
    · have e : 8 * i + t - (8 * q + s) = 8 * (i - q) + (t - s) := by omega
      rw [if_neg (by omega : ¬ 8 * i + t < 8 * q + s), e, testBit_at _ _ _ (by omega),
        getD_in_range a (i - q) _ 0#8 (by omega)]
      have h4 : ∀ x : Byte, x.getLsbD (8 - s + t) = false := fun x => BitVec.getLsbD_of_ge x _ (by omega)
      simp [h2, h4, ht]

/-- Bit j of a left shift by any count. -/
theorem leftShift_bit (f : Bool) (k : Nat) (a : Buffer) (j : Nat) (hj : j < 8 * a.length) :
    (val (leftShift f k a)).testBit j = if j < k then f else (val a).testBit (j - k) := by
  have ht : j % 8 < 8 := Nat.mod_lt _ (by norm_num)
  have hi : j / 8 < a.length := by omega
  rw [testBit_val]
  unfold leftShift
  split
  · rename_i h
    rw [List.getD_replicate _ hi, fillByte_bit f _ ht, if_pos (by omega)]
  · rw [getD_map_range _ _ _ _ hi, leftShiftByte_bit a f _ _ _ _ (Nat.mod_lt _ (by norm_num)) ht hi]
    rw [Nat.div_add_mod, Nat.div_add_mod]

/-- Bit t of byte i of a right shift: the source's bit as far as it goes, else the fill bit (R130). -/
theorem rightShiftByte_bit (a : Buffer) (f : Bool) (q s i t : Nat) (hs : s < 8) (ht : t < 8)
    (hi : i < a.length) :
    (rightShiftByte a (fillByte f) a.length q s i).getLsbD t =
      if 8 * i + t + (8 * q + s) < 8 * a.length then (val a).testBit (8 * i + t + (8 * q + s)) else f := by
  unfold rightShiftByte
  by_cases h1 : a.length - 1 < i + q
  · rw [if_pos h1, if_neg (by omega), fillByte_bit f t ht]
  · rw [if_neg h1]
    simp only [BitVec.getLsbD_or, BitVec.getLsbD_shiftLeft, BitVec.getLsbD_ushiftRight]
    by_cases h2 : s + t < 8
    · have e : 8 * i + t + (8 * q + s) = 8 * (i + q) + (s + t) := by omega
      rw [if_pos (by omega : 8 * i + t + (8 * q + s) < 8 * a.length), e, testBit_at _ _ _ (by omega),
        getD_in_range a (i + q) _ 0#8 (by omega)]
      have h3 : t < 8 - s := by omega
      simp [h3]
    · have h4 : ∀ x : Byte, x.getLsbD (s + t) = false := fun x => BitVec.getLsbD_of_ge x _ (by omega)
      have h5 : ¬ t < 8 - s := by omega
      have h6 : t - (8 - s) < 8 := by omega
      by_cases h3 : i + q + 1 ≤ a.length - 1
      · have e : 8 * i + t + (8 * q + s) = 8 * (i + q + 1) + (t - (8 - s)) := by omega
        rw [if_pos h3, if_pos (by omega : 8 * i + t + (8 * q + s) < 8 * a.length), e, testBit_at _ _ _ h6,
          getD_in_range a (i + q + 1) _ 0#8 (by omega)]
        simp [h4, h5, ht]
      · rw [if_neg h3, if_neg (by omega : ¬ 8 * i + t + (8 * q + s) < 8 * a.length)]
        simp [h4, h5, ht, fillByte_bit f _ h6]

/-- Bit j of a right shift by any count. -/
theorem rightShift_bit (f : Bool) (k : Nat) (a : Buffer) (j : Nat) (hj : j < 8 * a.length) :
    (val (rightShift f k a)).testBit j = if j + k < 8 * a.length then (val a).testBit (j + k) else f := by
  have ht : j % 8 < 8 := Nat.mod_lt _ (by norm_num)
  have hi : j / 8 < a.length := by omega
  rw [testBit_val]
  unfold rightShift
  split
  · rename_i h
    rw [List.getD_replicate _ hi, fillByte_bit f _ ht, if_neg (by omega)]
  · rw [getD_map_range _ _ _ _ hi, rightShiftByte_bit a f _ _ _ _ (Nat.mod_lt _ (by norm_num)) ht hi]
    rw [Nat.div_add_mod, Nat.div_add_mod]

theorem testBit_val_ge (a : Buffer) (j : Nat) (h : 8 * a.length ≤ j) : (val a).testBit j = false := by
  apply Nat.testBit_lt_two_pow
  calc val a < 256 ^ a.length := val_lt a
    _ = 2 ^ (8 * a.length) := (two_pow_eight_mul _).symm
    _ ≤ 2 ^ j := Nat.pow_le_pow_right (by norm_num) h

/-- LSH0 and LSH1 in values: `(a * 2^k + f * (2^k - 1)) mod 2^W` (R132, R133). -/
theorem val_leftShift (f : Bool) (k : Nat) (a : Buffer) :
    val (leftShift f k a) = (val a * 2 ^ k + f.toNat * (2 ^ k - 1)) % 2 ^ (8 * a.length) := by
  have hk : 0 < 2 ^ k := by positivity
  have hc : f.toNat * (2 ^ k - 1) < 2 ^ k := by cases f <;> simp
  apply Nat.eq_of_testBit_eq
  intro j
  rw [Nat.testBit_mod_two_pow, Nat.mul_comm (val a), Nat.testBit_two_pow_mul_add _ hc]
  by_cases hj : j < 8 * a.length
  · rw [leftShift_bit f k a j hj]
    by_cases h : j < k
    · cases f <;> simp [h, hj, Nat.testBit_two_pow_sub_one]
    · simp [h, hj]
  · rw [testBit_val_ge _ _ (by rw [length_leftShift]; omega)]
    simp [hj]

/-- RSH0 and RSH1 in values, with `k' = min(k, W)`: `a div 2^k' + f * (2^W - 2^(W-k'))` (R134, R135). -/
theorem val_rightShift (f : Bool) (k : Nat) (a : Buffer) :
    val (rightShift f k a) = val a / 2 ^ min k (8 * a.length) +
      f.toNat * (2 ^ (8 * a.length) - 2 ^ (8 * a.length - min k (8 * a.length))) := by
  generalize hm : min k (8 * a.length) = m
  have hmW : m ≤ 8 * a.length := by omega
  have ha : val a < 2 ^ (8 * a.length) := by rw [two_pow_eight_mul]; exact val_lt a
  have hd : val a / 2 ^ m < 2 ^ (8 * a.length - m) := by
    rw [Nat.div_lt_iff_lt_mul (by positivity), ← pow_add, Nat.sub_add_cancel hmW]
    exact ha
  have he : val a / 2 ^ m + f.toNat * (2 ^ (8 * a.length) - 2 ^ (8 * a.length - m)) =
      2 ^ (8 * a.length - m) * (f.toNat * (2 ^ m - 1)) + val a / 2 ^ m := by
    have h1 : 2 ^ (8 * a.length) - 2 ^ (8 * a.length - m) = 2 ^ (8 * a.length - m) * (2 ^ m - 1) := by
      rw [Nat.mul_sub, ← pow_add, Nat.sub_add_cancel hmW, Nat.mul_one]
    rw [h1]; ring
  rw [he]
  apply Nat.eq_of_testBit_eq
  intro j
  rw [Nat.testBit_two_pow_mul_add _ hd]
  by_cases hj : j < 8 * a.length
  · rw [rightShift_bit f k a j hj]
    by_cases h : j + k < 8 * a.length
    · have hmk : m = k := by omega
      rw [if_pos h, if_pos (by omega), Nat.testBit_div_two_pow, hmk]
    · rw [if_neg h]
      by_cases h2 : j < 8 * a.length - m
      · omega
      · have h3 : j - (8 * a.length - m) < m := by omega
        rw [if_neg h2]
        cases f <;> simp [h3, Nat.testBit_two_pow_sub_one]
  · rw [testBit_val_ge _ _ (by rw [length_rightShift]; omega), if_neg (by omega)]
    have h3 : ¬ j - (8 * a.length - m) < m := by omega
    cases f
    · simp
    · simp [Nat.testBit_two_pow_sub_one]; omega

end Sys2Proof.Laws
end

