-- ==== Sys2Proof/Laws/Window.lean ====
section
/-!
SUPPORT. Where a host address lands in the window (spec/20_memory.md R50, R51), place by place.
-/

namespace Sys2Proof.Laws
open Sys2Proof.Machine

theorem offsetOf_base (p : Params) {off : Nat} (h : off < Config.windowSize) :
    offsetOf p (p.base + off) = some off := by
  rw [offsetOf, if_pos ⟨by omega, by omega⟩]
  simp

theorem offsetOf_eq_some {p : Params} {addr off : Nat} (h : offsetOf p addr = some off) :
    addr = p.base + off ∧ off < Config.windowSize := by
  unfold offsetOf at h
  split at h
  · rename_i hc
    cases h
    omega
  · cases h

theorem regNumbered_regNumber (r : Reg) : regNumbered (regNumber r) = r := by cases r <;> rfl

theorem regNumber_regNumbered {i : Nat} (h : i < 8) : regNumber (regNumbered i) = i := by
  have key : ∀ i : Fin 8, regNumber (regNumbered i.val) = i.val := by decide
  exact key ⟨i, h⟩

theorem regNumber_lt (r : Reg) : regNumber r < 8 := by cases r <;> decide

/-- An offset in the string window is its character (R51). -/
theorem placeOf_string (k : Nat) : placeOf (0x20000 + k) = .string k := by
  simp [placeOf, Config.bufferBase, Config.stringBase]
  omega

/-- An offset in the buffer window is its register and byte (R51). -/
theorem placeOf_buffer {i j : Nat} (hi : i < 8) (hj : j < 0x2000) :
    placeOf (0x10000 + 0x2000 * i + j) = .buffer (regNumbered i) j := by
  have h1 : ¬ 0x10000 + 0x2000 * i + j < 0x10000 := by omega
  have h2 : 0x10000 + 0x2000 * i + j < 0x20000 := by omega
  have h3 : (0x10000 + 0x2000 * i + j - 0x10000) / 0x2000 = i := by omega
  have h4 : (0x10000 + 0x2000 * i + j - 0x10000) % 0x2000 = j := by omega
  simp only [placeOf, Config.bufferBase, Config.stringBase, Config.bufferStride, h1, h2, h3, h4, if_false, if_true]

/-- The length register of register i (R51). -/
theorem placeOf_blen {i : Nat} (hi : i < 8) : placeOf (0x20 + 4 * i) = .control (.blen (regNumbered i)) 0 := by
  have key : ∀ i : Fin 8, placeOf (0x20 + 4 * i.val) = .control (.blen (regNumbered i.val)) 0 := by decide
  exact key ⟨i, hi⟩

/-- The answer to a read leaves the state as it was but for the answer (R52, R53, R55). -/
theorem serveRead_cases {s t : State} {addr n : Nat} (h : serveRead s addr n = .next t) :
    ∃ a, hostRead s addr n = .ok a ∧ t = s.answer a := by
  unfold serveRead at h
  split at h
  · rename_i a ha
    cases h
    exact ⟨a, ha, rfl⟩
  · cases h

/-- What a write can do: store, or run a command, and answer that it is done (R52, R61). -/
theorem serveWrite_cases {s t : State} {addr n v : Nat} (h : serveWrite s addr n v = .next t) :
    (∃ u, hostWrite s addr n v = .ok (.stored u) ∧ t = u.answer .done) ∨
      (∃ w u, hostWrite s addr n v = .ok (.command w) ∧ runCommand w s = .next u ∧ t = u.answer .done) := by
  unfold serveWrite at h
  split at h
  · rename_i u hu
    cases h
    exact .inl ⟨u, hu, rfl⟩
  · rename_i w hw
    unfold completeWrite at h
    split at h
    · rename_i u hu
      cases h
      exact .inr ⟨w, u, hw, hu, rfl⟩
    · cases h
    · cases h
  · cases h

/-- What a write that stores can store (R54, R55, and the WIDTH and SLEN of R52). -/
theorem hostWrite_stored {s u : State} {addr n v : Nat} (h : hostWrite s addr n v = .ok (.stored u)) :
    u = { s with width := BitVec.ofNat 16 v } ∨ u = { s with slen := BitVec.ofNat 16 v } ∨
      (∃ r j, j < (s.getReg r).length ∧
        u = s.setReg r (setBufferByte (s.getReg r) j (BitVec.ofNat 8 v))) ∨
      (∃ k, k < s.params.smax ∧ u = s.setChar k (BitVec.ofNat 8 v)) := by
  unfold hostWrite at h
  split at h
  · cases h
  · rename_i off _
    unfold writePlace at h
    split at h
    · cases h
    · rename_i c lane _
      split at h
      · cases h
      · cases c <;> simp only [Except.ok.injEq, WriteEffect.stored.injEq, reduceCtorEq] at h
        · exact .inl h.symm
        · exact .inr (.inl h.symm)
    · rename_i r j _
      split at h
      · cases h
      · split at h
        · rename_i hj
          simp only [Except.ok.injEq, WriteEffect.stored.injEq] at h
          exact .inr (.inr (.inl ⟨r, j, hj, h.symm⟩))
        · cases h
    · rename_i k _
      split at h
      · cases h
      · split at h
        · cases h
        · simp only [Except.ok.injEq, WriteEffect.stored.injEq] at h
          exact .inr (.inr (.inr ⟨k, by omega, h.symm⟩))

end Sys2Proof.Laws
end

