-- ==== Sys2Proof/Machine/Assembler.lean ====
section
/-!
DEFINITION. The written form of commands: assembler syntax (spec/30_encoding.md R92), pseudo-instructions (R93) and the
host directives of listings (R94). None of it is part of the engine (D16); it is how listings stand for inputs.
-/

namespace Sys2Proof.Machine

/-- An operand as written: a register or an immediate (R92). -/
inductive AsmOperand where
  | reg (r : Reg)
  | imm (k : Half)
deriving DecidableEq, Repr

/-- A blank between tokens. -/
def isBlank (c : Char) : Bool := c == ' ' || c == '\t'

/-- The text without blanks at either end. -/
def trimBlanks (cs : List Char) : List Char := ((cs.dropWhile isBlank).reverse.dropWhile isBlank).reverse

/-- The text without its comment: a `;` starts one (R92). -/
def stripComment (cs : List Char) : List Char := cs.takeWhile (· != ';')

/-- The pieces of the text between commas, trimmed. -/
def commaPieces : List Char → List Char → List (List Char)
  | acc, [] => [trimBlanks acc.reverse]
  | acc, c :: cs => if c == ',' then trimBlanks acc.reverse :: commaPieces [] cs else commaPieces (c :: acc) cs

/-- A digit of a written number in decimal or hexadecimal. -/
def asmDigit (base : Nat) (c : Char) : Option Nat :=
  let n := c.toNat
  if 0x30 ≤ n ∧ n ≤ 0x39 then some (n - 0x30)
  else if base = 16 ∧ 0x41 ≤ n ∧ n ≤ 0x46 then some (n - 0x41 + 10)
  else if base = 16 ∧ 0x61 ≤ n ∧ n ≤ 0x66 then some (n - 0x61 + 10)
  else none

/-- The number the digits write, from an accumulator. -/
def asmNumber (base : Nat) : Nat → List Char → Option Nat
  | acc, [] => some acc
  | acc, c :: cs =>
    match asmDigit base c with
    | some d => asmNumber base (acc * base + d) cs
    | none => none

/-- An immediate must fit imm16 (R84). -/
def asmImmediate (n : Option Nat) : Option AsmOperand :=
  match n with
  | some k => if k < 65536 then some (.imm (BitVec.ofNat 16 k)) else none
  | none => none

/-- One operand: `x0`..`x7`, or `#` and a decimal or `0x` hexadecimal number (R92). -/
def asmOperand : List Char → Option AsmOperand
  | ['x', '0'] => some (.reg .x0)
  | ['x', '1'] => some (.reg .x1)
  | ['x', '2'] => some (.reg .x2)
  | ['x', '3'] => some (.reg .x3)
  | ['x', '4'] => some (.reg .x4)
  | ['x', '5'] => some (.reg .x5)
  | ['x', '6'] => some (.reg .x6)
  | ['x', '7'] => some (.reg .x7)
  | '#' :: '0' :: 'x' :: d :: ds => asmImmediate (asmNumber 16 0 (d :: ds))
  | '#' :: d :: ds => asmImmediate (asmNumber 10 0 (d :: ds))
  | _ => none

/-- The operands of a line; no text after the mnemonic is no operand. -/
def asmOperands (cs : List Char) : Option (List AsmOperand) :=
  if trimBlanks cs = [] then some [] else (commaPieces [] cs).mapM asmOperand

/-- What a mnemonic of R88, or a pseudo-instruction of R93, takes and stands for. -/
inductive AsmForm where
  | d (c : Reg → Instr)
  | da (c : Reg → Reg → Instr)
  | dab (c : Reg → Reg → Reg → Instr)
  | dai (c : Reg → Reg → Half → Instr)
  | di (c : Reg → Half → Instr)

/-- The command of a form and its operands. -/
def AsmForm.build : AsmForm → List AsmOperand → Option Instr
  | .d c, [.reg a] => some (c a)
  | .da c, [.reg a, .reg b] => some (c a b)
  | .dab c, [.reg a, .reg b, .reg e] => some (c a b e)
  | .dai c, [.reg a, .reg b, .imm k] => some (c a b k)
  | .di c, [.reg a, .imm k] => some (c a k)
  | _, _ => none

/-- The mnemonics of R88. -/
def asmMnemonics : List (String × AsmForm) :=
  [ ("ZERO", .d .zero), ("MAX", .d .max), ("RESIZE", .da .resize), ("SET", .da .set),
    ("NOT", .da .not), ("AND", .dab .and), ("OR", .dab .or), ("XOR", .dab .xor),
    ("LSH0", .dai .lsh0), ("LSH1", .dai .lsh1), ("RSH0", .dai .rsh0), ("RSH1", .dai .rsh1),
    ("ADD", .dab .add), ("SUB", .dab .sub), ("MUL", .dab .mul), ("DIV", .dab .div), ("MOD", .dab .mod),
    ("CMP", .da .cmp), ("ISZERO", .d .isZero), ("TOSTR", .di .toStr), ("FROMSTR", .di .fromStr) ]

/-- The pseudo-instructions of R93. -/
def asmPseudo : List (String × AsmForm) :=
  [ ("SHL", .dai .lsh0), ("SHR", .dai .rsh0), ("CLR", .d .zero),
    ("TOBIN", .d (fun r => .toStr r 2)), ("TODEC", .d (fun r => .toStr r 10)),
    ("TOHEX", .d (fun r => .toStr r 16)), ("FROMBIN", .d (fun r => .fromStr r 2)),
    ("FROMDEC", .d (fun r => .fromStr r 10)), ("FROMHEX", .d (fun r => .fromStr r 16)) ]

/-- The form of a mnemonic. -/
def asmLookup (m : List Char) : List (String × AsmForm) → Option AsmForm
  | [] => none
  | (name, f) :: rest => if name.toList = m then some f else asmLookup m rest

/-- One line of a listing (R92, R93): none where it is no command; a line without a command assembles to nothing. -/
def assembleLine (line : List Char) : Option (List Instr) :=
  let text := trimBlanks (stripComment line)
  if text = [] then some []
  else
    match asmLookup (text.takeWhile (fun c => !isBlank c)) (asmMnemonics ++ asmPseudo),
        asmOperands (text.dropWhile (fun c => !isBlank c)) with
    | some f, some ops => (f.build ops).map (fun i => [i])
    | _, _ => none

/-- The host directives of R94, and a command line. -/
inductive Directive where
  | width (n : Nat)
  | str (text : List Byte)
  | poke (r : Reg) (bytes : List Byte)
  | peek (r : Reg)
  | getstr
  | status
  | command (i : Instr)
deriving DecidableEq, Repr

/-- The address of byte `j` of a register (R51). -/
def bufferAddress (p : Params) (r : Reg) (j : Nat) : Nat :=
  p.base + (Config.bufferBase + Config.bufferStride * regNumber r + j)

/-- The address of character `k` (R51). -/
def stringAddress (p : Params) (k : Nat) : Nat := p.base + (Config.stringBase + k)

/-- The host accesses a directive stands for, issued in the state `s` (R94). -/
def directiveInputs (s : State) : Directive → List Input
  | .width n => [.write (s.params.base + 0x8) 4 n]
  | .str text =>
    (text.zipIdx.map (fun ck => Input.write (stringAddress s.params ck.2) 1 ck.1.toNat)) ++
      [.write (s.params.base + 0xC) 4 text.length]
  | .poke r bytes => bytes.zipIdx.map (fun bj => Input.write (bufferAddress s.params r bj.2) 1 bj.1.toNat)
  | .peek r => (List.range (s.getReg r).length).map (fun j => .read (bufferAddress s.params r j) 1)
  | .getstr =>
    .read (s.params.base + 0xC) 4 ::
      (List.range s.slen.toNat).map (fun k => .read (stringAddress s.params k) 1)
  | .status => [.read (s.params.base + 0x4) 4]
  | .command i => [.write s.params.base 4 (encode i).toNat]

end Sys2Proof.Machine
end

