-- ==== Sys2Proof/Tests/Slice0.lean ====
section
/-!
SUPPORT. The model's own tests, each a named theorem about one step or one word, with the expected result taken from
the spec's worked examples (spec/95_test_vectors.md, or the rule named), and the witnesses that the hypotheses of the
statements in Certificates/Slice0/Obligations.lean can be met, clause by clause.
-/

namespace Sys2Proof.Tests

open Sys2Proof Sys2Proof.Machine

/-- The state after reset with `a` in x0, `b` in x1, `c` in x2 and WIDTH `n`. -/
def start (a b c : Buffer) (n : Half) : State :=
  { State.reset with x := { RegFile.empty with x0 := a, x1 := b, x2 := c }, width := n }

/-- The state after the next step ran the command word `w`. -/
def after (s : State) (w : Nat) : Option State :=
  match step (s.withFetchWord 32 w) with
  | .next t => some t
  | .fault _ => none
  | .refused _ => none

/-- STATUS as the host reads it after the command word `w`. -/
def statusAfter (s : State) (w : Nat) : Option Nat := (after s w).map (fun t => (statusWord t.status).toNat)

/-- x2 and STATUS.ERR after the command word `w`. -/
def x2After (s : State) (w : Nat) : Option (Buffer × BitVec 4) :=
  (after s w).map (fun t => (t.getReg .x2, t.status.err))

/-- x1 and STATUS.ERR after the command word `w`. -/
def x1After (s : State) (w : Nat) : Option (Buffer × BitVec 4) :=
  (after s w).map (fun t => (t.getReg .x1, t.status.err))

/-- The newest answer after serving `i`, or why the access was refused. -/
def served (s : State) (i : Input) : Option (Answer ⊕ Fault) :=
  match step { s with pending := [i] } with
  | .next t => t.answers.head?.map .inl
  | .fault f => some (.inr f)
  | .refused _ => none

/-- The state after serving `i`. -/
def servedState (s : State) (i : Input) : Option State :=
  match step { s with pending := [i] } with
  | .next t => some t
  | .fault _ => none
  | .refused _ => none

/-! ## WellFormed: each check refuses an ill-formed term -/

/-- R6: NMAX below 64, NMAX above 8191, SMAX below 8*NMAX, SMAX above 65535, BASE no multiple of 0x40000. -/
theorem test_ill_formed_params_refused :
    Params.wellFormed ⟨63, 512, 0⟩ = false ∧ Params.wellFormed ⟨8192, 65536, 0⟩ = false ∧
      Params.wellFormed ⟨64, 511, 0⟩ = false ∧ Params.wellFormed ⟨64, 65536, 0⟩ = false ∧
      Params.wellFormed ⟨64, 512, 0x30000⟩ = false ∧ Params.wellFormed ⟨8191, 65528, 0x40000⟩ = true :=
  ⟨rfl, rfl, rfl, rfl, rfl, rfl⟩

/-- spec/95 2.9: every illegal word of the table, by fields, by masks, and by decoding. -/
theorem test_illegal_words_refused :
    [0x00000000#32, 0xFFFFFFFF#32, 0x23201000#32, 0x20801000#32, 0x20281000#32, 0x20208000#32, 0x20201001#32,
      0x01010000#32, 0x30101000#32, 0x40100010#32, 0x41010010#32, 0x31001000#32].all
        (fun w => !legalByFields w && !legalByMask w && (decode w).toOption == none) = true := by
  decide

/-- The reasons by name, one word each (log 20). -/
theorem test_illegal_words_by_name :
    decode 0x23201000#32 = .error .unassignedOp ∧ decode 0x20801000#32 = .error .registerOutOfRange ∧
      decode 0x01010000#32 = .error .unusedFieldNonzero ∧
      decode 0x20201001#32 = .error .zeroFieldNonzero := ⟨rfl, rfl, rfl, rfl⟩

/-! ## Decode: the word of every command, written out from R88 and R92 -/

/-- spec/95 2.1. -/
theorem test_decode_primitives :
    [0x01100000#32, 0x02700000#32, 0x03100000#32, 0x04310000#32].map (fun w => (decode w).toOption) =
      [some (.zero .x1), some (.max .x7), some (.resize .x1 .x0), some (.set .x3 .x1)] := by
  decide

/-- spec/95 2.3. -/
theorem test_decode_bitwise :
    [0x08200000#32, 0x09201000#32, 0x0A201000#32, 0x0B200000#32].map (fun w => (decode w).toOption) =
      [some (.not .x2 .x0), some (.and .x2 .x0 .x1), some (.or .x2 .x0 .x1), some (.xor .x2 .x0 .x0)] := by
  decide

/-- spec/95 2.2. -/
theorem test_decode_shifts :
    [0x10150003#32, 0x11330009#32, 0x1211000C#32, 0x1310FFFF#32].map (fun w => (decode w).toOption) =
      [some (.lsh0 .x1 .x5 3), some (.lsh1 .x3 .x3 9), some (.rsh0 .x1 .x1 12), some (.rsh1 .x1 .x0 65535)] := by
  decide

/-- spec/95 2.4, 2.5, 2.6. -/
theorem test_decode_arithmetic :
    [0x20443000#32, 0x21201000#32, 0x22421000#32, 0x24605000#32, 0x25301000#32].map
        (fun w => (decode w).toOption) =
      [some (.add .x4 .x4 .x3), some (.sub .x2 .x0 .x1), some (.mul .x4 .x2 .x1), some (.div .x6 .x0 .x5),
        some (.mod .x3 .x0 .x1)] := by
  decide

/-- spec/95 2.7, 2.8, 3. -/
theorem test_decode_compare_and_strings :
    [0x30023000#32, 0x31040000#32, 0x4002000A#32, 0x41300010#32].map (fun w => (decode w).toOption) =
      [some (.cmp .x2 .x3), some (.isZero .x4), some (.toStr .x2 10), some (.fromStr .x3 16)] := by
  decide

/-- The table's own numbering: a legal row, an illegal word, a word with every immediate bit set. -/
theorem test_decodeTableWord :
    decodeTableWord 32 0x24201000 = some (.div .x2 .x0 .x1) ∧ decodeTableWord 32 0 = none ∧
      decodeTableWord 32 0x4107FFFF = none ∧ decodeTableWord 32 0x4170FFFF = some (.fromStr .x7 65535) := by
  decide

/-! ## The commands, from the vectors of spec/95 -/

/-- 2.1, and R27: WIDTH 65 is above NMAX 64. -/
theorem test_zero :
    x2After (start [] [] [0xAA#8] 4) 0x01200000 = some ([0x00#8, 0x00#8, 0x00#8, 0x00#8], 0#4) ∧
      x2After (start [] [] [0xAA#8] 65) 0x01200000 = some ([0xAA#8], 6#4) := by
  decide

/-- 2.1, and WIDTH 0 after reset. -/
theorem test_max :
    x2After (start [] [] [] 2) 0x02200000 = some ([0xFF#8, 0xFF#8], 0#4) ∧
      statusAfter State.reset 0x02000000 = some 6 := by
  decide

/-- 2.1: zero-extended, truncated to the low bytes. -/
theorem test_resize :
    x2After (start [0x34#8, 0x12#8] [] [] 4) 0x03200000 = some ([0x34#8, 0x12#8, 0x00#8, 0x00#8], 0#4) ∧
      x2After (start [0x34#8, 0x12#8] [] [] 1) 0x03200000 = some ([0x34#8], 0#4) := by
  decide

/-- 2.1: SET copies, and refuses another length and an empty destination. -/
theorem test_set :
    x1After (start [0xAA#8, 0xBB#8] [0x00#8, 0x00#8] [] 0) 0x04100000 = some ([0xAA#8, 0xBB#8], 0#4) ∧
      x1After (start [0xAA#8, 0xBB#8] [0x00#8] [] 0) 0x04100000 = some ([0x00#8], 4#4) ∧
      x1After (start [0xAA#8, 0xBB#8] [] [] 0) 0x04100000 = some ([], 6#4) := by
  decide

/-- 2.3. -/
theorem test_not : x2After (start [0x0F#8, 0xA5#8] [] [] 0) 0x08200000 = some ([0xF0#8, 0x5A#8], 0#4) := by
  decide

/-- 2.3. -/
theorem test_and :
    x2After (start [0xF0#8, 0x3C#8] [0xAA#8, 0xFF#8] [] 0) 0x09201000 = some ([0xA0#8, 0x3C#8], 0#4) ∧
      x2After (start [0x34#8, 0x12#8] [0x00#8] [] 0) 0x09201000 = some ([], 4#4) := by
  decide

/-- 2.3. -/
theorem test_or :
    x2After (start [0xF0#8, 0x3C#8] [0xAA#8, 0xFF#8] [] 0) 0x0A201000 = some ([0xFA#8, 0xFF#8], 0#4) ∧
      x2After (start [0x34#8, 0x12#8] [] [] 0) 0x0A201000 = some ([], 6#4) := by
  decide

/-- 2.3. -/
theorem test_xor :
    x2After (start [0xF0#8, 0x3C#8] [0xAA#8, 0xFF#8] [] 0) 0x0B201000 = some ([0x5A#8, 0xC3#8], 0#4) := by
  decide

/-- 2.2, k = 9 and k = 16. -/
theorem test_lsh0 :
    x1After (start [0x01#8, 0x80#8] [] [] 0) 0x10100009 = some ([0x00#8, 0x02#8], 0#4) ∧
      x1After (start [0x01#8, 0x80#8] [] [] 0) 0x10100010 = some ([0x00#8, 0x00#8], 0#4) := by
  decide

/-- 2.2, k = 9 and k = 65535. -/
theorem test_lsh1 :
    x1After (start [0x01#8, 0x80#8] [] [] 0) 0x11100009 = some ([0xFF#8, 0x03#8], 0#4) ∧
      x1After (start [0x01#8, 0x80#8] [] [] 0) 0x1110FFFF = some ([0xFF#8, 0xFF#8], 0#4) := by
  decide

/-- 2.2, k = 7 and, on 4 bytes, k = 12. -/
theorem test_rsh0 :
    x1After (start [0x01#8, 0x80#8] [] [] 0) 0x12100007 = some ([0x00#8, 0x01#8], 0#4) ∧
      x1After (start [0x78#8, 0x56#8, 0x34#8, 0x12#8] [] [] 0) 0x1210000C =
        some ([0x45#8, 0x23#8, 0x01#8, 0x00#8], 0#4) := by
  decide

/-- 2.2, k = 9 and, on 4 bytes, k = 31. -/
theorem test_rsh1 :
    x1After (start [0x01#8, 0x80#8] [] [] 0) 0x13100009 = some ([0xC0#8, 0xFF#8], 0#4) ∧
      x1After (start [0x78#8, 0x56#8, 0x34#8, 0x12#8] [] [] 0) 0x1310001F =
        some ([0xFE#8, 0xFF#8, 0xFF#8, 0xFF#8], 0#4) := by
  decide

/-- 2.4: a carry, and the wrap. -/
theorem test_add :
    x2After (start [0xFF#8, 0x80#8] [0x01#8, 0x7F#8] [] 0) 0x20201000 = some ([0x00#8, 0x00#8], 0#4) ∧
      x2After (start [0xFF#8, 0x00#8] [0x01#8, 0x00#8] [] 0) 0x20201000 = some ([0x00#8, 0x01#8], 0#4) := by
  decide

/-- 2.4: operands in order, a borrow, the wrap. -/
theorem test_sub :
    x2After (start [0x00#8, 0x01#8] [0x01#8, 0x00#8] [] 0) 0x21201000 = some ([0xFF#8, 0x00#8], 0#4) ∧
      x2After (start [0x01#8, 0x00#8] [0x00#8, 0x01#8] [] 0) 0x21201000 = some ([0x01#8, 0xFF#8], 0#4) := by
  decide

/-- 2.5. -/
theorem test_mul :
    x2After (start [0x23#8, 0x01#8] [0x45#8, 0x00#8] [] 0) 0x22201000 = some ([0x6F#8, 0x4E#8], 0#4) ∧
      x2After (start [0xFF#8, 0xFF#8] [0xFF#8, 0xFF#8] [] 0) 0x22201000 = some ([0x01#8, 0x00#8], 0#4) := by
  decide

/-- 2.6. -/
theorem test_div :
    x2After (start [0xFF#8, 0xFF#8] [0x07#8, 0x00#8] [] 0) 0x24201000 = some ([0x92#8, 0x24#8], 0#4) ∧
      x2After (start [0x00#8, 0x00#8] [0x00#8, 0x00#8] [0x55#8] 0) 0x24201000 = some ([0x55#8], 3#4) := by
  decide

/-- 2.6. -/
theorem test_mod :
    x2After (start [0x00#8, 0x80#8] [0x03#8, 0x00#8] [] 0) 0x25201000 = some ([0x02#8, 0x00#8], 0#4) ∧
      x2After (start [0x05#8, 0x00#8] [0x00#8, 0x00#8] [] 0) 0x25201000 = some ([], 3#4) := by
  decide

/-- 2.7. -/
theorem test_cmp :
    statusAfter (start [0x00#8, 0x01#8] [0xFF#8, 0x00#8] [] 0) 0x30001000 = some 0x10 ∧
      statusAfter (start [0x00#8, 0x00#8] [0x01#8, 0x00#8] [] 0) 0x30001000 = some 0x30 := by
  decide

/-- 2.7: the flags persist over an ISZERO and over a failed DIV. -/
theorem test_isZero :
    statusAfter { start [0x00#8, 0x00#8] [] [] 0 with status := ⟨0#4, 0b11#2, false⟩ } 0x31000000 = some 0x70 ∧
      statusAfter (start [0x00#8, 0x80#8] [] [] 0) 0x31000000 = some 0x00 ∧
      statusAfter { start [0x00#8] [] [] 0 with status := ⟨0#4, 0b11#2, true⟩ } 0x24000000 = some 0x73 := by
  decide

/-- 2.8: "171"; the character beyond the string stays. -/
theorem test_toStr_decimal :
    (after ((start [0xAB#8, 0x00#8] [] [] 0).setString [0x39#8, 0x39#8, 0x39#8, 0x39#8]) 0x4000000A).map
        (fun t => (t.slen, t.chars 4)) =
      some (3#16, [0x31#8, 0x37#8, 0x31#8, 0x39#8]) := by
  decide

/-- 2.8: "00AB", "10100101", and UnsupportedBase before the operand check. -/
theorem test_toStr_hex_and_binary :
    (after (start [0xAB#8, 0x00#8] [] [] 0) 0x40000010).map (fun t => t.chars t.slen.toNat) =
        some [0x30#8, 0x30#8, 0x41#8, 0x42#8] ∧
      (after (start [0xA5#8] [] [] 0) 0x40000002).map (fun t => t.chars t.slen.toNat) =
        some [0x31#8, 0x30#8, 0x31#8, 0x30#8, 0x30#8, 0x31#8, 0x30#8, 0x31#8] ∧
      statusAfter (start [] [] [] 0) 0x40000008 = some 2 := by
  decide

/-- 2.8: "1FFFF" in base 16, "99999" in base 10, "abCd". -/
theorem test_fromStr_values :
    x2After ((start [] [] [] 2).setString [0x31#8, 0x46#8, 0x46#8, 0x46#8, 0x46#8]) 0x41200010 =
        some ([0xFF#8, 0xFF#8], 0#4) ∧
      x2After ((start [] [] [] 2).setString [0x39#8, 0x39#8, 0x39#8, 0x39#8, 0x39#8]) 0x4120000A =
        some ([0x9F#8, 0x86#8], 0#4) ∧
      x2After ((start [] [] [] 2).setString [0x61#8, 0x62#8, 0x43#8, 0x64#8]) 0x41200010 =
        some ([0xCD#8, 0xAB#8], 0#4) := by
  decide

/-- 2.8: "12" is no binary string, the empty string is none in any base, WIDTH comes before the digits, the base before
WIDTH. -/
theorem test_fromStr_errors :
    statusAfter ((start [] [] [] 2).setString [0x31#8, 0x32#8]) 0x41200002 = some 1 ∧
      statusAfter (start [] [] [] 2) 0x41200010 = some 1 ∧
      statusAfter ((start [] [] [] 0).setString [0x7A#8, 0x7A#8]) 0x4120000A = some 6 ∧
      statusAfter (start [] [] [] 0) 0x41200007 = some 2 := by
  decide

/-- 2.9: an illegal word ends with IllegalCommand, a legal one on a reset engine with InvalidOperand. -/
theorem test_illegal_command : statusAfter State.reset 0 = some 5 ∧ statusAfter State.reset 0x20201000 = some 6 := by
  decide

/-! ## The host window (spec/95 2.10), reset and idling -/

/-- CAP, STATUS and BLEN3 as the host reads them. -/
theorem test_control_reads :
    served State.reset (.read 0x10 4) = some (.inl (.word 0x02000040#32)) ∧
      served State.reset (.read 0x4 4) = some (.inl (.word 0#32)) ∧
      served (State.reset.setReg .x3 [0x00#8, 0x00#8]) (.read 0x2C 4) = some (.inl (.word 2#32)) := by
  decide

/-- WIDTH ignores the upper half of its datum. -/
theorem test_width_write :
    (servedState State.reset (.write 0x8 4 0x00010002)).map (fun t => (t.width, t.answers)) =
      some (2#16, [.done]) := by
  decide

/-- Byte 1 of x3. -/
theorem test_buffer_window :
    (servedState (State.reset.setReg .x3 [0x00#8, 0x00#8]) (.write 0x16001 1 0x12)).map (fun t => t.getReg .x3) =
        some [0x00#8, 0x12#8] ∧
      served (State.reset.setReg .x3 [0x00#8, 0x12#8]) (.read 0x16001 1) = some (.inl (.byte 0x12#8)) := by
  decide

/-- S[511] is the last character below SMAX. -/
theorem test_string_window :
    (servedState State.reset (.write 0x201FF 1 0x39)).map (fun t => t.charAt 511) = some 0x39#8 ∧
      served (State.reset.setChar 511 0x39#8) (.read 0x201FF 1) = some (.inl (.byte 0x39#8)) := by
  decide

/-- The refused accesses of 2.10, each by its name (log 8), and one outside the window. -/
theorem test_refused_accesses :
    served State.reset (.read 0x10000 1) = some (.inr .beyondLength) ∧
      served (State.reset.setReg .x3 [0x00#8, 0x00#8]) (.write 0x16002 1 0) = some (.inr .beyondLength) ∧
      served State.reset (.read 0x0 4) = some (.inr .wrongDirection) ∧
      served State.reset (.write 0x4 4 0) = some (.inr .wrongDirection) ∧
      served State.reset (.read 0x4 1) = some (.inr .controlShape) ∧
      served State.reset (.read 0x10000 4) = some (.inr .windowWidth) ∧
      served State.reset (.write 0x20200 1 0x39) = some (.inr .beyondString) ∧
      served State.reset (.read 0x14 4) = some (.inr .reservedOffset) ∧
      served State.reset (.read 0x30000 1) = some (.inr .outsideWindow) := by
  decide

/-- R37: a hardware reset empties the registers and clears WIDTH and STATUS. -/
theorem test_hardware_reset :
    (servedState { start [0x01#8] [] [] 7 with status := ⟨6#4, 1#2, true⟩ } .reset).map
        (fun t => (t.x, t.width, statusWord t.status, t.str)) =
      some (RegFile.empty, 0#16, 0#32, []) := by
  decide

/-- R245: with nothing pending the engine idles. -/
theorem test_idle : step State.reset = .next State.reset := rfl

/-! ## Listings (R92, R93, R94) -/

/-- R92: a command with a comment, an immediate in hexadecimal, an operand too many. -/
theorem test_assemble_commands :
    assembleLine "ADD     x2, x0, x1        ; sum".toList = some [.add .x2 .x0 .x1] ∧
      assembleLine "TOSTR x2, #0x10".toList = some [.toStr .x2 16] ∧
      assembleLine "ISZERO x4, x5".toList = none := by
  decide

/-- R93: the nine pseudo-instructions. -/
theorem test_assemble_pseudo :
    ["SHL x1, x2, #3", "SHR x1, x2, #3", "CLR x1", "TOBIN x1", "TODEC x1", "TOHEX x1", "FROMBIN x1", "FROMDEC x1",
        "FROMHEX x1"].map (fun l => assembleLine l.toList) =
      [some [.lsh0 .x1 .x2 3], some [.rsh0 .x1 .x2 3], some [.zero .x1], some [.toStr .x1 2], some [.toStr .x1 10],
        some [.toStr .x1 16], some [.fromStr .x1 2], some [.fromStr .x1 10], some [.fromStr .x1 16]] := by
  decide

/-- R94: the accesses of two directives. -/
theorem test_directives :
    directiveInputs State.reset (.str [0x31#8, 0x30#8]) =
        [.write 0x20000 1 0x31, .write 0x20001 1 0x30, .write 0xC 4 2] ∧
      directiveInputs State.reset (.poke .x1 [0x00#8, 0x05#8]) = [.write 0x12000 1 0, .write 0x12001 1 5] := by
  decide

/-! ## Witnesses: the hypotheses of the statements can be met. Each docstring names the statements of
Certificates/Slice0/Obligations.lean that it is for. -/

/-- 32769, 7, empty, 0, 1, one byte, 2, 5; WIDTH 2; the string "10"; STATUS left by earlier commands. -/
def demo : State :=
  { State.resetWith Config.defaultParams with
    x := ⟨[0x01#8, 0x80#8], [0x07#8, 0x00#8], [], [0x00#8, 0x00#8], [0x01#8, 0x00#8], [0xAA#8], [0x02#8, 0x00#8],
      [0x05#8, 0x00#8]⟩
    width := 2#16
    str := [(0, 0x31#8), (1, 0x30#8)]
    slen := 2#16
    status := ⟨6#4, 0b11#2, true⟩ }

/-- `demo` with the inputs `is` pending. -/
def demoWith (is : List Input) : State := { demo with pending := is }

/-- `demo` with another WIDTH. -/
def demoWidth (n : Half) : State := { demo with width := n }

/-- `demo` with another string. -/
def demoString (cs : List Byte) : State := demo.setString cs

/-- The invariant holds in `demo`. -/
theorem demo_inv : demo.Inv := by decide

/-- EncodeOfDecodeIsIdentity: the first and the last command of the map. -/
theorem witness_encode_of_decode :
    decode 0x01700000#32 = .ok (.zero .x7) ∧ decode 0x4170FFFF#32 = .ok (.fromStr .x7 65535#16) := ⟨rfl, rfl⟩

/-- IllegalWordsEndWithIllegalCommand. -/
theorem witness_illegal_word :
    (demoWith [.write 0 4 0x20201001]).pending =
        .write (demoWith [.write 0 4 0x20201001]).params.base 4 (0x20201001#32).toNat :: [] ∧
      legalByFields 0x20201001#32 = false := by
  decide

/-- StepRunsTheDecodedCommand. -/
theorem witness_step_runs :
    decode 0x20201000#32 = .ok (.add .x2 .x0 .x1) ∧
      (demoWith [.write 0 4 0x20201000]).pending =
        .write (demoWith [.write 0 4 0x20201000]).params.base 4 (0x20201000#32).toNat :: [] := ⟨rfl, rfl⟩

/-- StepServesOneInputInOrder: nothing pending, an access, a reset. -/
theorem witness_step_serves :
    (∃ t, step demo = .next t) ∧ (∃ t, step (demoWith [.read 0x4 4, .reset]) = .next t) ∧
      ∃ t, step (demoWith [.reset, .reset]) = .next t := ⟨⟨_, rfl⟩, ⟨_, rfl⟩, ⟨_, rfl⟩⟩

/-- StepStopsExactlyOnUndefinedAccess: both outcomes occur. -/
theorem witness_step_stops :
    (∃ t, step (demoWith [.read 0x2FFF 1]) = .fault t) ∧ (∃ t, step (demoWith [.read 0x3C 4]) = .next t) :=
  ⟨⟨_, rfl⟩, ⟨_, rfl⟩⟩

/-- RefusedAccessesStop: the inputs of every clause at both ends of its range, on `demo` at BASE 0. -/
theorem witness_refused_accesses :
    (∀ off ∈ [0x14, 0x1F, 0x40, 0xFFFF], (0x14 ≤ off ∧ off < 0x20) ∨ (0x40 ≤ off ∧ off < 0x10000)) ∧
      (demoWith [.read 0x14 4]).pending = .read ((demoWith [.read 0x14 4]).params.base + 0x14) 4 :: [] ∧
      (demoWith [.write 0xFFFF 1 9]).pending =
        .write ((demoWith [.write 0xFFFF 1 9]).params.base + 0xFFFF) 1 9 :: [] ∧
      (0x3C = 0x20 + 4 * 7) ∧
      (0x3F < 0x40 ∧ 0x3F % 4 ≠ 0) ∧
      (0x10000 ≤ 0x2FFFF ∧ 0x2FFFF < 0x30000) ∧
      ((demo.getReg (regNumbered 0)).length ≤ 2 ∧ 0x10002 = 0x10000 + 0x2000 * 0 + 2) ∧
      ((demo.getReg (regNumbered 7)).length ≤ 0x1FFF ∧ 0x1FFFF = 0x10000 + 0x2000 * 7 + 0x1FFF) ∧
      ((demo.getReg (regNumbered 2)).length ≤ 0 ∧ 0x14000 = 0x10000 + 0x2000 * 2 + 0) ∧
      (demo.params.smax ≤ 512 ∧ 0x20200 = 0x20000 + 512) := by
  decide

/-- ControlRegistersReadAsSpecified: each register, BLEN0 and BLEN7. -/
theorem witness_control_reads :
    ∀ off ∈ [0x4, 0x8, 0xC, 0x10, 0x20 + 4 * 0, 0x20 + 4 * 7],
      (demoWith [.read off 4]).Inv ∧
        (demoWith [.read off 4]).pending = .read ((demoWith [.read off 4]).params.base + off) 4 :: [] := by
  decide

/-- WidthAndSlenStoreSixteenBits, with data beyond 16 bits. -/
theorem witness_control_writes :
    ∀ off ∈ [0x8, 0xC], (demoWith [.write off 4 0x1FFFF]).pending =
      .write ((demoWith [.write off 4 0x1FFFF]).params.base + off) 4 0x1FFFF :: [] := by
  decide

/-- BufferWindowReadsAndWritesOneByte: the first byte of x0 and the last byte of x7. -/
theorem witness_buffer_window :
    0 < (demo.getReg (regNumbered 0)).length ∧ 1 < (demo.getReg (regNumbered 7)).length ∧
      (demoWith [.read 0x10000 1]).pending = .read (demo.params.base + (0x10000 + 0x2000 * 0 + 0)) 1 :: [] ∧
      (demoWith [.write 0x1E001 1 7]).pending = .write (demo.params.base + (0x10000 + 0x2000 * 7 + 1)) 1 7 :: [] := by
  decide

/-- StringWindowReadsAndWritesOneCharacter: the first and the last character. -/
theorem witness_string_window :
    511 < demo.params.smax ∧ (demoWith [.read 0x20000 1]).pending = .read (demo.params.base + (0x20000 + 0)) 1 :: [] ∧
      (demoWith [.write 0x201FF 1 7]).pending = .write (demo.params.base + (0x20000 + 511)) 1 7 :: [] := by
  decide

/-- WindowAccessesAreIdempotent: a byte written twice, a register read twice. -/
theorem witness_idempotent :
    (∃ t u, step (demoWith [.write 0x10001 1 9, .write 0x10001 1 9]) = .next t ∧ step t = .next u) ∧
      ∃ t u, step (demoWith [.read 0x3C 4, .read 0x3C 4]) = .next t ∧ step t = .next u :=
  ⟨⟨_, _, rfl, rfl⟩, ⟨_, _, rfl, rfl⟩⟩

/-- ZeroFollowsItsRule, MaxFollowsItsRule: WIDTH illegal at 0 and at NMAX + 1, legal at 1 and at NMAX. -/
theorem witness_creators :
    badWidth (demoWidth 0#16) ∧ badWidth (demoWidth 65#16) ∧ ¬ badWidth (demoWidth 1#16) ∧
      ¬ badWidth (demoWidth 64#16) := by
  unfold badWidth
  decide

/-- ResizeFollowsItsRule: an empty source, an illegal WIDTH, a shorter and a longer target. -/
theorem witness_resize :
    demo.getReg .x2 = [] ∧ badWidth (demoWidth 0#16) ∧
      ((demoWidth 1#16).getReg .x0 ≠ [] ∧ ¬ badWidth (demoWidth 1#16)) ∧
      ((demoWidth 64#16).getReg .x0 ≠ [] ∧ ¬ badWidth (demoWidth 64#16)) := by
  unfold badWidth
  decide

/-- SetFollowsItsRule, AndFollowsItsRule, OrFollowsItsRule, XorFollowsItsRule, AddFollowsItsRule, SubFollowsItsRule,
MulFollowsItsRule, CmpFollowsItsRule: an empty operand on either side, two lengths, one length. -/
theorem witness_two_sources :
    demo.getReg .x2 = [] ∧
      (demo.getReg .x0 ≠ [] ∧ demo.getReg .x5 ≠ [] ∧
        (demo.getReg .x0).length ≠ (demo.getReg .x5).length) ∧
      (demo.getReg .x0 ≠ [] ∧ (demo.getReg .x0).length = (demo.getReg .x1).length) := by
  decide

/-- DivFollowsItsRule, ModFollowsItsRule: as before, with a zero and a nonzero divisor. -/
theorem witness_division :
    demo.getReg .x2 = [] ∧
      (demo.getReg .x0 ≠ [] ∧ demo.getReg .x5 ≠ [] ∧
        (demo.getReg .x0).length ≠ (demo.getReg .x5).length) ∧
      (demo.getReg .x0 ≠ [] ∧ (demo.getReg .x0).length = (demo.getReg .x3).length ∧
        ∀ b ∈ demo.getReg .x3, b = 0#8) ∧
      (demo.getReg .x0 ≠ [] ∧ (demo.getReg .x0).length = (demo.getReg .x1).length ∧
        ¬ ∀ b ∈ demo.getReg .x1, b = 0#8) := by
  simp [demo, State.getReg, RegFile.get]

/-- NotFollowsItsRule, Lsh0FollowsItsRule, Lsh1FollowsItsRule, Rsh0FollowsItsRule, Rsh1FollowsItsRule,
IsZeroFollowsItsRule: an empty source and a value. -/
theorem witness_one_source : demo.getReg .x2 = [] ∧ demo.getReg .x0 ≠ [] := by decide

/-- ToStrFollowsItsRule: no base at 1 and 17, the three bases, an empty source and a value. -/
theorem witness_toStr :
    (¬ supportedBase (1#16).toNat ∧ ¬ supportedBase (17#16).toNat) ∧
      (supportedBase (2#16).toNat ∧ supportedBase (10#16).toNat ∧ supportedBase (16#16).toNat) ∧
      demo.getReg .x2 = [] ∧ demo.getReg .x0 ≠ [] := by
  unfold supportedBase
  decide

/-- FromStrFollowsItsRule: a bad WIDTH, SLEN above SMAX, SLEN at SMAX and 0, a malformed string, a numeral. -/
theorem witness_fromStr :
    supportedBase (2#16).toNat ∧ ¬ supportedBase (3#16).toNat ∧ badWidth (demoWidth 0#16) ∧
      demo.params.smax < (513#16).toNat ∧
      (¬ badWidth demo ∧ demo.slen.toNat ≤ demo.params.smax ∧
        IsNumeral 2 ((List.range demo.slen.toNat).map demo.charAt)) ∧
      (¬ badWidth (demoString []) ∧
        ¬ IsNumeral 2 ((List.range (demoString []).slen.toNat).map (demoString []).charAt)) ∧
      (¬ badWidth (demoString [0x31#8, 0x32#8]) ∧
        ¬ IsNumeral 2 ((List.range (demoString [0x31#8, 0x32#8]).slen.toNat).map
          (demoString [0x31#8, 0x32#8]).charAt)) := by
  unfold supportedBase badWidth IsNumeral
  decide

/-- ErrorsChangeNothingElse: a command that fails. -/
theorem witness_error :
    ∃ t, step (demoWith [.write 0 4 0x24003000]) = .next t ∧ t.status.err = 3#4 := ⟨_, rfl, rfl⟩

/-- EveryCommandReportsItsFirstError, its first four clauses: an illegal word; a bad base (with an empty source); an
empty source (with another length); two lengths (with a zero divisor). -/
theorem witness_first_errors :
    legalByFields 0#32 = false ∧
      (decode 0x40020008#32 = .ok (.toStr .x2 8#16) ∧ causesUnsupportedBase (.toStr .x2 8#16)) ∧
      (decode 0x20202000#32 = .ok (.add .x2 .x0 .x2) ∧ ¬ causesUnsupportedBase (.add .x2 .x0 .x2) ∧
        causesInvalidOperand (.add .x2 .x0 .x2) demo) ∧
      (decode 0x24253000#32 = .ok (.div .x2 .x5 .x3) ∧ ¬ causesUnsupportedBase (.div .x2 .x5 .x3) ∧
        ¬ causesInvalidOperand (.div .x2 .x5 .x3) demo ∧ causesLengthMismatch (.div .x2 .x5 .x3) demo) := by
  refine ⟨rfl, ⟨rfl, ?_⟩, ⟨rfl, ?_, ?_⟩, ⟨rfl, ?_, ?_, ?_⟩⟩ <;>
    simp [causesUnsupportedBase, causesInvalidOperand, causesLengthMismatch, baseOf, supportedBase, sourcesOf,
      isCreator, isFromStr, demo, State.getReg, RegFile.get]

/-- EveryCommandReportsItsFirstError, its last three clauses: a zero divisor; a malformed string; no error. -/
theorem witness_last_errors :
    (decode 0x24203000#32 = .ok (.div .x2 .x0 .x3) ∧ ¬ causesInvalidOperand (.div .x2 .x0 .x3) demo ∧
        ¬ causesLengthMismatch (.div .x2 .x0 .x3) demo ∧ causesDivisionByZero (.div .x2 .x0 .x3) demo) ∧
      (decode 0x41200002#32 = .ok (.fromStr .x2 2#16) ∧
        (∃ t, exec (.fromStr .x2 2#16) (demoString [0x32#8]) = .next t ∧ t.status.err = 1#4)) ∧
      (decode 0x20201000#32 = .ok (.add .x2 .x0 .x1) ∧
        ∃ t, exec (.add .x2 .x0 .x1) demo = .next t ∧ t.status.err = 0#4) := by
  refine ⟨⟨rfl, ?_, ?_, ?_⟩, ⟨rfl, _, rfl, rfl⟩, ⟨rfl, _, rfl, rfl⟩⟩ <;>
    simp [causesInvalidOperand, causesLengthMismatch, causesDivisionByZero, sourcesOf, isCreator, isFromStr, isDivision,
      demo, State.getReg, RegFile.get]

/-- EveryCommandReportsItsFirstError: the hypotheses of the InvalidFormat clause. -/
theorem witness_invalid_format :
    ¬ causesUnsupportedBase (.fromStr .x2 2#16) ∧
      ¬ causesInvalidOperand (.fromStr .x2 2#16) (demoString []) ∧
      ¬ causesLengthMismatch (.fromStr .x2 2#16) (demoString []) ∧
      ¬ causesDivisionByZero (.fromStr .x2 2#16) (demoString []) ∧
      causesInvalidFormat (.fromStr .x2 2#16) (demoString []) := by
  simp [causesUnsupportedBase, causesInvalidOperand, causesLengthMismatch, causesDivisionByZero, causesInvalidFormat,
    baseOf, supportedBase, sourcesOf, isCreator, isFromStr, isDivision, badWidth, IsNumeral, demoString, demo,
    State.setString, State.resetWith, Config.defaultParams]

/-- EachErrorHasItsCommands: each error occurs. -/
theorem witness_each_error :
    (∃ t, exec (.fromStr .x2 2#16) (demoString [0x32#8]) = .next t ∧ t.status.err = 1#4) ∧
      (∃ t, exec (.toStr .x0 8#16) demo = .next t ∧ t.status.err = 2#4) ∧
      (∃ t, exec (.mod .x2 .x0 .x3) demo = .next t ∧ t.status.err = 3#4) ∧
      (∃ t, exec (.set .x0 .x5) demo = .next t ∧ t.status.err = 4#4) :=
  ⟨⟨_, rfl, rfl⟩, ⟨_, rfl, rfl⟩, ⟨_, rfl, rfl⟩, ⟨_, rfl, rfl⟩⟩

/-- FlagsAreWrittenByTheirCommandOnly, NoCommandEmptiesARegister, CommandsTouchOnlyWhatTheyName,
EveryStepKeepsTheInvariant: a command that succeeds and fills an empty register, and a CMP that fails. -/
theorem witness_commands :
    demo.Inv ∧ demo.getReg .x2 = [] ∧
      (∃ t, exec (.add .x2 .x0 .x1) demo = .next t ∧ t.getReg .x2 = [0x08#8, 0x80#8]) ∧
      (∃ t, exec (.cmp .x0 .x5) demo = .next t ∧ t.status.err = 4#4) ∧
      ∃ t, step (demoWith [.write 0 4 0x20201000]) = .next t :=
  ⟨demo_inv, rfl, ⟨_, rfl, rfl⟩, ⟨_, rfl, rfl⟩, ⟨_, rfl⟩⟩

/-- LengthTagsChangeOnlyAtTheDestination: a creator, a command on sources, SET, a failing command, and a host write. -/
theorem witness_length_tags :
    (∃ t, exec (.max .x5) demo = .next t ∧ t.status.err = 0#4) ∧
      (∃ t, exec (.add .x5 .x0 .x1) demo = .next t ∧ t.status.err = 0#4) ∧
      (∃ t, exec (.set .x0 .x1) demo = .next t ∧ t.status.err = 0#4) ∧
      (∃ t, exec (.add .x2 .x0 .x5) demo = .next t ∧ t.status.err ≠ 0#4) ∧
      ∃ t, step (demoWith [.write 0x10001 1 9]) = .next t :=
  ⟨⟨_, rfl, rfl⟩, ⟨_, rfl, rfl⟩, ⟨_, rfl, rfl⟩, ⟨_, rfl, by decide⟩, ⟨_, rfl⟩⟩

/-- ResultsDependOnlyOnNamedOperands: ADD on two states that differ in an unnamed register, WIDTH and STATUS; FROMSTR on
two that differ in STATUS and the registers. -/
theorem witness_same_operands :
    SameOperands (.add .x2 .x0 .x1) demo { (demo.setReg .x7 []) with width := 9#16, status := ⟨0#4, 0#2, false⟩ } ∧
      SameOperands (.fromStr .x2 16#16) demo { (demo.setReg .x7 []) with status := ⟨0#4, 0#2, false⟩ } := by
  refine ⟨⟨rfl, ?_, ?_, ?_⟩, ⟨rfl, ?_, fun _ => rfl, fun _ => ⟨rfl, fun _ _ => rfl⟩⟩⟩
  · intro r hr
    fin_cases hr <;> rfl
  · exact fun h => by cases h
  · exact fun h => by cases h
  · exact fun r hr => by cases hr

/-- ResultsDependOnlyOnNamedOperands: commands of the flag and string clauses that succeed. -/
theorem witness_same_operands_flags :
    (∃ t, exec (.cmp .x0 .x1) demo = .next t ∧ t.status.err = 0#4) ∧
      (∃ t, exec (.isZero .x3) demo = .next t ∧ t.status.err = 0#4) ∧
      ∃ t, exec (.toStr .x0 16#16) demo = .next t ∧ t.status.err = 0#4 :=
  ⟨⟨_, rfl, rfl⟩, ⟨_, rfl, rfl⟩, ⟨_, rfl, rfl⟩⟩

/-- PrimitivesObeyTheirLaws: N below, at and above the length of A, and at NMAX. -/
theorem witness_primitive_laws :
    demo.Inv ∧ demo.getReg .x0 ≠ [] ∧
      ∀ n ∈ [1, 2, 3, 64], 1 ≤ (BitVec.ofNat 16 n).toNat ∧ (BitVec.ofNat 16 n).toNat ≤ demo.params.nmax := by
  decide

/-- ShiftsObeyTheirLaws: counts whose sum is the largest. -/
theorem witness_shift_laws :
    demo.getReg .x0 ≠ [] ∧ Reg.x2 ≠ Reg.x1 ∧ (65534#16).toNat + (1#16).toNat ≤ 65535 := by
  decide

/-- AddAndSubObeyTheirLaws, MulObeysItsLaws, CompareIsATotalOrder, every clause of each: a = x0, b = x1, c = x7, one = x4, zero = x3, power =
x6 = 2^1, r = x2, q = x5. -/
theorem witness_arithmetic_laws :
    demo.getReg .x0 ≠ [] ∧
      (∀ r ∈ [Reg.x1, Reg.x7, Reg.x4, Reg.x3, Reg.x6], (demo.getReg .x0).length = (demo.getReg r).length) ∧
      val (demo.getReg .x4) = 1 ∧ val (demo.getReg .x3) = 0 ∧ val (demo.getReg .x6) = 2 ^ (1#16).toNat ∧
      val (demo.getReg .x1) ≠ 0 ∧
      Reg.x2 ≠ Reg.x0 ∧ Reg.x2 ≠ Reg.x1 ∧ Reg.x2 ≠ Reg.x7 ∧ Reg.x2 ≠ Reg.x4 ∧ Reg.x5 ≠ Reg.x0 ∧ Reg.x5 ≠ Reg.x1 ∧
      Reg.x5 ≠ Reg.x7 ∧ Reg.x5 ≠ Reg.x2 := by
  decide

/-- CompareIsATotalOrder: the chain of its transitivity clause, 1 < 7 < 32769. -/
theorem witness_compare_chain :
    (∃ t, exec (.cmp .x4 .x1) demo = .next t ∧ t.status.err = 0#4 ∧ t.status.cmp = 0b11#2) ∧
      ∃ t, exec (.cmp .x1 .x0) demo = .next t ∧ t.status.err = 0#4 ∧ t.status.cmp = 0b11#2 :=
  ⟨⟨_, rfl, rfl, rfl⟩, ⟨_, rfl, rfl, rfl⟩⟩

/-- DivisionIdentityHoldsExactly. -/
theorem witness_division_identity :
    [Reg.x0, Reg.x1, Reg.x2, Reg.x5, Reg.x6].Nodup ∧ demo.getReg .x0 ≠ [] ∧
      (demo.getReg .x0).length = (demo.getReg .x1).length ∧ val (demo.getReg .x1) ≠ 0 := by
  decide

/-- BufferToStringAndBack. -/
theorem witness_buffer_round_trip :
    demo.Inv ∧ demo.getReg .x0 ≠ [] ∧ demo.width.toNat = (demo.getReg .x0).length ∧
      supportedBase (10#16).toNat :=
  ⟨demo_inv, by decide, by decide, .inr (.inl rfl)⟩

/-- DecimalStringToBufferAndBack, HexAndBinaryStringsToBufferAndBack: "10" is a numeral in every base. -/
theorem witness_string_round_trip :
    demo.Inv ∧ ¬ badWidth demo ∧ demo.slen.toNat ≤ demo.params.smax ∧
      (∀ base ∈ [2, 10, 16], IsNumeral base ((List.range demo.slen.toNat).map demo.charAt)) ∧
      ∀ base ∈ [2, 10, 16], numeralValue base ((List.range demo.slen.toNat).map demo.charAt) <
        2 ^ (8 * demo.width.toNat) := by
  unfold badWidth IsNumeral
  decide

/-- StringsOfBuffersFit: the three bases, and the decimal clauses at N = 16, 32 and 64. -/
theorem witness_strings_fit :
    (∃ t, exec (.toStr .x0 16#16) demo = .next t) ∧ (∃ t, exec (.toStr .x0 2#16) demo = .next t) ∧
      ∀ n ∈ [16, 32, 64], (start (List.replicate n 0x00#8) [] [] 0).Inv ∧
        ((start (List.replicate n 0x00#8) [] [] 0).getReg .x0).length = n ∧
        ((after (start (List.replicate n 0x00#8) [] [] 0) 0x4000000A).isSome = true) :=
  ⟨⟨_, rfl⟩, ⟨_, rfl⟩, by decide⟩

/-- HardwareResetLeavesTheResetState. -/
theorem witness_hardware_reset : (demoWith [.reset, .read 0x4 4]).pending = .reset :: [.read 0x4 4] := rfl

/-- AfterResetOnlyCreatorsCanSucceed: legal parameters, the two ends of WIDTH, a RESIZE, and a FROMSTR whose string is a
numeral. -/
theorem witness_after_reset :
    Config.defaultParams.wellFormed = true ∧ 1 ≤ (1#16).toNat ∧ (64#16).toNat ≤ Config.defaultParams.nmax ∧
      (∃ t, exec (.zero .x0) { State.resetWith Config.defaultParams with width := 1#16 } = .next t) ∧
      (∃ t, exec (.resize .x0 .x1) { State.resetWith Config.defaultParams with width := 64#16 } = .next t ∧
        t.status.err = 6#4) ∧
      supportedBase (2#16).toNat ∧ (1#16).toNat ≤ Config.defaultParams.smax ∧
      let s : State := { State.resetWith Config.defaultParams with width := 1#16, slen := 1#16, str := [(0, 0x31#8)] }
      IsNumeral 2 ((List.range (1#16).toNat).map s.charAt) ∧
        ∃ t, exec (.fromStr .x0 2#16) s = .next t ∧ t.status.err = 0#4 := by
  refine ⟨rfl, by decide, by decide, ⟨_, rfl⟩, ⟨_, rfl, rfl⟩, .inl rfl, by decide, ?_, ⟨_, rfl, rfl⟩⟩
  unfold IsNumeral
  decide

/-- LoadSequenceLoadsTheRegister: one byte into x7, a further input after it. -/
theorem witness_load_sequence :
    let s := demoWith [.write 0x8 4 1, .write 0 4 0x01700000, .write 0x1E000 1 0x2A, .reset]
    s.Inv ∧ [0x2A#8] ≠ [] ∧ [0x2A#8].length ≤ s.params.nmax ∧
      s.pending =
        .write (s.params.base + 0x8) 4 [0x2A#8].length :: .write s.params.base 4 (encode (.zero .x7)).toNat ::
          ((List.range [0x2A#8].length).map (fun j =>
            .write (s.params.base + (0x10000 + 0x2000 * regNumber .x7 + j)) 1 ([0x2A#8].getD j 0#8).toNat) ++
            [.reset]) := by
  decide

/-- UnwrittenCharactersAreStable, NoStepChangesTheParameters: a step that writes S[0] and not S[100]. -/
theorem witness_unwritten :
    (∃ t, step (demoWith [.write 0x20000 1 0x41]) = .next t) ∧
      (servedState demo (.write 0x20000 1 0x41)).map (fun t => (t.resets, t.str.read 100)) =
        some (demo.resets, none) :=
  ⟨⟨_, rfl⟩, by decide⟩

/-- ResetMeetsTheInvariant: the parameters of State.reset, and the largest ones. -/
theorem witness_reset_inv :
    Config.defaultParams.wellFormed = true ∧ Params.wellFormed ⟨8191, 65535, 0x40000⟩ = true := ⟨rfl, rfl⟩

end Sys2Proof.Tests
end

section
/-!
PROOFS. What a command and a step can do, said once: `exec_ends` and `step_cases` list the states that can follow. That
no step changes the parameters and that every step keeps the invariant are read off these lists.
-/

namespace Sys2Proof.Proofs
open Sys2Proof.Machine Sys2Proof.Laws

/-! ## The operand checks and the parser, from their answers -/

theorem of_sourceOperand_ok {s : State} {r : Reg} {a : Buffer} (h : sourceOperand s r = .ok a) :
    s.getReg r ≠ [] ∧ a = s.getReg r := by
  rw [sourceOperand_eq] at h
  split at h
  · cases h
  · cases h; exact ⟨‹_›, rfl⟩

theorem of_operandPair_ok {s : State} {ra rb : Reg} {a b : Buffer} (h : operandPair s ra rb = .ok (a, b)) :
    s.getReg ra ≠ [] ∧ (s.getReg ra).length = (s.getReg rb).length ∧ a = s.getReg ra ∧ b = s.getReg rb := by
  rw [operandPair_eq] at h
  split at h
  · cases h
  · rename_i hne
    split at h
    · cases h
    · rename_i hl
      cases h
      exact ⟨fun ha => hne (.inl ha), not_not.mp hl, rfl, rfl⟩

theorem of_declaredWidth_ok {s : State} {n : Nat} (h : declaredWidth s = .ok n) :
    ¬ badWidth s ∧ n = s.width.toNat := by
  unfold declaredWidth at h
  split at h
  · cases h
  · cases h; exact ⟨‹_›, rfl⟩

/-- FROMSTR's result has the declared length (spec/46_base_conversion.md R206). -/
theorem length_of_parseString_ok {base : Base} {n : Nat} {cs : List Byte} {r : Buffer}
    (h : parseString base n cs = .ok r) : r.length = n := by
  unfold parseString at h
  split at h
  · cases h
  · split at h
    · cases h
    · cases h; exact length_bufOf _ _

/-! ## How a command ends -/

/-- The states in which the command `i` can end from `s`: with an error and no other effect (spec/60_exceptions.md
R232), or with success and its one effect (spec/10_state.md R38). A result is as long as every source, or, for a
creator, as long as a legal WIDTH says (R23). -/
inductive CommandEnd (i : Instr) (s : State) : State → Prop
  | failed (e : ErrorKind) : CommandEnd i s (s.setErr e.code)
  | computed {rd ra : Reg} {b : Buffer} (hd : destinationOf i = some rd) (hc : isCreator i = false)
      (ha : ra ∈ sourcesOf i) (hl : ∀ q ∈ sourcesOf i, s.getReg q ≠ [] ∧ b.length = (s.getReg q).length) :
      CommandEnd i s ((s.setReg rd b).setErr 0#4)
  | created {rd : Reg} {b : Buffer} (hd : destinationOf i = some rd) (hc : isCreator i = true)
      (hw : ¬ badWidth s) (hl : b.length = s.width.toNat) : CommandEnd i s ((s.setReg rd b).setErr 0#4)
  | compared {c : BitVec 2} (hi : isCmp i = true) (hc : c ≠ 0b10#2) : CommandEnd i s ((s.setCmp c).setErr 0#4)
  | tested (z : Bool) (hi : isIsZero i = true) : CommandEnd i s ((s.setZ z).setErr 0#4)
  | converted (base : Base) {ra : Reg} (hi : isToStr i = true) (ha : s.getReg ra ≠ []) :
      CommandEnd i s ((s.setString (stringOf base (s.getReg ra))).setErr 0#4)

section shapes
variable {i : Instr} {s t : State} {rd ra rb : Reg}

theorem CommandEnd.of_raise {e : ErrorKind} (h : raise e s = .next t) : CommandEnd i s t := by
  cases h; exact .failed e

theorem unaryCommand_ends {f : Buffer → Buffer} (h : unaryCommand f rd ra s = .next t)
    (hf : ∀ a, (f a).length = a.length) (hd : destinationOf i = some rd) (hc : isCreator i = false)
    (hs : sourcesOf i = [ra]) : CommandEnd i s t := by
  obtain ⟨-, rfl⟩ | ⟨ha, rfl⟩ := unaryCommand_cases h
  · exact .failed .invalidOperand
  · exact .computed (ra := ra) hd hc (by simp [hs]) (by simp [hs, ha, hf])

/-- A result of the common length of two sources that passed the pair check. -/
theorem CommandEnd.of_pair {b : Buffer} (ha : s.getReg ra ≠ [])
    (hab : (s.getReg ra).length = (s.getReg rb).length) (hb : b.length = (s.getReg ra).length)
    (hd : destinationOf i = some rd) (hc : isCreator i = false) (hs : sourcesOf i = [ra, rb]) :
    CommandEnd i s ((s.setReg rd b).setErr 0#4) := by
  have hrb : s.getReg rb ≠ [] := List.ne_nil_of_length_pos (hab ▸ List.length_pos_iff.mpr ha)
  exact .computed (ra := ra) hd hc (by simp [hs]) (by simp [hs, ha, hrb, hb, hab])

theorem binaryCommand_ends {f : Buffer → Buffer → Buffer} (h : binaryCommand f rd ra rb s = .next t)
    (hf : ∀ a b : Buffer, a.length = b.length → (f a b).length = a.length)
    (hd : destinationOf i = some rd) (hc : isCreator i = false) (hs : sourcesOf i = [ra, rb]) :
    CommandEnd i s t := by
  obtain ⟨-, rfl⟩ | ⟨-, -, -, rfl⟩ | ⟨ha, hab, rfl⟩ := binaryCommand_cases h
  · exact .failed .invalidOperand
  · exact .failed .lengthMismatch
  · exact .of_pair ha hab (hf _ _ hab) hd hc hs

theorem divideCommand_ends {w : Bool} (h : divideCommand w rd ra rb s = .next t)
    (hd : destinationOf i = some rd) (hc : isCreator i = false) (hs : sourcesOf i = [ra, rb]) :
    CommandEnd i s t := by
  obtain ⟨-, rfl⟩ | ⟨-, -, -, rfl⟩ | ⟨-, -, -, rfl⟩ | ⟨ha, hab, hz, rfl⟩ := divideCommand_cases h
  · exact .failed .invalidOperand
  · exact .failed .lengthMismatch
  · exact .failed .divisionByZero
  · refine .of_pair ha hab ?_ hd hc hs
    have hv : val (s.getReg rb) ≠ 0 := by simpa [hz] using (allZero_iff (s.getReg rb)).not
    cases w
    · exact (divide_spec _ _ hv).2.1
    · exact length_bufOf _ _

theorem creatorCommand_ends {f : Nat → Buffer} (h : creatorCommand f rd s = .next t)
    (hf : ∀ n, (f n).length = n) (hd : destinationOf i = some rd) (hc : isCreator i = true) :
    CommandEnd i s t := by
  obtain ⟨-, rfl⟩ | ⟨h1, h2, rfl⟩ := creatorCommand_cases h
  · exact .failed .invalidOperand
  · exact .created hd hc (fun hw => by cases hw <;> omega) (hf _)

theorem execResize_ends (h : execResize rd ra s = .next t) : CommandEnd (.resize rd ra) s t := by
  unfold execResize at h
  split at h
  · exact .of_raise h
  · exact creatorCommand_ends h (fun n => length_resizeBuffer n _) rfl rfl

theorem execSet_ends (h : execSet rd ra s = .next t) : CommandEnd (.set rd ra) s t := by
  unfold execSet at h
  split at h
  · exact .of_raise h
  · rename_i hp
    obtain ⟨hne, hl, -, rfl⟩ := of_operandPair_ok hp
    cases h
    exact .of_pair hne hl hl.symm rfl rfl rfl

theorem execCmp_ends (h : execCmp ra rb s = .next t) : CommandEnd (.cmp ra rb) s t := by
  unfold execCmp at h
  split at h
  · exact .of_raise h
  · cases h; exact .compared rfl (compareCode_legal _ _)

theorem execIsZero_ends (h : execIsZero ra s = .next t) : CommandEnd (.isZero ra) s t := by
  unfold execIsZero at h
  split at h
  · exact .of_raise h
  · cases h; exact .tested _ rfl

theorem execToStr_ends {b : Half} (h : execToStr ra b s = .next t) : CommandEnd (.toStr ra b) s t := by
  unfold execToStr at h
  split at h
  · exact .of_raise h
  · split at h
    · exact .of_raise h
    · rename_i hp
      obtain ⟨hne, rfl⟩ := of_sourceOperand_ok hp
      cases h
      exact .converted _ rfl hne

theorem execFromStr_ends {b : Half} (h : execFromStr rd b s = .next t) : CommandEnd (.fromStr rd b) s t := by
  unfold execFromStr at h
  split at h
  · exact .of_raise h
  · split at h
    · exact .of_raise h
    · rename_i hn
      obtain ⟨hw, rfl⟩ := of_declaredWidth_ok hn
      split at h
      · exact .of_raise h
      · split at h
        · exact .of_raise h
        · rename_i hr
          cases h
          exact .created rfl rfl hw (length_of_parseString_ok hr)

end shapes

/-- Everything a command can do. -/
theorem exec_ends {i : Instr} {s t : State} (h : exec i s = .next t) : CommandEnd i s t := by
  cases i with
  | zero rd => exact creatorCommand_ends h length_zeroBuffer rfl rfl
  | max rd => exact creatorCommand_ends h length_maxBuffer rfl rfl
  | resize rd ra => exact execResize_ends h
  | set rd ra => exact execSet_ends h
  | not rd ra => exact unaryCommand_ends h length_notBuffer rfl rfl rfl
  | and rd ra rb => exact binaryCommand_ends h length_andBuffer rfl rfl rfl
  | or rd ra rb => exact binaryCommand_ends h length_orBuffer rfl rfl rfl
  | xor rd ra rb => exact binaryCommand_ends h length_xorBuffer rfl rfl rfl
  | lsh0 rd ra k => exact unaryCommand_ends h (length_leftShift false _) rfl rfl rfl
  | lsh1 rd ra k => exact unaryCommand_ends h (length_leftShift true _) rfl rfl rfl
  | rsh0 rd ra k => exact unaryCommand_ends h (length_rightShift false _) rfl rfl rfl
  | rsh1 rd ra k => exact unaryCommand_ends h (length_rightShift true _) rfl rfl rfl
  | add rd ra rb => exact binaryCommand_ends h length_addBuffer rfl rfl rfl
  | sub rd ra rb => exact binaryCommand_ends h length_subBuffer rfl rfl rfl
  | mul rd ra rb => exact binaryCommand_ends h length_mulBuffer rfl rfl rfl
  | div rd ra rb => exact divideCommand_ends h rfl rfl rfl
  | mod rd ra rb => exact divideCommand_ends h rfl rfl rfl
  | cmp ra rb => exact execCmp_ends h
  | isZero ra => exact execIsZero_ends h
  | toStr ra b => exact execToStr_ends h
  | fromStr rd b => exact execFromStr_ends h

/-- A command word runs its command, or is illegal and sets ERR to 5 (spec/30_encoding.md R89). -/
theorem runCommand_cases {w : Word} {s t : State} (h : runCommand w s = .next t) :
    (∃ i, decode w = .ok i ∧ exec i s = .next t) ∨ ((∃ e, decode w = .error e) ∧ t = s.setErr 5#4) := by
  unfold runCommand at h
  split at h
  · exact .inl ⟨_, ‹_›, h⟩
  · cases h; exact .inr ⟨⟨_, ‹_›⟩, rfl⟩

/-! ## How a step ends -/

/-- A step idles, or takes the next input off the list and serves it (spec/20_memory.md R60). -/
theorem step_cases {s t : State} (h : step s = .next t) :
    (s.pending = [] ∧ t = s) ∨
      ∃ i rest, s.pending = i :: rest ∧ serve { s with pending := rest } i = .next t := by
  unfold step at h
  split at h
  · cases h; exact .inl ⟨‹_›, rfl⟩
  · exact .inr ⟨_, _, ‹_›, h⟩

/-- What every update of the state keeps, every step keeps: the updates are those of the commands and of the host
window, the answer, the hardware reset, and taking an input off the list. -/
theorem step_preserves {P : State → Prop}
    (hexec : ∀ {i s t}, CommandEnd i s t → P s → P t)
    (herr : ∀ {s} (e : ErrorKind), P s → P (s.setErr e.code))
    (hstore : ∀ {s u addr n v}, hostWrite s addr n v = .ok (.stored u) → P s → P u)
    (hanswer : ∀ {s} (a : Answer), P s → P (s.answer a))
    (hreset : ∀ {s : State}, P s → P s.hardReset)
    (hpending : ∀ {s : State} (l : List Input), P s → P { s with pending := l })
    {s t : State} (hs : P s) (h : step s = .next t) : P t := by
  obtain ⟨-, rfl⟩ | ⟨i, rest, -, h⟩ := step_cases h
  · exact hs
  have hs := hpending rest hs
  cases i with
  | read addr n =>
    obtain ⟨a, -, rfl⟩ := serveRead_cases h
    exact hanswer a hs
  | write addr n v =>
    obtain ⟨u, hu, rfl⟩ | ⟨w, u, -, hu, rfl⟩ := serveWrite_cases h
    · exact hanswer _ (hstore hu hs)
    · obtain ⟨i, -, hi⟩ | ⟨-, rfl⟩ := runCommand_cases hu
      · exact hanswer _ (hexec (exec_ends hi) hs)
      · exact hanswer _ (herr .illegalCommand hs)
  | reset =>
    cases h
    exact hreset hs

/-! ## The parameters -/

theorem CommandEnd.params_eq {i : Instr} {s t : State} (h : CommandEnd i s t) : t.params = s.params := by
  cases h <;> rfl

theorem hostWrite_stored_params {s u : State} {addr n v : Nat} (h : hostWrite s addr n v = .ok (.stored u)) :
    u.params = s.params := by
  obtain rfl | rfl | ⟨r, j, -, rfl⟩ | ⟨k, -, rfl⟩ := hostWrite_stored h <;> rfl

theorem step_params {s t : State} (h : step s = .next t) : t.params = s.params :=
  step_preserves (P := fun u => u.params = s.params)
    (fun hc hs => hc.params_eq.trans hs) (fun _ hs => hs)
    (fun hw hs => (hostWrite_stored_params hw).trans hs)
    (fun _ hs => hs) (fun hs => hs) (fun _ hs => hs) rfl h

/-- Settles O58: no update of a step writes the parameters, and CAP is read off them alone. -/
theorem noStepChangesTheParameters : Obligations.NoStepChangesTheParameters := fun _ _ h =>
  ⟨step_params h, congrArg capWord (step_params h)⟩

/-! ## The invariant under each update -/

/-- The invariant speaks of the registers, S, STATUS and the parameters only. -/
theorem inv_congr {s t : State} (hs : s.Inv) (hx : t.x = s.x) (hstr : t.str = s.str)
    (hst : t.status = s.status) (hp : t.params = s.params) : t.Inv := by
  simpa only [State.Inv, State.getReg, hx, hstr, hst, hp] using hs

theorem status_legal_iff (st : Status) : st.legal = true ↔ st.err.toNat ≤ 6 ∧ st.cmp ≠ 0b10#2 := by
  simp [Status.legal]

/-- The codes of R230 are 1 to 6. -/
theorem code_le_six (e : ErrorKind) : e.code.toNat ≤ 6 := by cases e <;> decide

theorem eight_nmax_le_smax {p : Params} (h : p.wellFormed = true) : 8 * p.nmax ≤ p.smax := by
  simp only [Params.wellFormed, Bool.and_eq_true, decide_eq_true_eq] at h
  obtain ⟨⟨⟨_, hle⟩, _⟩, _⟩ := h
  exact hle

section updates
variable {s : State}

theorem inv_length_le (hs : s.Inv) (r : Reg) : (s.getReg r).length ≤ s.params.nmax := by
  obtain ⟨-, hr, -⟩ := hs
  exact hr r (mem_all r)

theorem inv_setErr {e : BitVec 4} (he : e.toNat ≤ 6) (hs : s.Inv) : (s.setErr e).Inv := by
  obtain ⟨hp, hr, hwf, hb, hst⟩ := hs
  exact ⟨hp, hr, hwf, hb, (status_legal_iff _).mpr ⟨he, ((status_legal_iff _).mp hst).2⟩⟩

theorem inv_setCmp {c : BitVec 2} (hc : c ≠ 0b10#2) (hs : s.Inv) : (s.setCmp c).Inv := by
  obtain ⟨hp, hr, hwf, hb, hst⟩ := hs
  exact ⟨hp, hr, hwf, hb, (status_legal_iff _).mpr ⟨((status_legal_iff _).mp hst).1, hc⟩⟩

theorem inv_setZ (z : Bool) (hs : s.Inv) : (s.setZ z).Inv := hs

theorem inv_setReg {rd : Reg} {b : Buffer} (hb : b.length ≤ s.params.nmax) (hs : s.Inv) : (s.setReg rd b).Inv := by
  obtain ⟨hp, hr, hrest⟩ := hs
  refine ⟨hp, fun r hmem => ?_, hrest⟩
  by_cases heq : r = rd
  · subst heq; simpa using hb
  · rw [setReg_getReg_other _ _ _ heq]; exact hr r hmem

theorem inv_setChar {k : Nat} (c : Byte) (hk : k < s.params.smax) (hs : s.Inv) : (s.setChar k c).Inv := by
  obtain ⟨hp, hr, hwf, hb, hst⟩ := hs
  exact ⟨hp, hr, wf_write _ _ _ hwf, below_write _ _ _ _ hk hb, hst⟩

theorem inv_setString {cs : List Byte} (hl : cs.length ≤ s.params.smax) (hs : s.Inv) : (s.setString cs).Inv := by
  obtain ⟨hp, hr, hwf, hb, hst⟩ := hs
  exact ⟨hp, hr, wf_writeFrom _ _ _ hwf, below_writeFrom _ _ _ _ (by rwa [Nat.zero_add]) hb, hst⟩

theorem inv_hardReset (hs : s.Inv) : s.hardReset.Inv :=
  ⟨hs.1, fun r _ => by simp, rfl, rfl, rfl⟩

/-- A string of TOSTR fits into S within the invariant (R205, R6). -/
theorem inv_length_stringOf_le (hs : s.Inv) (base : Base) {ra : Reg} (ha : s.getReg ra ≠ []) :
    (stringOf base (s.getReg ra)).length ≤ s.params.smax :=
  calc (stringOf base (s.getReg ra)).length ≤ 8 * (s.getReg ra).length := length_stringOf_le base _ ha
    _ ≤ 8 * s.params.nmax := Nat.mul_le_mul_left 8 (inv_length_le hs ra)
    _ ≤ s.params.smax := eight_nmax_le_smax hs.1

end updates

/-! ## The invariant under each step -/

theorem CommandEnd.inv {i : Instr} {s t : State} (h : CommandEnd i s t) (hs : s.Inv) : t.Inv := by
  cases h with
  | failed e => exact inv_setErr (code_le_six e) hs
  | computed _ _ ha hl =>
    exact inv_setErr (Nat.zero_le 6) (inv_setReg ((hl _ ha).2.trans_le (inv_length_le hs _)) hs)
  | created _ _ hw hl =>
    exact inv_setErr (Nat.zero_le 6) (inv_setReg (by rw [badWidth] at hw; omega) hs)
  | compared _ hc => exact inv_setErr (Nat.zero_le 6) (inv_setCmp hc hs)
  | tested z _ => exact inv_setErr (Nat.zero_le 6) (inv_setZ z hs)
  | converted base _ ha =>
    exact inv_setErr (Nat.zero_le 6) (inv_setString (inv_length_stringOf_le hs base ha) hs)

/-- A host write stores within the bounds: a byte below a register's length, a character below SMAX (R57). -/
theorem hostWrite_stored_inv {s u : State} {addr n v : Nat} (h : hostWrite s addr n v = .ok (.stored u))
    (hs : s.Inv) : u.Inv := by
  obtain rfl | rfl | ⟨r, j, -, rfl⟩ | ⟨k, hk, rfl⟩ := hostWrite_stored h
  · exact inv_congr hs rfl rfl rfl rfl
  · exact inv_congr hs rfl rfl rfl rfl
  · exact inv_setReg (by simpa [setBufferByte] using inv_length_le hs r) hs
  · exact inv_setChar _ hk hs

/-- Settles O59, from the invariant under each update. -/
theorem everyStepKeepsTheInvariant : Obligations.EveryStepKeepsTheInvariant := fun _ _ hs h =>
  step_preserves CommandEnd.inv (fun e => inv_setErr (code_le_six e)) hostWrite_stored_inv
    (fun _ hs => inv_congr hs rfl rfl rfl rfl) inv_hardReset
    (fun _ hs => inv_congr hs rfl rfl rfl rfl) hs h

end Sys2Proof.Proofs
end

section
/-!
PROOFS. What a command does, as a function of what it names: `exec_alike` says that every command answers a next state,
and that two states which agree on the named operands meet the same effect.
-/

namespace Sys2Proof.Proofs
open Sys2Proof.Machine Sys2Proof.Laws

/-! ## The effect of a command -/

/-- The one thing a command does to the state it runs on, beside setting STATUS.ERR (spec/10_state.md R38,
spec/60_exceptions.md R232). -/
inductive Effect where
  | fails (e : ErrorKind)
  | writes (rd : Reg) (b : Buffer)
  | compares (c : BitVec 2)
  | tests (z : Bool)
  | spells (cs : List Byte)

/-- The state a command of this effect leaves. -/
def Effect.apply (s : State) : Effect → State
  | .fails e => s.setErr e.code
  | .writes rd b => (s.setReg rd b).setErr 0#4
  | .compares c => (s.setCmp c).setErr 0#4
  | .tests z => (s.setZ z).setErr 0#4
  | .spells cs => (s.setString cs).setErr 0#4

/-- Where the command succeeds, its effect is of the command's own kind: its destination, CMP's flag, ISZERO's flag, or
TOSTR's string. -/
def Effect.Fits (i : Instr) : Effect → Prop
  | .fails _ => True
  | .writes rd _ => destinationOf i = some rd ∧ isCmp i = false ∧ isIsZero i = false ∧ isToStr i = false
  | .compares _ => destinationOf i = none ∧ isCmp i = true ∧ isIsZero i = false ∧ isToStr i = false
  | .tests _ => destinationOf i = none ∧ isCmp i = false ∧ isIsZero i = true ∧ isToStr i = false
  | .spells _ => destinationOf i = none ∧ isCmp i = false ∧ isIsZero i = false ∧ isToStr i = true

/-- A command with a destination writes no flag and not S (spec/10_state.md R25, R38). -/
theorem Effect.fits_writes {i : Instr} {rd : Reg} {b : Buffer} (hd : destinationOf i = some rd) :
    (Effect.writes rd b).Fits i := by
  cases i with
  | cmp => cases hd
  | isZero => cases hd
  | toStr => cases hd
  | _ => exact ⟨hd, rfl, rfl, rfl⟩

/-- The command `i`, whose meaning is `run`, has one and the same effect on `s` and on `u`. -/
def ActsAlike (i : Instr) (run : State → Outcome) (s u : State) : Prop :=
  ∃ e : Effect, e.Fits i ∧ run s = .next (e.apply s) ∧ run u = .next (e.apply u)

/-! ## The operand checks on two states that agree on the operands -/

section shapes
variable {i : Instr} {s u : State} {rd ra rb : Reg}

theorem SameOperands.refl (i : Instr) (s : State) : SameOperands i s s :=
  ⟨rfl, fun _ _ => rfl, fun _ => rfl, fun _ => ⟨rfl, fun _ _ => rfl⟩⟩

theorem getReg_eq_of_sameOperands (h : SameOperands i s u) (ha : ra ∈ sourcesOf i) :
    s.getReg ra = u.getReg ra := by
  obtain ⟨-, hr, -⟩ := h
  exact hr ra ha

theorem sourceOperand_eq_of_sameOperands (h : SameOperands i s u) (hs : sourcesOf i = [ra]) :
    sourceOperand s ra = sourceOperand u ra := by
  have ha : s.getReg ra = u.getReg ra := getReg_eq_of_sameOperands h (by simp [hs])
  rw [sourceOperand_eq, sourceOperand_eq, ha]

theorem operandPair_eq_of_sameOperands (h : SameOperands i s u) (hs : sourcesOf i = [ra, rb]) :
    operandPair s ra rb = operandPair u ra rb := by
  have ha : s.getReg ra = u.getReg ra := getReg_eq_of_sameOperands h (by simp [hs])
  have hb : s.getReg rb = u.getReg rb := getReg_eq_of_sameOperands h (by simp [hs])
  rw [operandPair_eq, operandPair_eq, ha, hb]

theorem declaredWidth_eq_of_sameOperands (h : SameOperands i s u) (hc : isCreator i = true) :
    declaredWidth s = declaredWidth u := by
  obtain ⟨hp, -, hw, -⟩ := h
  rw [declaredWidth, declaredWidth, hp, hw hc]

theorem stringOperand_eq_of_sameOperands (h : SameOperands i s u) (hf : isFromStr i = true) :
    stringOperand s = stringOperand u := by
  obtain ⟨hp, -, -, hstr⟩ := h
  obtain ⟨hlen, hchars⟩ := hstr hf
  have hcs : s.chars s.slen.toNat = u.chars s.slen.toNat :=
    List.map_congr_left fun k hk => hchars k (List.mem_range.mp hk)
  rw [stringOperand, stringOperand, hcs, hp, hlen]

/-! ## The command shapes on two such states -/

theorem unaryCommand_alike {f : Buffer → Buffer} (h : SameOperands i s u) (hs : sourcesOf i = [ra])
    (hd : destinationOf i = some rd) : ActsAlike i (unaryCommand f rd ra) s u := by
  unfold ActsAlike unaryCommand
  rw [sourceOperand_eq_of_sameOperands h hs]
  cases sourceOperand u ra with
  | error e => exact ⟨.fails e, trivial, rfl, rfl⟩
  | ok a => exact ⟨.writes rd (f a), Effect.fits_writes hd, rfl, rfl⟩

theorem binaryCommand_alike {f : Buffer → Buffer → Buffer} (h : SameOperands i s u)
    (hs : sourcesOf i = [ra, rb]) (hd : destinationOf i = some rd) :
    ActsAlike i (binaryCommand f rd ra rb) s u := by
  unfold ActsAlike binaryCommand
  rw [operandPair_eq_of_sameOperands h hs]
  cases operandPair u ra rb with
  | error e => exact ⟨.fails e, trivial, rfl, rfl⟩
  | ok p => exact ⟨.writes rd (f p.1 p.2), Effect.fits_writes hd, rfl, rfl⟩

theorem divideCommand_alike {w : Bool} (h : SameOperands i s u)
    (hs : sourcesOf i = [ra, rb]) (hd : destinationOf i = some rd) :
    ActsAlike i (divideCommand w rd ra rb) s u := by
  unfold ActsAlike divideCommand
  rw [operandPair_eq_of_sameOperands h hs]
  cases operandPair u ra rb with
  | error e => exact ⟨.fails e, trivial, rfl, rfl⟩
  | ok p =>
    by_cases hz : allZero p.2 = true
    · exact ⟨.fails .divisionByZero, trivial, if_pos hz, if_pos hz⟩
    · exact ⟨.writes rd _, Effect.fits_writes hd, if_neg hz, if_neg hz⟩

theorem creatorCommand_alike {f : Nat → Buffer} (h : SameOperands i s u) (hc : isCreator i = true)
    (hd : destinationOf i = some rd) : ActsAlike i (creatorCommand f rd) s u := by
  unfold ActsAlike creatorCommand
  rw [declaredWidth_eq_of_sameOperands h hc]
  cases declaredWidth u with
  | error e => exact ⟨.fails e, trivial, rfl, rfl⟩
  | ok n => exact ⟨.writes rd (f n), Effect.fits_writes hd, rfl, rfl⟩

theorem execResize_alike (h : SameOperands (.resize rd ra) s u) :
    ActsAlike (.resize rd ra) (execResize rd ra) s u := by
  unfold ActsAlike execResize
  rw [sourceOperand_eq_of_sameOperands h rfl]
  cases sourceOperand u ra with
  | error e => exact ⟨.fails e, trivial, rfl, rfl⟩
  | ok a => exact creatorCommand_alike h rfl rfl

theorem execSet_alike (h : SameOperands (.set rd ra) s u) :
    ActsAlike (.set rd ra) (execSet rd ra) s u := by
  unfold ActsAlike execSet
  rw [operandPair_eq_of_sameOperands h rfl]
  cases operandPair u rd ra with
  | error e => exact ⟨.fails e, trivial, rfl, rfl⟩
  | ok p => exact ⟨.writes rd p.2, Effect.fits_writes rfl, rfl, rfl⟩

theorem execCmp_alike (h : SameOperands (.cmp ra rb) s u) : ActsAlike (.cmp ra rb) (execCmp ra rb) s u := by
  unfold ActsAlike execCmp
  rw [operandPair_eq_of_sameOperands h rfl]
  cases operandPair u ra rb with
  | error e => exact ⟨.fails e, trivial, rfl, rfl⟩
  | ok p => exact ⟨.compares (compareCode p.1 p.2), ⟨rfl, rfl, rfl, rfl⟩, rfl, rfl⟩

theorem execIsZero_alike (h : SameOperands (.isZero ra) s u) : ActsAlike (.isZero ra) (execIsZero ra) s u := by
  unfold ActsAlike execIsZero
  rw [sourceOperand_eq_of_sameOperands h rfl]
  cases sourceOperand u ra with
  | error e => exact ⟨.fails e, trivial, rfl, rfl⟩
  | ok a => exact ⟨.tests (allZero a), ⟨rfl, rfl, rfl, rfl⟩, rfl, rfl⟩

theorem execToStr_alike {b : Half} (h : SameOperands (.toStr ra b) s u) :
    ActsAlike (.toStr ra b) (execToStr ra b) s u := by
  unfold ActsAlike execToStr
  rw [sourceOperand_eq_of_sameOperands h rfl]
  cases baseOperand b with
  | error e => exact ⟨.fails e, trivial, rfl, rfl⟩
  | ok base =>
    cases sourceOperand u ra with
    | error e => exact ⟨.fails e, trivial, rfl, rfl⟩
    | ok a => exact ⟨.spells (stringOf base a), ⟨rfl, rfl, rfl, rfl⟩, rfl, rfl⟩

theorem execFromStr_alike {b : Half} (h : SameOperands (.fromStr rd b) s u) :
    ActsAlike (.fromStr rd b) (execFromStr rd b) s u := by
  unfold ActsAlike execFromStr
  rw [declaredWidth_eq_of_sameOperands h rfl, stringOperand_eq_of_sameOperands h rfl]
  cases baseOperand b with
  | error e => exact ⟨.fails e, trivial, rfl, rfl⟩
  | ok base =>
    cases declaredWidth u with
    | error e => exact ⟨.fails e, trivial, rfl, rfl⟩
    | ok n =>
      cases stringOperand u with
      | error e => exact ⟨.fails e, trivial, rfl, rfl⟩
      | ok cs =>
        cases hr : parseString base n cs with
        | error e => exact ⟨.fails e, trivial, by simp only [hr]; rfl, by simp only [hr]; rfl⟩
        | ok r =>
          exact ⟨.writes rd r, Effect.fits_writes rfl, by simp only [hr]; rfl, by simp only [hr]; rfl⟩

end shapes

/-- Every command ends in a next state, and has the same effect on two states that agree on what it names (R36). -/
theorem exec_alike {i : Instr} {s u : State} (h : SameOperands i s u) : ActsAlike i (exec i) s u := by
  cases i with
  | zero rd => exact creatorCommand_alike h rfl rfl
  | max rd => exact creatorCommand_alike h rfl rfl
  | resize rd ra => exact execResize_alike h
  | set rd ra => exact execSet_alike h
  | not rd ra => exact unaryCommand_alike h rfl rfl
  | and rd ra rb => exact binaryCommand_alike h rfl rfl
  | or rd ra rb => exact binaryCommand_alike h rfl rfl
  | xor rd ra rb => exact binaryCommand_alike h rfl rfl
  | lsh0 rd ra k => exact unaryCommand_alike h rfl rfl
  | lsh1 rd ra k => exact unaryCommand_alike h rfl rfl
  | rsh0 rd ra k => exact unaryCommand_alike h rfl rfl
  | rsh1 rd ra k => exact unaryCommand_alike h rfl rfl
  | add rd ra rb => exact binaryCommand_alike h rfl rfl
  | sub rd ra rb => exact binaryCommand_alike h rfl rfl
  | mul rd ra rb => exact binaryCommand_alike h rfl rfl
  | div rd ra rb => exact divideCommand_alike h rfl rfl
  | mod rd ra rb => exact divideCommand_alike h rfl rfl
  | cmp ra rb => exact execCmp_alike h
  | isZero ra => exact execIsZero_alike h
  | toStr ra b => exact execToStr_alike h
  | fromStr rd b => exact execFromStr_alike h

/-- Every command ends in a next state (spec/60_exceptions.md R232). -/
theorem exec_next (i : Instr) (s : State) : ∃ t, exec i s = .next t := by
  obtain ⟨e, -, hs, -⟩ := exec_alike (SameOperands.refl i s)
  exact ⟨_, hs⟩

/-- No error has the code 0 (spec/60_exceptions.md R230). -/
theorem code_ne_zero (e : ErrorKind) : e.code ≠ 0#4 := by cases e <;> decide

theorem setString_charAt_of_lt (s : State) {cs : List Byte} {k : Nat} (hk : k < cs.length) :
    (s.setString cs).charAt k = cs[k] := by
  rw [setString_charAt, dif_pos hk]

/-- SLEN's 16 bits never exceed the length of the string just written (log 11). -/
theorem lt_length_of_lt_slen {s : State} {cs : List Byte} {k : Nat} (hk : k < (s.setString cs).slen.toNat) :
    k < cs.length :=
  hk.trans_le (Nat.mod_le _ _)

/-- Settles O43: the two runs apply one effect, and each clause speaks of what that effect wrote. -/
theorem resultsDependOnlyOnNamedOperands : Obligations.ResultsDependOnlyOnNamedOperands := by
  intro i s u s' u' h hs hu
  obtain ⟨e, hfit, hs', hu'⟩ := exec_alike h
  cases hs.symm.trans hs'
  cases hu.symm.trans hu'
  cases e with
  | fails e => exact ⟨rfl, fun he => absurd he (code_ne_zero e)⟩
  | writes rd b =>
    obtain ⟨hd, hc, hz, ht⟩ := hfit
    refine ⟨rfl, fun _ => ⟨fun r hr => ?_, by simp [hc], by simp [hz], by simp [ht]⟩⟩
    cases hd.symm.trans hr
    simp [Effect.apply]
  | compares c =>
    obtain ⟨hd, -, hz, ht⟩ := hfit
    exact ⟨rfl, fun _ => ⟨by simp [hd], fun _ => rfl, by simp [hz], by simp [ht]⟩⟩
  | tests z =>
    obtain ⟨hd, hc, -, ht⟩ := hfit
    exact ⟨rfl, fun _ => ⟨by simp [hd], by simp [hc], fun _ => rfl, by simp [ht]⟩⟩
  | spells cs =>
    obtain ⟨hd, hc, hz, -⟩ := hfit
    refine ⟨rfl, fun _ => ⟨by simp [hd], by simp [hc], by simp [hz], fun _ => ⟨rfl, fun k hk => ?_⟩⟩⟩
    have hk' : k < cs.length := lt_length_of_lt_slen (s := s) hk
    calc (s.setString cs).charAt k = cs[k] := setString_charAt_of_lt s hk'
      _ = (u.setString cs).charAt k := (setString_charAt_of_lt u hk').symm

end Sys2Proof.Proofs
end

section
/-!
PROOFS. What a command leaves unchanged: the frame of `CommandEnd`, field by field, and what it can have done to its
destination.
-/

namespace Sys2Proof.Proofs
open Sys2Proof.Machine Sys2Proof.Laws

/-! ## The bounds of R6 -/

theorem nmax_le {p : Params} (h : p.wellFormed = true) : p.nmax ≤ 8191 := by
  simp only [Params.wellFormed, Bool.and_eq_true, decide_eq_true_eq] at h
  obtain ⟨⟨⟨⟨-, hle⟩, -⟩, -⟩, -⟩ := h
  exact hle

theorem smax_le {p : Params} (h : p.wellFormed = true) : p.smax ≤ 65535 := by
  simp only [Params.wellFormed, Bool.and_eq_true, decide_eq_true_eq] at h
  obtain ⟨⟨-, hle⟩, -⟩ := h
  exact hle

/-! ## Which commands have a destination -/

theorem destinationOf_of_isCmp {i : Instr} (h : isCmp i = true) : destinationOf i = none := by
  cases i with
  | cmp => rfl
  | _ => cases h

theorem destinationOf_of_isIsZero {i : Instr} (h : isIsZero i = true) : destinationOf i = none := by
  cases i with
  | isZero => rfl
  | _ => cases h

theorem destinationOf_of_isToStr {i : Instr} (h : isToStr i = true) : destinationOf i = none := by
  cases i with
  | toStr => rfl
  | _ => cases h

/-- SET reads its destination, for its length (spec/40_buffer_primitives.md R113). -/
theorem destination_mem_sources_of_isSet {i : Instr} {r : Reg} (h : isSet i = true)
    (hd : destinationOf i = some r) : isCreator i = false ∧ r ∈ sourcesOf i := by
  cases i with
  | set rd ra => cases hd; exact ⟨rfl, List.mem_cons_self⟩
  | _ => cases h

/-! ## The frame of a command, field by field -/

section frame
variable {i : Instr} {s t : State} {r : Reg}

theorem setReg_getReg_of_not_destination {rd : Reg} (b : Buffer) (hd : destinationOf i = some rd)
    (hr : destinationOf i ≠ some r) : (s.setReg rd b).getReg r = s.getReg r :=
  setReg_getReg_other s rd b (fun heq => hr (heq ▸ hd))

/-- A register other than the destination keeps its bytes and its length (spec/10_state.md R23, R38). -/
theorem CommandEnd.getReg_of_not_destination (h : CommandEnd i s t) (hr : destinationOf i ≠ some r) :
    t.getReg r = s.getReg r := by
  cases h with
  | computed hd => exact setReg_getReg_of_not_destination _ hd hr
  | created hd => exact setReg_getReg_of_not_destination _ hd hr
  | _ => rfl

theorem CommandEnd.cmp_eq (h : CommandEnd i s t) (hi : isCmp i = false) : t.status.cmp = s.status.cmp := by
  cases h with
  | compared hc => cases hc.symm.trans hi
  | _ => rfl

theorem CommandEnd.z_eq (h : CommandEnd i s t) (hi : isIsZero i = false) : t.status.z = s.status.z := by
  cases h with
  | tested z hz => cases hz.symm.trans hi
  | _ => rfl

theorem CommandEnd.width_eq (h : CommandEnd i s t) : t.width = s.width := by cases h <;> rfl
theorem CommandEnd.pending_eq (h : CommandEnd i s t) : t.pending = s.pending := by cases h <;> rfl
theorem CommandEnd.answers_eq (h : CommandEnd i s t) : t.answers = s.answers := by cases h <;> rfl
theorem CommandEnd.resets_eq (h : CommandEnd i s t) : t.resets = s.resets := by cases h <;> rfl

/-- Only TOSTR writes S and SLEN (spec/10_state.md R33). -/
theorem CommandEnd.string_eq (h : CommandEnd i s t) (hi : isToStr i = false) :
    t.slen = s.slen ∧ ∀ k, t.charAt k = s.charAt k := by
  cases h with
  | converted base ht => cases ht.symm.trans hi
  | _ => exact ⟨rfl, fun _ => rfl⟩

/-- Within the invariant SLEN holds the length of TOSTR's string uncut (spec/46_base_conversion.md R205; log 11). -/
theorem inv_slen_setString_stringOf (hs : s.Inv) (base : Base) {ra : Reg} (ha : s.getReg ra ≠ []) :
    (s.setString (stringOf base (s.getReg ra))).slen.toNat = (stringOf base (s.getReg ra)).length := by
  have hl := inv_length_stringOf_le hs base ha
  have hp := smax_le hs.1
  rw [setString_slen, BitVec.toNat_ofNat]
  exact Nat.mod_eq_of_lt (by omega)

/-- TOSTR leaves the characters beyond its string (R33); another command leaves them all. -/
theorem CommandEnd.charAt_eq_of_slen_le (h : CommandEnd i s t) (hs : s.Inv) {k : Nat}
    (hk : t.slen.toNat ≤ k) : t.charAt k = s.charAt k := by
  cases h with
  | @converted base ra _ ha =>
    have hk' : (stringOf base (s.getReg ra)).length ≤ k := (inv_slen_setString_stringOf hs base ha).symm.trans_le hk
    rw [setErr_charAt, setString_charAt, dif_neg (Nat.not_lt.mpr hk')]
  | _ => rfl

/-! ## What a command can have done to its destination -/

/-- A command that reports an error has changed ERR alone (spec/60_exceptions.md R232). -/
theorem CommandEnd.eq_setErr_of_err (h : CommandEnd i s t) (he : t.status.err ≠ 0#4) :
    ∃ e : ErrorKind, t = s.setErr e.code := by
  cases h with
  | failed e => exact ⟨e, rfl⟩
  | _ => exact absurd rfl he

/-- A command that succeeds leaves in its destination a buffer of WIDTH bytes, for a creator, and of the length of every
source, of which it has one, for another command (spec/10_state.md R23). -/
theorem CommandEnd.destination_cases (h : CommandEnd i s t) (he : t.status.err = 0#4)
    (hr : destinationOf i = some r) :
    (isCreator i = true ∧ ¬ badWidth s ∧ (t.getReg r).length = s.width.toNat) ∨
      (isCreator i = false ∧ (∃ q, q ∈ sourcesOf i) ∧
        ∀ q ∈ sourcesOf i, s.getReg q ≠ [] ∧ (t.getReg r).length = (s.getReg q).length) := by
  cases h with
  | failed e => exact absurd he (code_ne_zero e)
  | computed hd hc ha hl =>
    cases hd.symm.trans hr
    exact .inr ⟨hc, ⟨_, ha⟩, by simpa using hl⟩
  | created hd hc hw hl =>
    cases hd.symm.trans hr
    exact .inl ⟨hc, hw, by simpa using hl⟩
  | compared hi => cases (destinationOf_of_isCmp hi).symm.trans hr
  | tested z hi => cases (destinationOf_of_isIsZero hi).symm.trans hr
  | converted base hi => cases (destinationOf_of_isToStr hi).symm.trans hr

/-- No result is empty: WIDTH is not 0, and no source is empty (R22). -/
theorem CommandEnd.destination_ne_nil (h : CommandEnd i s t) (he : t.status.err = 0#4)
    (hr : destinationOf i = some r) : t.getReg r ≠ [] := by
  apply List.ne_nil_of_length_pos
  obtain ⟨-, hw, hl⟩ | ⟨-, ⟨q, hq⟩, hl⟩ := h.destination_cases he hr
  · rw [badWidth] at hw
    omega
  · obtain ⟨hne, hl⟩ := hl q hq
    exact hl ▸ List.length_pos_iff.mpr hne

/-- Every register is as it was, or it is the destination and holds a value. -/
theorem CommandEnd.getReg_cases (h : CommandEnd i s t) (r : Reg) :
    t.getReg r = s.getReg r ∨ (destinationOf i = some r ∧ t.getReg r ≠ []) := by
  by_cases hr : destinationOf i = some r
  · by_cases he : t.status.err = 0#4
    · exact .inr ⟨hr, h.destination_ne_nil he hr⟩
    · obtain ⟨e, rfl⟩ := h.eq_setErr_of_err he
      exact .inl rfl
  · exact .inl (h.getReg_of_not_destination hr)

theorem CommandEnd.length_eq_of_isSet (h : CommandEnd i s t) (hi : isSet i = true) (r : Reg) :
    (t.getReg r).length = (s.getReg r).length := by
  by_cases hr : destinationOf i = some r
  · obtain ⟨hc, hmem⟩ := destination_mem_sources_of_isSet hi hr
    by_cases he : t.status.err = 0#4
    · obtain ⟨hc', -⟩ | ⟨-, -, hl⟩ := h.destination_cases he hr
      · cases hc.symm.trans hc'
      · exact (hl r hmem).2
    · obtain ⟨e, rfl⟩ := h.eq_setErr_of_err he
      rfl
  · rw [h.getReg_of_not_destination hr]

end frame

/-! ## A host write other than of CMD -/

theorem eq_zero_of_controlSlot_cmd {slot : Nat} (h : controlSlot slot = some .cmd) : slot = 0 := by
  unfold controlSlot at h
  split at h
  case h_1 => rfl
  case h_6 => split at h <;> cases h
  all_goals cases h

/-- CMD lies at offset 0 only (spec/20_memory.md R51). -/
theorem eq_zero_of_placeOf_cmd {off : Nat} (h : placeOf off = .control .cmd 0) : off = 0 := by
  unfold placeOf at h
  split at h
  · split at h
    · rename_i c hslot
      simp only [Place.control.injEq] at h
      obtain ⟨rfl, hlane⟩ := h
      have := eq_zero_of_controlSlot_cmd hslot
      omega
    · cases h
  · split at h <;> cases h

theorem place_of_writePlace_command {s : State} {p : Place} {n v : Nat} {w : Word}
    (h : writePlace s p n v = .ok (.command w)) : p = .control .cmd 0 := by
  unfold writePlace at h
  split at h
  · cases h
  · rename_i c lane
    split at h
    · cases h
    · rename_i hshape
      cases c with
      | cmd => rw [not_not.mp (not_or.mp hshape).2]
      | _ => cases h
  · split at h
    · cases h
    · split at h <;> cases h
  · split at h
    · cases h
    · split at h <;> cases h

/-- A write that hands a word to the engine is a write to CMD (spec/10_state.md R32). -/
theorem addr_of_hostWrite_command {s : State} {addr n v : Nat} {w : Word}
    (h : hostWrite s addr n v = .ok (.command w)) : addr = s.params.base := by
  unfold hostWrite at h
  split at h
  · cases h
  · rename_i off hoff
    obtain ⟨rfl, -⟩ := offsetOf_eq_some hoff
    rw [eq_zero_of_placeOf_cmd (place_of_writePlace_command h), Nat.add_zero]

/-- A host write that stores keeps every length tag (R54). -/
theorem hostWrite_stored_length {s u : State} {addr n v : Nat} (h : hostWrite s addr n v = .ok (.stored u))
    (r : Reg) : (u.getReg r).length = (s.getReg r).length := by
  obtain rfl | rfl | ⟨q, j, -, rfl⟩ | ⟨k, -, rfl⟩ := hostWrite_stored h
  · rfl
  · rfl
  · by_cases hr : r = q
    · subst hr
      simp [setBufferByte]
    · rw [setReg_getReg_other _ _ _ hr]
  · rfl

theorem step_of_pending {s : State} {i : Input} {rest : List Input} (h : s.pending = i :: rest) :
    step s = serve { s with pending := rest } i := by
  unfold step
  rw [h]

theorem step_write_length {s t : State} {rest : List Input} {off n v : Nat} (hoff : off ≠ 0)
    (hp : s.pending = .write (s.params.base + off) n v :: rest) (h : step s = .next t) (r : Reg) :
    (t.getReg r).length = (s.getReg r).length := by
  rw [step_of_pending hp] at h
  obtain ⟨u, hu, rfl⟩ | ⟨w, u, hw, -, rfl⟩ := serveWrite_cases h
  · exact hostWrite_stored_length hu r
  · have haddr : s.params.base + off = s.params.base := addr_of_hostWrite_command (s := { s with pending := rest }) hw
    omega

/-! ## The statements -/

/-- Settles O39, from the frame of the two flags. -/
theorem flagsAreWrittenByTheirCommandOnly : Obligations.FlagsAreWrittenByTheirCommandOnly := by
  intro i s t h
  refine ⟨(exec_ends h).cmp_eq, (exec_ends h).z_eq, fun he => ?_⟩
  obtain ⟨e, rfl⟩ := (exec_ends h).eq_setErr_of_err he
  exact ⟨rfl, rfl⟩

/-- Settles O40, from what a command does to a register. -/
theorem noCommandEmptiesARegister : Obligations.NoCommandEmptiesARegister := by
  intro i s t r h
  obtain heq | ⟨hd, hne⟩ := (exec_ends h).getReg_cases r
  · rw [heq]
    exact ⟨id, fun hs ht => absurd hs ht⟩
  · exact ⟨fun _ => hne, fun _ _ => hd⟩

/-- Settles O41: the frame of the registers and the length of a result, for the commands; for the other writes, that
none reaches CMD and that a write which stores keeps every length. -/
theorem lengthTagsChangeOnlyAtTheDestination : Obligations.LengthTagsChangeOnlyAtTheDestination := by
  refine ⟨fun i s t h => ?_, fun s t rest off n v hoff hp h => step_write_length hoff hp h⟩
  have hend := exec_ends h
  refine ⟨fun r hr => by rw [hend.getReg_of_not_destination hr], fun r _ he => ?_, fun r hr he hc => ?_,
    fun r hr he hc q hq => ?_, fun r hi => hend.length_eq_of_isSet hi r⟩
  · obtain ⟨e, rfl⟩ := hend.eq_setErr_of_err he
    rfl
  · obtain ⟨-, -, hl⟩ | ⟨hc', -⟩ := hend.destination_cases he hr
    · exact hl
    · cases hc.symm.trans hc'
  · obtain ⟨hc', -⟩ | ⟨-, -, hl⟩ := hend.destination_cases he hr
    · cases hc.symm.trans hc'
    · exact (hl q hq).2

/-- Settles O42, field by field. -/
theorem commandsTouchOnlyWhatTheyName : Obligations.CommandsTouchOnlyWhatTheyName := by
  intro i s t h
  have hend := exec_ends h
  exact ⟨fun _ => hend.getReg_of_not_destination, hend.cmp_eq, hend.z_eq, hend.width_eq, hend.params_eq,
    hend.pending_eq, hend.answers_eq, hend.resets_eq, hend.string_eq, fun hs _ => hend.charAt_eq_of_slen_le hs⟩

end Sys2Proof.Proofs
end

section
/-!
PROOFS. What one served input does, place by place: a control register read, WIDTH or SLEN written, a command word
written, a hardware reset; and the state after reset.
-/

namespace Sys2Proof.Proofs
open Sys2Proof.Machine Sys2Proof.Laws

/-! ## Control registers -/

section control
variable {s : State} {rest : List Input} {off v : Nat} {c : Control}

/-- A 32-bit read of a control register that can be read answers its word, and changes nothing else (spec/20_memory.md
R52). -/
theorem step_read_control {w : Word} (hp : s.pending = .read (s.params.base + off) 4 :: rest)
    (hoff : off < Config.windowSize) (hplace : placeOf off = .control c 0)
    (hw : controlWord { s with pending := rest } c = some w) :
    step s = .next { s with pending := rest, answers := .word w :: s.answers } := by
  rw [step_of_pending hp]
  simp only [serve, serveRead, hostRead, offsetOf_base _ hoff, hplace, readPlace, hw]
  rfl

/-- A 32-bit write of a control register, as the control register takes it (R52). -/
theorem hostWrite_control (s : State) (v : Nat) (hoff : off < Config.windowSize)
    (hplace : placeOf off = .control c 0) :
    hostWrite s (s.params.base + off) 4 v = writePlace s (.control c 0) 4 v := by
  simp only [hostWrite, offsetOf_base _ hoff, hplace]

theorem step_write_width (hp : s.pending = .write (s.params.base + 0x8) 4 v :: rest) :
    step s = .next { s with pending := rest, answers := .done :: s.answers, width := BitVec.ofNat 16 v } := by
  rw [step_of_pending hp, serve, serveWrite,
    hostWrite_control (c := .width) { s with pending := rest } v (by decide) rfl]
  rfl

theorem step_write_slen (hp : s.pending = .write (s.params.base + 0xC) 4 v :: rest) :
    step s = .next { s with pending := rest, answers := .done :: s.answers, slen := BitVec.ofNat 16 v } := by
  rw [step_of_pending hp, serve, serveWrite,
    hostWrite_control (c := .slen) { s with pending := rest } v (by decide) rfl]
  rfl

theorem runCommand_of_decode {w : Word} {i : Instr} (hi : decode w = .ok i) : runCommand w s = exec i s := by
  rw [runCommand, hi]

/-- A write of CMD runs the command it spells to its end and then completes (spec/10_state.md R32, R61). -/
theorem step_write_cmd {w : Word} {i : Instr} {t : State} (hi : decode w = .ok i)
    (hp : s.pending = .write s.params.base 4 w.toNat :: rest) (ht : exec i { s with pending := rest } = .next t) :
    step s = .next (t.answer .done) := by
  have hcmd : hostWrite { s with pending := rest } s.params.base 4 w.toNat = .ok (.command w) := by
    have h := hostWrite_control (c := .cmd) (off := 0) { s with pending := rest } w.toNat (by decide) rfl
    simpa [writePlace] using h
  rw [step_of_pending hp, serve, serveWrite, hcmd]
  simp only [runCommand_of_decode hi, ht, completeWrite]

end control

/-! ## The words of the control registers -/

/-- STATUS as a number: ERR, CMP and Z at their weights (spec/10_state.md R29). -/
theorem statusWord_toNat (st : Status) :
    (statusWord st).toNat = st.err.toNat + 16 * st.cmp.toNat + 64 * st.z.toNat := by
  obtain ⟨err, cmp, z⟩ := st
  revert err cmp z
  decide

/-- A word of two halves, as a number. -/
theorem halves_toNat (hi lo : Half) : (hi ++ lo : Word).toNat = lo.toNat + 65536 * hi.toNat := by
  rw [BitVec.toNat_append, ← Nat.shiftLeft_add_eq_or_of_lt lo.isLt, Nat.shiftLeft_eq]
  omega

theorem low_half_toNat (h : Half) : (0#16 ++ h : Word).toNat = h.toNat := halves_toNat 0#16 h

/-- CAP shows NMAX and SMAX uncut, since both fit in 16 bits (spec/00_scope.md R6, spec/10_state.md R30). -/
theorem capWord_toNat {p : Params} (h : p.wellFormed = true) : (capWord p).toNat = p.nmax + 65536 * p.smax := by
  have hn := nmax_le h
  have hs := smax_le h
  rw [capWord, halves_toNat, BitVec.toNat_ofNat, BitVec.toNat_ofNat, Nat.mod_eq_of_lt (by omega),
    Nat.mod_eq_of_lt (by omega)]

/-- BLENi shows the length tag uncut, since no buffer is longer than NMAX (R21, R31). -/
theorem blenWord_toNat {s : State} (hs : s.Inv) (r : Reg) : (blenWord s r).toNat = (s.getReg r).length := by
  have hl := inv_length_le hs r
  have hn := nmax_le hs.1
  rw [blenWord, low_half_toNat, BitVec.toNat_ofNat]
  exact Nat.mod_eq_of_lt (by omega)

/-! ## Reset -/

theorem inv_resetWith {p : Params} (h : p.wellFormed = true) : (State.resetWith p).Inv := by
  refine ⟨h, fun r _ => ?_, rfl, rfl, rfl⟩
  have hempty : (State.resetWith p).getReg r = [] := get_empty r
  rw [hempty]
  exact Nat.zero_le _

theorem step_reset {s : State} {rest : List Input} (hp : s.pending = .reset :: rest) :
    step s = .next { s with pending := rest }.hardReset := step_of_pending hp

/-! ## The statements -/

/-- Settles O6: every command answers a next state, and the write that carries its word completes with it. -/
theorem stepRunsTheDecodedCommand : Obligations.StepRunsTheDecodedCommand := by
  intro s rest w i hi
  constructor
  · intro hp
    obtain ⟨t, ht⟩ := exec_next i { s with pending := rest }
    exact ⟨t, ht, step_write_cmd hi hp ht⟩
  · obtain ⟨t, ht⟩ := exec_next i s
    have hp : (s.withFetchWord 32 w.toNat).pending = .write s.params.base 4 w.toNat :: s.pending := by
      rw [State.withFetchWord, commandWrite, Nat.mod_eq_of_lt w.isLt]
    exact ⟨t, ht, step_write_cmd hi hp ht⟩

/-- Settles O10: where each readable register lies, and its word as a number. -/
theorem controlRegistersReadAsSpecified : Obligations.ControlRegistersReadAsSpecified := by
  intro s rest hs
  refine ⟨fun hp => ⟨statusWord s.status, statusWord_toNat _, ?_⟩,
    fun hp => ⟨0#16 ++ s.width, low_half_toNat _, ?_⟩,
    fun hp => ⟨0#16 ++ s.slen, low_half_toNat _, ?_⟩,
    fun hp => ⟨capWord s.params, capWord_toNat hs.1, ?_⟩,
    fun i hi hp => ⟨blenWord s (regNumbered i), blenWord_toNat hs _, ?_⟩⟩
  · exact step_read_control (c := .status) hp (by decide) rfl rfl
  · exact step_read_control (c := .width) hp (by decide) rfl rfl
  · exact step_read_control (c := .slen) hp (by decide) rfl rfl
  · exact step_read_control (c := .cap) hp (by decide) rfl rfl
  · exact step_read_control hp (by rw [Config.windowSize]; omega) (placeOf_blen hi) rfl

/-- Settles O11: both registers take the datum in 16 bits. -/
theorem widthAndSlenStoreSixteenBits : Obligations.WidthAndSlenStoreSixteenBits := fun _ _ v =>
  ⟨fun hp => ⟨BitVec.ofNat 16 v, BitVec.toNat_ofNat v 16, step_write_width hp⟩,
    fun hp => ⟨BitVec.ofNat 16 v, BitVec.toNat_ofNat v 16, step_write_slen hp⟩⟩

/-- Settles O54, from the fields of the state after a reset. -/
theorem hardwareResetLeavesTheResetState : Obligations.HardwareResetLeavesTheResetState := by
  intro s rest hp
  refine ⟨_, step_reset hp, fun r => hardReset_getReg _ r, rfl, rfl, rfl, rfl, rfl, by rw [hardReset_status]; rfl,
    fun r => ?_, fun _ => rfl, rfl, rfl⟩
  rw [blenWord, hardReset_getReg]
  rfl

/-- Settles O60: the parameters of `State.reset` are legal ones. -/
theorem resetMeetsTheInvariant : Obligations.ResetMeetsTheInvariant :=
  ⟨fun _ h => inv_resetWith h, inv_resetWith rfl⟩

end Sys2Proof.Proofs
end

section
/-!
PROOFS. Which accesses the host window serves (spec/20_memory.md R51, R56, R57): the places that answer a read or take
a write, the offsets they lie at, and from both that a step stops exactly on an access R56 does not define.
-/

namespace Sys2Proof.Proofs
open Sys2Proof.Machine Sys2Proof.Laws

/-! ## Where each place lies -/

/-- The offset of a control register (R51), the inverse of `placeOf` on control registers: `placeOf_eq_control_iff`. -/
def controlOffset : Control → Nat
  | .cmd => 0x0
  | .status => 0x4
  | .width => 0x8
  | .slen => 0xC
  | .cap => 0x10
  | .blen r => 0x20 + 4 * regNumber r

theorem placeOf_controlOffset (c : Control) : placeOf (controlOffset c) = .control c 0 := by
  cases c with
  | blen r => cases r <;> rfl
  | _ => rfl

theorem eq_controlOffset_of_controlSlot {slot : Nat} {c : Control} (h : controlSlot slot = some c) :
    4 * slot = controlOffset c := by
  unfold controlSlot at h
  split at h
  case h_6 =>
    split at h
    · rename_i hslot
      cases h
      rw [controlOffset, regNumber_regNumbered (by omega)]
      omega
    · cases h
  all_goals cases h; rfl

theorem placeOf_eq_control_iff {off : Nat} {c : Control} : placeOf off = .control c 0 ↔ off = controlOffset c := by
  refine ⟨fun h => ?_, fun h => h ▸ placeOf_controlOffset c⟩
  unfold placeOf at h
  split at h
  · split at h
    · rename_i hslot
      simp only [Place.control.injEq] at h
      obtain ⟨rfl, hlane⟩ := h
      have := eq_controlOffset_of_controlSlot hslot
      omega
    · cases h
  · split at h <;> cases h

theorem offset_of_placeOf_buffer {off j : Nat} {r : Reg} (h : placeOf off = .buffer r j) :
    ∃ i, i < 8 ∧ r = regNumbered i ∧ j < 0x2000 ∧ off = 0x10000 + 0x2000 * i + j := by
  unfold placeOf at h
  split at h
  · split at h <;> cases h
  · split at h
    · rename_i hlo hhi
      simp only [Config.bufferBase, Config.stringBase] at hlo hhi
      simp only [Config.bufferBase, Config.bufferStride, Place.buffer.injEq] at h
      obtain ⟨rfl, rfl⟩ := h
      exact ⟨(off - 0x10000) / 0x2000, by omega, rfl, by omega, by omega⟩
    · cases h

theorem offset_of_placeOf_string {off k : Nat} (h : placeOf off = .string k) : off = 0x20000 + k := by
  unfold placeOf at h
  split at h
  · split at h <;> cases h
  · split at h
    · cases h
    · rename_i hlo
      simp only [Config.stringBase] at hlo
      simp only [Config.stringBase, Place.string.injEq] at h
      omega

/-! ## The offsets of R56, as places -/

theorem controlReadable_iff {off : Nat} :
    controlReadable off ↔ ∃ c, c ≠ .cmd ∧ placeOf off = .control c 0 := by
  simp only [placeOf_eq_control_iff]
  constructor
  · rintro (rfl | rfl | rfl | rfl | ⟨i, hi, rfl⟩)
    · exact ⟨.status, nofun, rfl⟩
    · exact ⟨.width, nofun, rfl⟩
    · exact ⟨.slen, nofun, rfl⟩
    · exact ⟨.cap, nofun, rfl⟩
    · exact ⟨.blen (regNumbered i), nofun, by rw [controlOffset, regNumber_regNumbered hi]⟩
  · rintro ⟨c, hc, rfl⟩
    cases c with
    | cmd => exact absurd rfl hc
    | blen r => exact .inr (.inr (.inr (.inr ⟨regNumber r, regNumber_lt r, rfl⟩)))
    | _ => simp [controlReadable, controlOffset]

/-- The control registers a host may write (R26). -/
def hostWritable (c : Control) : Prop := c = .cmd ∨ c = .width ∨ c = .slen

theorem controlWritable_iff {off : Nat} :
    controlWritable off ↔ ∃ c, hostWritable c ∧ placeOf off = .control c 0 := by
  simp [controlWritable, hostWritable, placeOf_eq_control_iff, controlOffset]

/-- The places that hold a byte the host can reach (R53, R55): a byte below the register's length, a character below
SMAX. -/
def holdsByte (s : State) : Place → Prop
  | .buffer r j => j < (s.getReg r).length
  | .string k => k < s.params.smax
  | _ => False

theorem byteAccessible_iff {s : State} {off : Nat} (hoff : off < Config.windowSize) :
    byteAccessible s off ↔ holdsByte s (placeOf off) := by
  constructor
  · rintro (⟨i, j, hi, hj, hl, rfl⟩ | ⟨k, -, hk, rfl⟩)
    · rwa [placeOf_buffer hi hj]
    · rwa [placeOf_string]
  · intro h
    cases hp : placeOf off with
    | control c lane => rw [hp] at h; exact h.elim
    | reserved => rw [hp] at h; exact h.elim
    | buffer r j =>
      rw [hp] at h
      obtain ⟨i, hi, rfl, hj, rfl⟩ := offset_of_placeOf_buffer hp
      exact .inl ⟨i, j, hi, hj, h, rfl⟩
    | string k =>
      rw [hp] at h
      obtain rfl := offset_of_placeOf_string hp
      rw [Config.windowSize] at hoff
      exact .inr ⟨k, by omega, h, rfl⟩

/-- A byte of register i can be reached below its length (R53). -/
theorem byteAccessible_buffer_iff {s : State} {i j : Nat} (hi : i < 8) (hj : j < 0x2000) :
    byteAccessible s (0x10000 + 0x2000 * i + j) ↔ j < (s.getReg (regNumbered i)).length := by
  rw [byteAccessible_iff (by rw [Config.windowSize]; omega), placeOf_buffer hi hj]
  rfl

/-- A character can be reached below SMAX (R55). -/
theorem byteAccessible_string_iff {s : State} {k : Nat} (hk : k < 0x10000) :
    byteAccessible s (0x20000 + k) ↔ k < s.params.smax := by
  rw [byteAccessible_iff (by rw [Config.windowSize]; omega), placeOf_string]
  rfl

/-! ## The offsets of R56, as numbers -/

theorem controlReadable_bounds {off : Nat} (h : controlReadable off) :
    off % 4 = 0 ∧ 0x4 ≤ off ∧ (off < 0x14 ∨ 0x20 ≤ off ∧ off < 0x40) := by
  obtain rfl | rfl | rfl | rfl | ⟨i, hi, rfl⟩ := h <;> omega

theorem byteAccessible_bounds {s : State} {off : Nat} (h : byteAccessible s off) :
    0x10000 ≤ off ∧ off < Config.windowSize := by
  rw [Config.windowSize]
  obtain ⟨i, j, hi, hj, -, rfl⟩ | ⟨k, hk, -, rfl⟩ := h <;> omega

section shape
variable {s : State} {off n : Nat}

theorem readAccepted_base_iff :
    readAccepted s (s.params.base + off) n ↔ (n = 4 ∧ controlReadable off) ∨ (n = 1 ∧ byteAccessible s off) := by
  simp [readAccepted]

theorem writeAccepted_base_iff :
    writeAccepted s (s.params.base + off) n ↔ (n = 4 ∧ controlWritable off) ∨ (n = 1 ∧ byteAccessible s off) := by
  simp [writeAccepted]

theorem readAccepted_shape (h : readAccepted s (s.params.base + off) n) :
    (n = 4 ∧ off % 4 = 0 ∧ 0x4 ≤ off ∧ (off < 0x14 ∨ 0x20 ≤ off ∧ off < 0x40)) ∨
      (n = 1 ∧ 0x10000 ≤ off ∧ off < Config.windowSize) :=
  (readAccepted_base_iff.mp h).imp (And.imp_right controlReadable_bounds) (And.imp_right byteAccessible_bounds)

theorem writeAccepted_shape (h : writeAccepted s (s.params.base + off) n) :
    (n = 4 ∧ (off = 0x0 ∨ off = 0x8 ∨ off = 0xC)) ∨ (n = 1 ∧ 0x10000 ≤ off ∧ off < Config.windowSize) :=
  (writeAccepted_base_iff.mp h).imp id (And.imp_right byteAccessible_bounds)

theorem readAccepted_lt (h : readAccepted s (s.params.base + off) n) : off < Config.windowSize := by
  obtain ⟨-, -, -, hoff⟩ | ⟨-, -, hoff⟩ := readAccepted_shape h
  · rw [Config.windowSize]
    omega
  · exact hoff

theorem writeAccepted_lt (h : writeAccepted s (s.params.base + off) n) : off < Config.windowSize := by
  obtain ⟨-, hoff⟩ | ⟨-, -, hoff⟩ := writeAccepted_shape h
  · rw [Config.windowSize]
    omega
  · exact hoff

/-- Beyond the control registers, a read is defined only at a byte the host can reach. -/
theorem not_readAccepted_of_not_byteAccessible (hoff : 0x10000 ≤ off) (hb : ¬ byteAccessible s off) :
    ¬ readAccepted s (s.params.base + off) n := by
  rw [readAccepted_base_iff]
  rintro (⟨-, hc⟩ | ⟨-, hb'⟩)
  · have := controlReadable_bounds hc
    omega
  · exact hb hb'

/-- Beyond the control registers, a write is defined only at a byte the host can reach. -/
theorem not_writeAccepted_of_not_byteAccessible (hoff : 0x10000 ≤ off) (hb : ¬ byteAccessible s off) :
    ¬ writeAccepted s (s.params.base + off) n := by
  rw [writeAccepted_base_iff]
  rintro (⟨-, rfl | rfl | rfl⟩ | ⟨-, hb'⟩)
  · omega
  · omega
  · omega
  · exact hb hb'

end shape

/-! ## The places that answer -/

/-- A read answers at a control register other than CMD, 32 bits wide, and at a byte the host can reach, 8 bits wide
(R52, R53, R55). -/
theorem readPlace_answers_iff {s : State} {p : Place} {n : Nat} :
    (∃ a, readPlace s p n = .ok a) ↔
      (n = 4 ∧ ∃ c, c ≠ .cmd ∧ p = .control c 0) ∨ (n = 1 ∧ holdsByte s p) := by
  cases p with
  | control c lane =>
    by_cases hshape : n = 4 ∧ lane = 0
    · obtain ⟨rfl, rfl⟩ := hshape
      cases c <;> simp [readPlace, controlWord, holdsByte]
    · simp only [readPlace, holdsByte, if_pos (not_and_or.mp hshape)]
      grind
  | reserved => simp [readPlace, holdsByte]
  | buffer r j =>
    by_cases hn : n = 1 <;> by_cases hj : j < (s.getReg r).length <;> simp [readPlace, holdsByte, hn, hj]
  | string k =>
    have hle : s.params.smax ≤ k ↔ ¬ k < s.params.smax := Nat.not_lt.symm
    by_cases hn : n = 1 <;> by_cases hk : k < s.params.smax <;> simp [readPlace, holdsByte, hn, hle, hk]

/-- A write is taken at CMD, WIDTH and SLEN, 32 bits wide, and at a byte the host can reach, 8 bits wide (R52, R54,
R55). -/
theorem writePlace_accepts_iff {s : State} {p : Place} {n v : Nat} :
    (∃ e, writePlace s p n v = .ok e) ↔
      (n = 4 ∧ ∃ c, hostWritable c ∧ p = .control c 0) ∨ (n = 1 ∧ holdsByte s p) := by
  cases p with
  | control c lane =>
    by_cases hshape : n = 4 ∧ lane = 0
    · obtain ⟨rfl, rfl⟩ := hshape
      cases c <;> simp [writePlace, hostWritable, holdsByte]
    · simp only [writePlace, holdsByte, if_pos (not_and_or.mp hshape)]
      grind
  | reserved => simp [writePlace, holdsByte]
  | buffer r j =>
    by_cases hn : n = 1 <;> by_cases hj : j < (s.getReg r).length <;> simp [writePlace, holdsByte, hn, hj]
  | string k =>
    have hle : s.params.smax ≤ k ↔ ¬ k < s.params.smax := Nat.not_lt.symm
    by_cases hn : n = 1 <;> by_cases hk : k < s.params.smax <;> simp [writePlace, holdsByte, hn, hle, hk]

/-! ## The addresses that answer -/

theorem hostRead_base (s : State) {off : Nat} (n : Nat) (hoff : off < Config.windowSize) :
    hostRead s (s.params.base + off) n = readPlace s (placeOf off) n := by
  simp only [hostRead, offsetOf_base _ hoff]

theorem hostWrite_base (s : State) {off : Nat} (n v : Nat) (hoff : off < Config.windowSize) :
    hostWrite s (s.params.base + off) n v = writePlace s (placeOf off) n v := by
  simp only [hostWrite, offsetOf_base _ hoff]

/-- A read that is answered lies in the window (R50). -/
theorem place_of_hostRead {s : State} {addr n : Nat} {a : Answer} (h : hostRead s addr n = .ok a) :
    ∃ off, addr = s.params.base + off ∧ off < Config.windowSize ∧ readPlace s (placeOf off) n = .ok a := by
  unfold hostRead at h
  split at h
  · cases h
  · rename_i off hoff
    obtain ⟨haddr, hlt⟩ := offsetOf_eq_some hoff
    exact ⟨off, haddr, hlt, h⟩

/-- A write that is taken lies in the window (R50). -/
theorem place_of_hostWrite {s : State} {addr n v : Nat} {e : WriteEffect} (h : hostWrite s addr n v = .ok e) :
    ∃ off, addr = s.params.base + off ∧ off < Config.windowSize ∧ writePlace s (placeOf off) n v = .ok e := by
  unfold hostWrite at h
  split at h
  · cases h
  · rename_i off hoff
    obtain ⟨haddr, hlt⟩ := offsetOf_eq_some hoff
    exact ⟨off, haddr, hlt, h⟩

/-- The reads that are answered are those R56 defines. -/
theorem hostRead_answers_iff {s : State} {addr n : Nat} :
    (∃ a, hostRead s addr n = .ok a) ↔ readAccepted s addr n := by
  constructor
  · rintro ⟨a, h⟩
    obtain ⟨off, rfl, hoff, hread⟩ := place_of_hostRead h
    have hplace := readPlace_answers_iff.mp ⟨a, hread⟩
    rw [← controlReadable_iff, ← byteAccessible_iff hoff] at hplace
    exact ⟨off, rfl, hplace⟩
  · rintro ⟨off, rfl, h⟩
    have hoff := readAccepted_lt ⟨off, rfl, h⟩
    rw [controlReadable_iff, byteAccessible_iff hoff] at h
    rw [hostRead_base s n hoff]
    exact readPlace_answers_iff.mpr h

/-- The writes that are taken are those R56 defines, whatever their datum. -/
theorem hostWrite_accepts_iff {s : State} {addr n v : Nat} :
    (∃ e, hostWrite s addr n v = .ok e) ↔ writeAccepted s addr n := by
  constructor
  · rintro ⟨e, h⟩
    obtain ⟨off, rfl, hoff, hwrite⟩ := place_of_hostWrite h
    have hplace := writePlace_accepts_iff.mp ⟨e, hwrite⟩
    rw [← controlWritable_iff, ← byteAccessible_iff hoff] at hplace
    exact ⟨off, rfl, hplace⟩
  · rintro ⟨off, rfl, h⟩
    have hoff := writeAccepted_lt ⟨off, rfl, h⟩
    rw [controlWritable_iff, byteAccessible_iff hoff] at h
    rw [hostWrite_base s n v hoff]
    exact writePlace_accepts_iff.mpr h

/-! ## When a step stops -/

theorem runCommand_next (w : Word) (s : State) : ∃ t, runCommand w s = .next t := by
  unfold runCommand
  split
  · exact exec_next _ s
  · exact ⟨_, rfl⟩

/-- Serving an input answers a next state if R56 defines it, and faults if not. -/
theorem serve_next_or_fault (s : State) (i : Input) :
    (inputAccepted s i ∧ ∃ t, serve s i = .next t) ∨ (¬ inputAccepted s i ∧ ∃ f, serve s i = .fault f) := by
  cases i with
  | read addr n =>
    simp only [inputAccepted, serve, serveRead, ← hostRead_answers_iff]
    cases h : hostRead s addr n with
    | ok a => exact .inl ⟨⟨a, rfl⟩, _, rfl⟩
    | error f => exact .inr ⟨nofun, f, rfl⟩
  | write addr n v =>
    simp only [inputAccepted, serve, serveWrite, ← hostWrite_accepts_iff (v := v)]
    cases h : hostWrite s addr n v with
    | ok e =>
      refine .inl ⟨⟨e, rfl⟩, ?_⟩
      cases e with
      | stored t => exact ⟨_, rfl⟩
      | command w =>
        obtain ⟨t, ht⟩ := runCommand_next w s
        exact ⟨t.answer .done, by simp only [ht, completeWrite]⟩
    | error f => exact .inr ⟨nofun, f, rfl⟩
  | reset => exact .inl ⟨trivial, _, rfl⟩

/-- A step from a safe state answers, and from any other it faults. -/
theorem step_next_or_fault (s : State) :
    (s.Safe ∧ ∃ t, step s = .next t) ∨ (¬ s.Safe ∧ ∃ f, step s = .fault f) := by
  unfold State.Safe step
  cases s.pending with
  | nil => exact .inl ⟨trivial, s, rfl⟩
  | cons i rest => exact serve_next_or_fault { s with pending := rest } i

theorem step_answers {s : State} {i : Input} {rest : List Input} (hp : s.pending = i :: rest)
    (hi : inputAccepted s i) : ∃ t, step s = .next t := by
  rw [step_of_pending hp]
  obtain ⟨-, ht⟩ | ⟨h, -⟩ := serve_next_or_fault { s with pending := rest } i
  · exact ht
  · exact absurd hi h

theorem step_faults {s : State} {i : Input} {rest : List Input} (hp : s.pending = i :: rest)
    (hi : ¬ inputAccepted s i) : ∃ f, step s = .fault f := by
  rw [step_of_pending hp]
  obtain ⟨h, -⟩ | ⟨-, hf⟩ := serve_next_or_fault { s with pending := rest } i
  · exact absurd h hi
  · exact hf

/-! ## The statements -/

/-- Settles O8: a step answers or faults, according to whether the state is safe. -/
theorem stepStopsExactlyOnUndefinedAccess : Obligations.StepStopsExactlyOnUndefinedAccess := by
  intro s
  obtain ⟨hs, t, ht⟩ | ⟨hs, f, hf⟩ := step_next_or_fault s
  · simp [hs, ht]
  · simp [hs, hf]

/-- Settles O9: none of the accesses of R57 is among those R56 defines, by their offsets and widths in the clauses (a)
to (d), by the place they name in (e) and (f). -/
theorem refusedAccessesStop : Obligations.RefusedAccessesStop := by
  intro s rest off n v
  have hread : ¬ readAccepted s (s.params.base + off) n →
      s.pending = .read (s.params.base + off) n :: rest → ∃ f, step s = .fault f := fun hn hp => step_faults hp hn
  have hwrite : ¬ writeAccepted s (s.params.base + off) n →
      s.pending = .write (s.params.base + off) n v :: rest → ∃ f, step s = .fault f := fun hn hp => step_faults hp hn
  have hreadShape := mt (readAccepted_shape (s := s) (off := off) (n := n))
  have hwriteShape := mt (writeAccepted_shape (s := s) (off := off) (n := n))
  refine ⟨fun _ => ⟨hread (hreadShape (by omega)), hwrite (hwriteShape (by omega))⟩,
    fun _ => hread (hreadShape (by omega)), fun hoff => hwrite (hwriteShape ?_),
    fun _ _ => ⟨hread (hreadShape (by omega)), hwrite (hwriteShape (by omega))⟩,
    fun _ _ _ => ⟨hread (hreadShape (by omega)), hwrite (hwriteShape (by omega))⟩,
    fun i j hi hj hoff hl => ?_, fun k hk hoff hl => ?_⟩
  · obtain rfl | rfl | ⟨i, hi, rfl⟩ := hoff <;> omega
  · subst hoff
    have hb := mt (byteAccessible_buffer_iff hi hj).mp (Nat.not_lt.mpr hl)
    exact ⟨hread (not_readAccepted_of_not_byteAccessible (by omega) hb),
      hwrite (not_writeAccepted_of_not_byteAccessible (by omega) hb)⟩
  · subst hoff
    have hb := mt (byteAccessible_string_iff hk).mp (Nat.not_lt.mpr hl)
    exact ⟨hread (not_readAccepted_of_not_byteAccessible (by omega) hb),
      hwrite (not_writeAccepted_of_not_byteAccessible (by omega) hb)⟩

end Sys2Proof.Proofs
end

section
/-!
PROOFS. What one access does to the state, and what it leaves: one byte or one character read or written
(spec/20_memory.md R53 to R55), the same access twice (R58), and the inputs and answers a step moves (R60).
-/

namespace Sys2Proof.Proofs
open Sys2Proof.Machine Sys2Proof.Laws

/-! ## What a write stores -/

/-- The update of a write that stores its datum at a place; the places that store nothing keep the state. That
`writePlace` stores exactly this is `eq_storeAt_of_writePlace`. -/
def storeAt (p : Place) (v : Nat) (s : State) : State :=
  match p with
  | .control .width _ => { s with width := BitVec.ofNat 16 v }
  | .control .slen _ => { s with slen := BitVec.ofNat 16 v }
  | .buffer r j => s.setReg r (setBufferByte (s.getReg r) j (BitVec.ofNat 8 v))
  | .string k => s.setChar k (BitVec.ofNat 8 v)
  | _ => s

theorem eq_storeAt_of_writePlace {s u : State} {p : Place} {n v : Nat} (h : writePlace s p n v = .ok (.stored u)) :
    u = storeAt p v s := by
  unfold writePlace at h
  split at h
  · cases h
  · rename_i c lane
    split at h
    · cases h
    · cases c <;> cases h <;> rfl
  · split at h
    · cases h
    · split at h <;> cases h
      rfl
  · split at h
    · cases h
    · split at h <;> cases h
      rfl

section storeAt
variable (p : Place) (v : Nat) (s : State)

theorem storeAt_host (l : List Input) (as : List Answer) :
    storeAt p v { s with pending := l, answers := as } = { storeAt p v s with pending := l, answers := as } := by
  rcases p with ⟨c, _⟩ | _ | _ | _
  · cases c <;> rfl
  all_goals rfl

theorem storeAt_params : (storeAt p v s).params = s.params := by
  rcases p with ⟨c, _⟩ | _ | _ | _
  · cases c <;> rfl
  all_goals rfl

theorem storeAt_pending : (storeAt p v s).pending = s.pending :=
  (congrArg State.pending (storeAt_host p v s s.pending s.answers) :)

theorem storeAt_answers : (storeAt p v s).answers = s.answers :=
  (congrArg State.answers (storeAt_host p v s s.pending s.answers) :)

end storeAt

theorem write_write_same (m : Memory) (k : Nat) (v : Byte) : (m.write k v).write k v = m.write k v := by
  induction m with
  | nil => simp [Memory.write]
  | cons c m ih =>
    obtain ⟨a, u⟩ := c
    by_cases hlt : k < a
    · simp [Memory.write, hlt]
    · by_cases heq : k = a
      · simp [Memory.write, heq]
      · simp [Memory.write, hlt, heq, ih]

theorem setReg_setReg_same (s : State) (r : Reg) (b c : Buffer) : (s.setReg r b).setReg r c = s.setReg r c := by
  simp [State.setReg]

theorem setChar_setChar_same (s : State) (k : Nat) (c : Byte) : (s.setChar k c).setChar k c = s.setChar k c := by
  simp [State.setChar, write_write_same]

/-- Storing the same datum at the same place again changes nothing (R58). -/
theorem storeAt_idempotent (p : Place) (v : Nat) (s : State) : storeAt p v (storeAt p v s) = storeAt p v s := by
  cases p with
  | control c lane => cases c <;> rfl
  | reserved => rfl
  | buffer r j => simp [storeAt, setReg_setReg_same, setBufferByte]
  | string k => exact setChar_setChar_same s k _

/-! ## A step that serves an access -/

section access
variable {s t : State} {rest : List Input} {off addr n v : Nat}

theorem step_read {a : Answer} (hp : s.pending = .read addr n :: rest) (h : hostRead s addr n = .ok a) :
    step s = .next { s with pending := rest, answers := a :: s.answers } := by
  have h' : hostRead { s with pending := rest } addr n = .ok a := h
  rw [step_of_pending hp, serve, serveRead, h']
  rfl

theorem step_read_cases (hp : s.pending = .read addr n :: rest) (h : step s = .next t) :
    ∃ a, hostRead s addr n = .ok a ∧ t = { s with pending := rest, answers := a :: s.answers } := by
  rw [step_of_pending hp] at h
  exact serveRead_cases h

/-- A write other than of CMD that is taken stores its datum at its place, and answers that it is done. -/
theorem step_write_cases (hoff : off ≠ 0) (hp : s.pending = .write (s.params.base + off) n v :: rest)
    (h : step s = .next t) :
    t = { storeAt (placeOf off) v s with pending := rest, answers := .done :: s.answers } := by
  rw [step_of_pending hp] at h
  obtain ⟨u, hu, rfl⟩ | ⟨w, u, hw, -, rfl⟩ := serveWrite_cases h
  · obtain ⟨off', haddr, -, hwrite⟩ := place_of_hostWrite hu
    obtain rfl : off = off' := Nat.add_left_cancel haddr
    rw [eq_storeAt_of_writePlace hwrite, storeAt_host _ _ s rest s.answers]
    rfl
  · have haddr : s.params.base + off = s.params.base := addr_of_hostWrite_command (s := { s with pending := rest }) hw
    omega

/-- A write other than of CMD that R56 defines stores its datum at its place and completes (R54, R55). -/
theorem step_write (hoff : off ≠ 0) (hp : s.pending = .write (s.params.base + off) n v :: rest)
    (hacc : writeAccepted s (s.params.base + off) n) :
    step s = .next { storeAt (placeOf off) v s with pending := rest, answers := .done :: s.answers } := by
  obtain ⟨t, ht⟩ := step_answers hp hacc
  rw [ht, step_write_cases hoff hp ht]

end access

/-! ## One byte of a register, one character -/

theorem readPlace_buffer {s : State} {r : Reg} {j : Nat} (hj : j < (s.getReg r).length) :
    readPlace s (.buffer r j) 1 = .ok (.byte (s.getReg r)[j]) := by
  simp [readPlace, hj]

theorem readPlace_string {s : State} {k : Nat} (hk : k < s.params.smax) :
    readPlace s (.string k) 1 = .ok (.byte (s.charAt k)) := by
  simp [readPlace, Nat.not_le.mpr hk]

theorem setBufferByte_length (b : Buffer) (j : Nat) (v : Byte) : (setBufferByte b j v).length = b.length :=
  List.length_set

theorem setBufferByte_getD_same {b : Buffer} {j : Nat} (v : Byte) (hj : j < b.length) :
    (setBufferByte b j v).getD j 0#8 = v := by
  simp [setBufferByte, hj]

theorem setBufferByte_getD_other (b : Buffer) {j k : Nat} (v : Byte) (hk : k ≠ j) :
    (setBufferByte b j v).getD k 0#8 = b.getD k 0#8 := by
  simp [setBufferByte, hk.symm]

/-- A byte stored in a register's window, read back through the whole register (R54). -/
theorem storeAt_buffer_getReg (s : State) (r : Reg) (j v : Nat) (l : List Input) (as : List Answer) :
    State.getReg { storeAt (.buffer r j) v s with pending := l, answers := as } r =
      setBufferByte (s.getReg r) j (BitVec.ofNat 8 v) :=
  setReg_getReg_same _ _ _

/-! ## The inputs and the answers -/

theorem runCommand_host {w : Word} {s t : State} (h : runCommand w s = .next t) :
    t.pending = s.pending ∧ t.answers = s.answers := by
  obtain ⟨i, -, hi⟩ | ⟨-, rfl⟩ := runCommand_cases h
  · exact ⟨(exec_ends hi).pending_eq, (exec_ends hi).answers_eq⟩
  · exact ⟨rfl, rfl⟩

theorem hostWrite_stored_host {s u : State} {addr n v : Nat} (h : hostWrite s addr n v = .ok (.stored u)) :
    u.pending = s.pending ∧ u.answers = s.answers := by
  obtain ⟨off, -, -, hwrite⟩ := place_of_hostWrite h
  rw [eq_storeAt_of_writePlace hwrite]
  exact ⟨storeAt_pending _ _ s, storeAt_answers _ _ s⟩

/-- Serving an input leaves the inputs that follow it; an access gets one answer, a reset none (R60). -/
theorem serve_host {s t : State} {i : Input} (h : serve s i = .next t) :
    t.pending = s.pending ∧ (i = .reset → t.answers = s.answers) ∧
      (i ≠ .reset → ∃ a, t.answers = a :: s.answers) := by
  cases i with
  | read addr n =>
    obtain ⟨a, -, rfl⟩ := serveRead_cases h
    exact ⟨rfl, nofun, fun _ => ⟨a, rfl⟩⟩
  | write addr n v =>
    have hkeep : ∃ u : State, t = u.answer .done ∧ u.pending = s.pending ∧ u.answers = s.answers := by
      obtain ⟨u, hu, rfl⟩ | ⟨w, u, -, hu, rfl⟩ := serveWrite_cases h
      · exact ⟨u, rfl, hostWrite_stored_host hu⟩
      · exact ⟨u, rfl, runCommand_host hu⟩
    obtain ⟨u, rfl, hpending, hanswers⟩ := hkeep
    exact ⟨hpending, nofun, fun _ => ⟨.done, by rw [answer_answers, hanswers]⟩⟩
  | reset =>
    cases h
    exact ⟨rfl, fun _ => rfl, fun hne => absurd rfl hne⟩

/-! ## The statements -/

/-- Settles O12: the place is byte j of register i, and the write is one `setBufferByte` of that register. -/
theorem bufferWindowReadsAndWritesOneByte : Obligations.BufferWindowReadsAndWritesOneByte := by
  intro s rest i j v hi hj hl
  have hbyte := (byteAccessible_buffer_iff hi hj).mpr hl
  constructor
  · intro hp
    refine step_read hp ?_
    rw [hostRead_base s 1 (byteAccessible_bounds hbyte).2, placeOf_buffer hi hj, readPlace_buffer hl]
  · intro hp
    have hstep := step_write (by omega) hp (writeAccepted_base_iff.mpr (.inr ⟨rfl, hbyte⟩))
    rw [placeOf_buffer hi hj] at hstep
    refine ⟨_, hstep, ?_, ?_, fun k hk => ?_, fun r hr => setReg_getReg_other s _ _ hr, fun _ => rfl,
      rfl, rfl, rfl, rfl, rfl, rfl, rfl⟩
    · rw [storeAt_buffer_getReg, setBufferByte_length]
    · rw [storeAt_buffer_getReg, setBufferByte_getD_same _ hl]
    · rw [storeAt_buffer_getReg, setBufferByte_getD_other _ _ hk]

/-- Settles O13: the place is character k, and the write is one `setChar`. -/
theorem stringWindowReadsAndWritesOneCharacter : Obligations.StringWindowReadsAndWritesOneCharacter := by
  intro s rest k v hk hsmax
  have hbyte := (byteAccessible_string_iff hk).mpr hsmax
  constructor
  · intro hp
    refine step_read hp ?_
    rw [hostRead_base s 1 (byteAccessible_bounds hbyte).2, placeOf_string, readPlace_string hsmax]
  · intro hp
    have hstep := step_write (by omega) hp (writeAccepted_base_iff.mpr (.inr ⟨rfl, hbyte⟩))
    rw [placeOf_string] at hstep
    exact ⟨_, hstep, setChar_charAt_same s k _, fun j hj => setChar_charAt_other s _ hj,
      rfl, rfl, rfl, rfl, rfl, rfl, rfl, rfl⟩

/-- Settles O14: the second write stores the same datum at the same place, and the second read reads what the first
did, since no read depends on the inputs or the answers. -/
theorem windowAccessesAreIdempotent : Obligations.WindowAccessesAreIdempotent := by
  intro s t u rest off n v hst htu
  constructor
  · intro hoff hp
    have ht := step_write_cases hoff hp hst
    have hparams : t.params = s.params := step_params hst
    have hpt : t.pending = .write (t.params.base + off) n v :: rest := by rw [hparams, ht]
    have hstore : storeAt (placeOf off) v t = t := by
      rw [ht, storeAt_host, storeAt_idempotent]
    rw [step_write_cases hoff hpt htu, hstore]
  · intro hp
    obtain ⟨a, ha, rfl⟩ := step_read_cases hp hst
    obtain ⟨b, hb, rfl⟩ := step_read_cases rfl htu
    obtain rfl : a = b := Except.ok.inj (ha.symm.trans hb)
    exact ⟨a, rfl, rfl⟩

/-- Settles O7: a step idles, or takes the next input off the list and serves it. -/
theorem stepServesOneInputInOrder : Obligations.StepServesOneInputInOrder := by
  intro s t h
  obtain ⟨hnil, rfl⟩ | ⟨i, rest, hp, hserve⟩ := step_cases h
  · exact ⟨fun _ => rfl, fun i rest hp => absurd (hnil.symm.trans hp) nofun⟩
  · refine ⟨fun hnil => absurd (hnil.symm.trans hp) nofun, fun j rest' hp' => ?_⟩
    obtain ⟨rfl, rfl⟩ := List.cons.inj (hp.symm.trans hp')
    exact serve_host hserve

end Sys2Proof.Proofs
end

section
/-!
PROOFS. Decoding and encoding (spec/30_encoding.md R80 to R92). The decoder is a lookup of the opcode in the map of R88
followed by the field checks of the row found (`decode_eq_lookup`), the encoder writes the row's word
(`encode_command`), and the field checks answer exactly on the row's words (`readOperands_rowWord`,
`eq_rowWord_of_readOperands`). The round trips and the two forms of R87 are read off these facts about one row.
-/

namespace Sys2Proof.Proofs
open Sys2Proof.Machine Sys2Proof.Laws

/-! ## A word is its fields -/

/-- R82: the fields of format I are the whole word. -/
theorem eq_wordI_iff {w : Word} {op : BitVec 8} {rd ra : BitVec 4} {imm : Half} :
    w = wordI op rd ra imm ↔ opField w = op ∧ rdField w = rd ∧ raField w = ra ∧ immField w = imm := by
  constructor
  · rintro rfl
    exact ⟨opField_wordI _ _ _ _, rdField_wordI _ _ _ _, raField_wordI _ _ _ _, immField_wordI _ _ _ _⟩
  · rintro ⟨rfl, rfl, rfl, rfl⟩
    unfold wordI opField rdField raField immField
    rw [BitVec.extractLsb'_append_extractLsb'_eq_extractLsb' (show 24 = 20 + 4 from rfl),
      BitVec.extractLsb'_append_extractLsb'_eq_extractLsb' (show 20 = 16 + 4 from rfl),
      BitVec.extractLsb'_append_extractLsb'_eq_extractLsb' (show 16 = 0 + 16 from rfl)]
    exact BitVec.extractLsb'_eq_self.symm

/-- The immediate's bits are those of format R's rb and zero fields (R81, R82). -/
theorem immField_eq_append (w : Word) : immField w = rbField w ++ zeroField w :=
  (BitVec.extractLsb'_append_extractLsb'_eq_extractLsb' (show 12 = 0 + 12 from rfl)).symm

/-- Format R is format I with rb and 12 zero bits in the immediate's place (R81, R82). -/
theorem wordR_eq_wordI (op : BitVec 8) (rd ra rb : BitVec 4) :
    wordR op rd ra rb = wordI op rd ra (rb ++ 0#12) := by
  rw [eq_wordI_iff, immField_eq_append, opField_wordR, rdField_wordR, raField_wordR, rbField_wordR,
    zeroField_wordR]
  exact ⟨rfl, rfl, rfl, rfl⟩

/-- R81: the fields of format R, the zero field among them, are the whole word. -/
theorem eq_wordR_iff {w : Word} {op : BitVec 8} {rd ra rb : BitVec 4} :
    w = wordR op rd ra rb ↔
      opField w = op ∧ rdField w = rd ∧ raField w = ra ∧ rbField w = rb ∧ zeroField w = 0#12 := by
  constructor
  · rintro rfl
    exact ⟨opField_wordR _ _ _ _, rdField_wordR _ _ _ _, raField_wordR _ _ _ _, rbField_wordR _ _ _ _,
      zeroField_wordR _ _ _ _⟩
  · rintro ⟨hop, hrd, hra, hrb, hzero⟩
    rw [wordR_eq_wordI, eq_wordI_iff, immField_eq_append, hrb, hzero]
    exact ⟨hop, hrd, hra, rfl⟩

/-! ## The decoder's checks, from their answers -/

theorem regOfField_eq_ok_iff {f : BitVec 4} {r : Reg} : regOfField f = .ok r ↔ f = fieldOfReg r :=
  ⟨fun h => (fieldOfReg_of_regOfField h).symm, fun h => h ▸ regOfField_fieldOfReg r⟩

theorem unusedField_eq_ok_iff {f : BitVec 4} {u : Unit} : unusedField f = .ok u ↔ f = 0#4 := by
  unfold unusedField; split <;> simp [*]

theorem lowBitsZero_eq_ok_iff {w : Word} {u : Unit} : lowBitsZero w = .ok u ↔ zeroField w = 0#12 := by
  unfold lowBitsZero; split <;> simp [*]

/-- A check and what follows it answer a value when both do. -/
theorem bind_eq_ok_iff {α β : Type} {x : Except IllegalWord α} {f : α → Except IllegalWord β} {b : β} :
    x >>= f = .ok b ↔ ∃ a, x = .ok a ∧ f a = .ok b := by
  cases x with
  | error e => exact ⟨nofun, nofun⟩
  | ok a => simp [bind, Except.bind]

theorem pure_eq_ok_iff {α : Type} {a b : α} : (pure a : Except IllegalWord α) = .ok b ↔ a = b := by
  simp [pure, Except.pure]

/-! ## One row of the opcode map: its words and its field checks -/

/-- The operands a word of either format can carry; a command uses some of them. -/
structure Operands where
  rd : Reg
  ra : Reg
  rb : Reg
  imm : Half

/-- The field of a register operand: 0 where the command does not use it (R83). -/
def operandField (used : Bool) (r : Reg) : BitVec 4 := if used then fieldOfReg r else 0#4

/-- The check of one register field, used or not (R83); an unused one reads as x0. -/
def readOperand (used : Bool) (f : BitVec 4) : Except IllegalWord Reg :=
  if used then regOfField f else do unusedField f; return .x0

/-- The word of a row with these operands (R81, R82, R92). -/
def rowWord (c : CommandShape) (o : Operands) : Word :=
  if c.immediate then
    wordI (BitVec.ofNat 8 c.op) (operandField c.usesRd o.rd) (operandField c.usesRa o.ra) o.imm
  else
    wordR (BitVec.ofNat 8 c.op) (operandField c.usesRd o.rd) (operandField c.usesRa o.ra)
      (operandField c.usesRb o.rb)

/-- The field checks of R87 for a row, with the operands they read. -/
def readOperands (c : CommandShape) (w : Word) : Except IllegalWord Operands := do
  let rd ← readOperand c.usesRd (rdField w)
  let ra ← readOperand c.usesRa (raField w)
  if c.immediate then
    return ⟨rd, ra, .x0, immField w⟩
  else
    let rb ← readOperand c.usesRb (rbField w)
    lowBitsZero w
    return ⟨rd, ra, rb, 0#16⟩

/-- The operands a row uses, the others being x0 and 0. -/
def usedOperands (c : CommandShape) (o : Operands) : Operands where
  rd := if c.usesRd then o.rd else .x0
  ra := if c.usesRa then o.ra else .x0
  rb := if !c.immediate && c.usesRb then o.rb else .x0
  imm := if c.immediate then o.imm else 0#16

theorem eq_operandField_of_readOperand {used : Bool} {f : BitVec 4} {r : Reg} (h : readOperand used f = .ok r) :
    f = operandField used r := by
  cases used with
  | true => exact regOfField_eq_ok_iff.mp h
  | false =>
    obtain ⟨_, hf, -⟩ := bind_eq_ok_iff.mp h
    exact unusedField_eq_ok_iff.mp hf

@[simp] theorem readOperand_operandField (used : Bool) (r : Reg) :
    readOperand used (operandField used r) = .ok (if used then r else .x0) := by
  cases used with
  | true => exact regOfField_fieldOfReg r
  | false => rfl

/-- The field checks pass on a word of the row only. -/
theorem eq_rowWord_of_readOperands {c : CommandShape} {w : Word} {o : Operands}
    (hop : opField w = BitVec.ofNat 8 c.op) (h : readOperands c w = .ok o) : w = rowWord c o := by
  obtain ⟨rd, hrd, h⟩ := bind_eq_ok_iff.mp h
  obtain ⟨ra, hra, h⟩ := bind_eq_ok_iff.mp h
  have hrd := eq_operandField_of_readOperand hrd
  have hra := eq_operandField_of_readOperand hra
  unfold rowWord
  split at h
  · obtain rfl := pure_eq_ok_iff.mp h
    rw [if_pos ‹_›]
    exact eq_wordI_iff.mpr ⟨hop, hrd, hra, rfl⟩
  · obtain ⟨rb, hrb, h⟩ := bind_eq_ok_iff.mp h
    obtain ⟨_, hzero, h⟩ := bind_eq_ok_iff.mp h
    obtain rfl := pure_eq_ok_iff.mp h
    rw [if_neg ‹_›]
    exact eq_wordR_iff.mpr
      ⟨hop, hrd, hra, eq_operandField_of_readOperand hrb, lowBitsZero_eq_ok_iff.mp hzero⟩

theorem opField_rowWord (c : CommandShape) (o : Operands) : opField (rowWord c o) = BitVec.ofNat 8 c.op := by
  unfold rowWord
  split
  · exact opField_wordI _ _ _ _
  · exact opField_wordR _ _ _ _

/-- The field checks pass on every word of the row, and read the operands the row uses. -/
theorem readOperands_rowWord (c : CommandShape) (o : Operands) :
    readOperands c (rowWord c o) = .ok (usedOperands c o) := by
  unfold readOperands rowWord usedOperands
  cases c.immediate with
  | true =>
    simp only [if_true, rdField_wordI, raField_wordI, immField_wordI, readOperand_operandField]
    rfl
  | false =>
    simp only [Bool.false_eq_true, if_false, rdField_wordR, raField_wordR, rbField_wordR,
      readOperand_operandField, lowBitsZero, zeroField_wordR]
    rfl

/-! ## The opcode map and its commands -/

/-- The rows of R88 with the command each stands for. -/
def commandRows : List (CommandShape × (Operands → Instr)) :=
  [ (⟨0x01, false, true, false, false⟩, fun o => .zero o.rd),
    (⟨0x02, false, true, false, false⟩, fun o => .max o.rd),
    (⟨0x03, false, true, true, false⟩, fun o => .resize o.rd o.ra),
    (⟨0x04, false, true, true, false⟩, fun o => .set o.rd o.ra),
    (⟨0x08, false, true, true, false⟩, fun o => .not o.rd o.ra),
    (⟨0x09, false, true, true, true⟩, fun o => .and o.rd o.ra o.rb),
    (⟨0x0A, false, true, true, true⟩, fun o => .or o.rd o.ra o.rb),
    (⟨0x0B, false, true, true, true⟩, fun o => .xor o.rd o.ra o.rb),
    (⟨0x10, true, true, true, false⟩, fun o => .lsh0 o.rd o.ra o.imm),
    (⟨0x11, true, true, true, false⟩, fun o => .lsh1 o.rd o.ra o.imm),
    (⟨0x12, true, true, true, false⟩, fun o => .rsh0 o.rd o.ra o.imm),
    (⟨0x13, true, true, true, false⟩, fun o => .rsh1 o.rd o.ra o.imm),
    (⟨0x20, false, true, true, true⟩, fun o => .add o.rd o.ra o.rb),
    (⟨0x21, false, true, true, true⟩, fun o => .sub o.rd o.ra o.rb),
    (⟨0x22, false, true, true, true⟩, fun o => .mul o.rd o.ra o.rb),
    (⟨0x24, false, true, true, true⟩, fun o => .div o.rd o.ra o.rb),
    (⟨0x25, false, true, true, true⟩, fun o => .mod o.rd o.ra o.rb),
    (⟨0x30, false, false, true, true⟩, fun o => .cmp o.ra o.rb),
    (⟨0x31, false, false, true, false⟩, fun o => .isZero o.ra),
    (⟨0x40, true, false, true, false⟩, fun o => .toStr o.ra o.imm),
    (⟨0x41, true, true, false, false⟩, fun o => .fromStr o.rd o.imm) ]

/-- The row of an opcode. -/
def rowOfOpcode (op : Nat) : Option (CommandShape × (Operands → Instr)) := commandRows.find? (op == ·.1.op)

/-- The operands of a command. -/
def operandsOf : Instr → Operands
  | .zero rd | .max rd => ⟨rd, .x0, .x0, 0#16⟩
  | .resize rd ra | .set rd ra | .not rd ra => ⟨rd, ra, .x0, 0#16⟩
  | .and rd ra rb | .or rd ra rb | .xor rd ra rb | .add rd ra rb | .sub rd ra rb | .mul rd ra rb | .div rd ra rb
  | .mod rd ra rb => ⟨rd, ra, rb, 0#16⟩
  | .lsh0 rd ra k | .lsh1 rd ra k | .rsh0 rd ra k | .rsh1 rd ra k => ⟨rd, ra, .x0, k⟩
  | .cmp ra rb => ⟨.x0, ra, rb, 0#16⟩
  | .isZero ra => ⟨.x0, ra, .x0, 0#16⟩
  | .toStr ra base => ⟨.x0, ra, .x0, base⟩
  | .fromStr rd base => ⟨rd, .x0, .x0, base⟩

theorem commandRows_map_shape : commandRows.map Prod.fst = commandShapes := rfl

theorem rowOfOpcode_of_mem {row : CommandShape × (Operands → Instr)} (h : row ∈ commandRows) :
    rowOfOpcode row.1.op = some row := by
  fin_cases h <;> rfl

theorem encode_command {row : CommandShape × (Operands → Instr)} (h : row ∈ commandRows) (o : Operands) :
    encode (row.2 o) = rowWord row.1 o := by
  fin_cases h <;> rfl

theorem command_usedOperands {row : CommandShape × (Operands → Instr)} (h : row ∈ commandRows) (o : Operands) :
    row.2 (usedOperands row.1 o) = row.2 o := by
  fin_cases h <;> rfl

theorem rowOfOpcode_eq_some_iff {op : Nat} {row : CommandShape × (Operands → Instr)} :
    rowOfOpcode op = some row ↔ row ∈ commandRows ∧ op = row.1.op := by
  constructor
  · intro h
    exact ⟨List.mem_of_find?_eq_some h, beq_iff_eq.mp (List.find?_some h :)⟩
  · rintro ⟨hmem, rfl⟩
    exact rowOfOpcode_of_mem hmem

/-- Every command is one of a row. -/
theorem exists_row (i : Instr) : ∃ row ∈ commandRows, row.2 (operandsOf i) = i := by
  have hrow : ∃ row, rowOfOpcode (opcodeOf i).toNat = some row ∧ row.2 (operandsOf i) = i := by
    cases i <;> exact ⟨_, rfl, rfl⟩
  obtain ⟨row, hrow, hi⟩ := hrow
  exact ⟨row, (rowOfOpcode_eq_some_iff.mp hrow).1, hi⟩

/-! ## The decoder reads the opcode map -/

section forms
variable (op : Nat) (w : Word)

theorem formD_eq (c : Reg → Instr) :
    formD c w = (do let o ← readOperands ⟨op, false, true, false, false⟩ w; return c o.rd) := by
  simp [formD, readOperands, readOperand]

theorem formDA_eq (c : Reg → Reg → Instr) :
    formDA c w = (do let o ← readOperands ⟨op, false, true, true, false⟩ w; return c o.rd o.ra) := by
  simp [formDA, readOperands, readOperand]

theorem formDAB_eq (c : Reg → Reg → Reg → Instr) :
    formDAB c w = (do let o ← readOperands ⟨op, false, true, true, true⟩ w; return c o.rd o.ra o.rb) := by
  simp [formDAB, readOperands, readOperand]

theorem formAB_eq (c : Reg → Reg → Instr) :
    formAB c w = (do let o ← readOperands ⟨op, false, false, true, true⟩ w; return c o.ra o.rb) := by
  simp [formAB, readOperands, readOperand]

theorem formA_eq (c : Reg → Instr) :
    formA c w = (do let o ← readOperands ⟨op, false, false, true, false⟩ w; return c o.ra) := by
  simp [formA, readOperands, readOperand]

theorem formDAI_eq (c : Reg → Reg → Half → Instr) :
    formDAI c w = (do let o ← readOperands ⟨op, true, true, true, false⟩ w; return c o.rd o.ra o.imm) := by
  simp [formDAI, readOperands, readOperand]

theorem formAI_eq (c : Reg → Half → Instr) :
    formAI c w = (do let o ← readOperands ⟨op, true, false, true, false⟩ w; return c o.ra o.imm) := by
  simp [formAI, readOperands, readOperand]

theorem formDI_eq (c : Reg → Half → Instr) :
    formDI c w = (do let o ← readOperands ⟨op, true, true, false, false⟩ w; return c o.rd o.imm) := by
  simp [formDI, readOperands, readOperand]

end forms

/-- R87: the decoder finds the row of the opcode and makes the row's field checks. -/
theorem decode_eq_lookup (w : Word) :
    decode w = (rowOfOpcode (opField w).toNat).elim (.error .unassignedOp)
      fun row => do let o ← readOperands row.1 w; return row.2 o := by
  unfold decode
  split
  case h_1 hop | h_2 hop => rw [hop]; exact formD_eq _ _ _
  case h_3 hop | h_4 hop | h_5 hop => rw [hop]; exact formDA_eq _ _ _
  case h_6 hop | h_7 hop | h_8 hop | h_13 hop | h_14 hop | h_15 hop | h_16 hop | h_17 hop =>
    rw [hop]; exact formDAB_eq _ _ _
  case h_9 hop | h_10 hop | h_11 hop | h_12 hop => rw [hop]; exact formDAI_eq _ _ _
  case h_18 hop => rw [hop]; exact formAB_eq _ _ _
  case h_19 hop => rw [hop]; exact formA_eq _ _ _
  case h_20 hop => rw [hop]; exact formAI_eq _ _ _
  case h_21 hop => rw [hop]; exact formDI_eq _ _ _
  case h_22 =>
    have hnone : rowOfOpcode (opField w).toNat = none := by
      simp_all [rowOfOpcode, commandRows]
    rw [hnone]
    rfl

theorem opcode_lt {c : CommandShape} (h : c ∈ commandShapes) : c.op < 2 ^ 8 := by
  revert c; decide

theorem opField_eq_ofNat_iff {c : CommandShape} (h : c ∈ commandShapes) {w : Word} :
    opField w = BitVec.ofNat 8 c.op ↔ (opField w).toNat = c.op := by
  rw [← BitVec.toNat_inj, BitVec.toNat_ofNat, Nat.mod_eq_of_lt (opcode_lt h)]

theorem shape_mem {row : CommandShape × (Operands → Instr)} (h : row ∈ commandRows) : row.1 ∈ commandShapes :=
  List.mem_map_of_mem h

/-- A word decodes when the row of its opcode reads its operands. -/
theorem decode_eq_ok_iff {w : Word} {i : Instr} :
    decode w = .ok i ↔ ∃ row ∈ commandRows, (opField w).toNat = row.1.op ∧
      ∃ o, readOperands row.1 w = .ok o ∧ row.2 o = i := by
  rw [decode_eq_lookup]
  constructor
  · intro h
    cases hrow : rowOfOpcode (opField w).toNat with
    | none => rw [hrow] at h; cases h
    | some row =>
      rw [hrow] at h
      obtain ⟨o, ho, h⟩ := bind_eq_ok_iff.mp h
      obtain ⟨hmem, hop⟩ := rowOfOpcode_eq_some_iff.mp hrow
      exact ⟨row, hmem, hop, o, ho, pure_eq_ok_iff.mp h⟩
  · rintro ⟨row, hmem, hop, o, ho, hi⟩
    rw [rowOfOpcode_eq_some_iff.mpr ⟨hmem, hop⟩]
    exact bind_eq_ok_iff.mpr ⟨o, ho, pure_eq_ok_iff.mpr hi⟩

/-! ## The round trips -/

/-- Settles O1: a command is one of a row, its word is the row's word with its operands, and the field checks read
them back. -/
theorem decodeOfEncodeIsIdentity : Obligations.DecodeOfEncodeIsIdentity := by
  intro i
  obtain ⟨row, hmem, hi⟩ := exists_row i
  have henc : encode i = rowWord row.1 (operandsOf i) := by rw [← encode_command hmem, hi]
  rw [henc, decode_eq_ok_iff]
  exact ⟨row, hmem, (opField_eq_ofNat_iff (shape_mem hmem)).mp (opField_rowWord _ _), _,
    readOperands_rowWord _ _, (command_usedOperands hmem _).trans hi⟩

/-- Settles O2: the field checks pass on the row's words only, and those are the words of its commands. -/
theorem encodeOfDecodeIsIdentity : Obligations.EncodeOfDecodeIsIdentity := by
  intro w i h
  obtain ⟨row, hmem, hop, o, ho, rfl⟩ := decode_eq_ok_iff.mp h
  rw [encode_command hmem]
  exact (eq_rowWord_of_readOperands ((opField_eq_ofNat_iff (shape_mem hmem)).mpr hop) ho).symm

/-- Settles O5: each word of R92 is the word of the command it is written for. -/
theorem exampleWordsDecode : Obligations.ExampleWordsDecode :=
  ⟨decodeOfEncodeIsIdentity (.add .x2 .x0 .x1), decodeOfEncodeIsIdentity (.lsh1 .x3 .x3 9#16),
    decodeOfEncodeIsIdentity (.cmp .x0 .x1), decodeOfEncodeIsIdentity (.isZero .x4),
    decodeOfEncodeIsIdentity (.toStr .x2 16#16), decodeOfEncodeIsIdentity (.fromStr .x5 10#16),
    decodeOfEncodeIsIdentity (.zero .x7)⟩

/-! ## The two forms of R87 -/

theorem registerFieldLegal_iff_readOperand {used : Bool} {f : BitVec 4} :
    registerFieldLegal used f.toNat = true ↔ ∃ r, readOperand used f = .ok r := by
  have hisOk : registerFieldLegal used f.toNat = (readOperand used f).isOk := by revert used f; decide
  rw [hisOk]
  cases readOperand used f <;> simp [Except.isOk, Except.toBool]

/-- The bits of a register field that must be 0 (R87): the top one where the command uses it, all where it does not. -/
def fieldMask (used : Bool) : BitVec 4 := if used then 0x8#4 else 0xF#4

theorem registerFieldLegal_iff_mask (used : Bool) (f : BitVec 4) :
    registerFieldLegal used f.toNat = true ↔ f &&& fieldMask used = 0#4 := by
  revert used f; decide

/-- The fields the checks of R87 look at, as bit fields of the word. -/
theorem accepts_iff {c : CommandShape} {w : Word} :
    c.accepts w = true ↔ (opField w).toNat = c.op ∧ registerFieldLegal c.usesRd (rdField w).toNat = true ∧
      registerFieldLegal c.usesRa (raField w).toNat = true ∧
      (c.immediate = true ∨
        registerFieldLegal c.usesRb (rbField w).toNat = true ∧ zeroField w = 0#12) := by
  have hop : bitField w 31 24 = (opField w).toNat := (BitVec.extractLsb'_toNat ..).symm
  have hrd : bitField w 23 20 = (rdField w).toNat := (BitVec.extractLsb'_toNat ..).symm
  have hra : bitField w 19 16 = (raField w).toNat := (BitVec.extractLsb'_toNat ..).symm
  have hrb : bitField w 15 12 = (rbField w).toNat := (BitVec.extractLsb'_toNat ..).symm
  have hzero : bitField w 11 0 = (zeroField w).toNat := (BitVec.extractLsb'_toNat ..).symm
  rw [CommandShape.accepts, hop, hrd, hra, hrb, hzero]
  simp only [Bool.and_eq_true, Bool.or_eq_true, beq_iff_eq, and_assoc, BitVec.toNat_eq]
  rfl

/-- A row accepts a word exactly when its field checks read operands. -/
theorem accepts_iff_readOperands {c : CommandShape} {w : Word} :
    c.accepts w = true ↔ (opField w).toNat = c.op ∧ ∃ o, readOperands c w = .ok o := by
  simp only [accepts_iff, registerFieldLegal_iff_readOperand, readOperands]
  cases c.immediate with
  | true =>
    simp only [if_true, bind_eq_ok_iff, pure_eq_ok_iff]
    grind
  | false =>
    simp only [Bool.false_eq_true, if_false, bind_eq_ok_iff, pure_eq_ok_iff, lowBitsZero_eq_ok_iff]
    grind

/-- R87 by fields: a word decodes exactly when a row of R88 accepts it. -/
theorem exists_decode_iff_legalByFields (w : Word) : (∃ i, decode w = .ok i) ↔ legalByFields w = true := by
  rw [legalByFields, ← commandRows_map_shape, List.any_map, List.any_eq_true]
  simp only [decode_eq_ok_iff, Function.comp_apply, accepts_iff_readOperands]
  constructor
  · rintro ⟨i, row, hmem, hop, o, ho, -⟩
    exact ⟨row, hmem, hop, o, ho⟩
  · rintro ⟨row, hmem, hop, o, ho⟩
    exact ⟨row.2 o, row, hmem, hop, o, ho, rfl⟩

/-- The mask R87 computes for a row: the opcode, the bits of the register fields that must be 0, and in format R the
zero field. -/
def rowMask (c : CommandShape) : Word :=
  wordI (BitVec.allOnes 8) (fieldMask c.usesRd) (fieldMask c.usesRa)
    (if c.immediate then 0#16 else fieldMask c.usesRb ++ BitVec.allOnes 12)

/-- The match of a row: its opcode, every operand bit 0 (R87). -/
def rowMatch (c : CommandShape) : Word := wordI (BitVec.ofNat 8 c.op) 0#4 0#4 0#16

/-- spec/opcode_table.json holds the match and the mask of every row of R88, in order. -/
theorem opcodeRows_eq_commandShapes :
    opcodeRows.map (fun r => (r.pattern, r.mask)) = commandShapes.map (fun c => (rowMatch c, rowMask c)) := by
  decide

section masked
variable (x y : Word)

theorem opField_and : opField (x &&& y) = opField x &&& opField y := BitVec.extractLsb'_and
theorem rdField_and : rdField (x &&& y) = rdField x &&& rdField y := BitVec.extractLsb'_and
theorem raField_and : raField (x &&& y) = raField x &&& raField y := BitVec.extractLsb'_and
theorem immField_and : immField (x &&& y) = immField x &&& immField y := BitVec.extractLsb'_and

end masked

/-- In format R the mask asks for the rb field's check and for a zero field of 0 (R81, R87). -/
theorem immField_and_eq_zero_iff (w : Word) (m : BitVec 4) :
    immField w &&& (m ++ BitVec.allOnes 12) = 0#16 ↔ rbField w &&& m = 0#4 ∧ zeroField w = 0#12 := by
  have hand : immField w &&& (m ++ BitVec.allOnes 12) = (rbField w &&& m) ++ zeroField w := by
    rw [immField_eq_append]
    exact BitVec.and_append.trans (by rw [BitVec.and_allOnes])
  rw [hand]
  constructor
  · intro h
    have hrb := congrArg (BitVec.extractLsb' 12 4) h
    have hzero := congrArg (BitVec.extractLsb' 0 12) h
    rw [BitVec.extractLsb'_append_eq_left] at hrb
    rw [BitVec.extractLsb'_append_eq_right] at hzero
    exact ⟨hrb, hzero⟩
  · rintro ⟨hrb, hzero⟩
    rw [hrb, hzero]
    rfl

/-- R87's equivalence for one row: the masked word is the row's match exactly when the row accepts the word. -/
theorem and_rowMask_eq_rowMatch_iff {c : CommandShape} (hc : c ∈ commandShapes) (w : Word) :
    w &&& rowMask c = rowMatch c ↔ c.accepts w = true := by
  rw [rowMatch, eq_wordI_iff, accepts_iff, rowMask, opField_and, rdField_and, raField_and, immField_and, opField_wordI,
    rdField_wordI, raField_wordI, immField_wordI, BitVec.and_allOnes, opField_eq_ofNat_iff hc]
  simp only [registerFieldLegal_iff_mask]
  cases c.immediate with
  | true => simp
  | false => simp only [Bool.false_eq_true, if_false, immField_and_eq_zero_iff, false_or]

/-- The rows of the table a word meets are as many as the rows of R88 that accept it. -/
theorem length_matchingRows (w : Word) :
    (matchingRows w).length = commandShapes.countP (·.accepts w) := by
  calc (matchingRows w).length
      = opcodeRows.countP (fun r => w &&& r.mask == r.pattern) := List.countP_eq_length_filter.symm
    _ = (opcodeRows.map fun r => (r.pattern, r.mask)).countP (fun p => w &&& p.2 == p.1) := by
        rw [List.countP_map]; rfl
    _ = commandShapes.countP (fun c => w &&& rowMask c == rowMatch c) := by
        rw [opcodeRows_eq_commandShapes, List.countP_map]; rfl
    _ = commandShapes.countP (·.accepts w) :=
        List.countP_congr fun c hc => by rw [beq_iff_eq, and_rowMask_eq_rowMatch_iff hc]

/-- At most one row accepts a word, since the rows have different opcodes. -/
theorem countP_accepts_le_one (w : Word) : commandShapes.countP (·.accepts w) ≤ 1 := by
  calc commandShapes.countP (·.accepts w)
      ≤ commandShapes.countP (fun c => c.op == (opField w).toNat) :=
        List.countP_mono_left fun c _ hc => beq_iff_eq.mpr (accepts_iff.mp hc).1.symm
    _ = (commandShapes.map (·.op)).count (opField w).toNat := by rw [List.count, List.countP_map]; rfl
    _ ≤ 1 := List.nodup_iff_count_le_one.mp (by decide) _

/-- The two forms of R87 agree: one row matches exactly when some row accepts, no two accepting together. -/
theorem legalByMask_eq_legalByFields (w : Word) : legalByMask w = legalByFields w := by
  have hle := countP_accepts_le_one w
  have hpos : 0 < commandShapes.countP (·.accepts w) ↔ legalByFields w = true :=
    List.countP_pos_iff.trans List.any_eq_true.symm
  rw [legalByMask, length_matchingRows, Bool.eq_iff_iff, beq_iff_eq, ← hpos]
  omega

/-- Settles O3: a word decodes exactly when a row accepts it by its fields, and the rows that match by mask are the rows
that accept, of which there is at most one. -/
theorem wordsDecodeExactlyByFieldsAndByMasks : Obligations.WordsDecodeExactlyByFieldsAndByMasks := by
  intro w
  have hfields := exists_decode_iff_legalByFields w
  refine ⟨hfields, ?_, ?_⟩
  · rwa [legalByMask_eq_legalByFields]
  · rw [length_matchingRows]
    exact countP_accepts_le_one w

end Sys2Proof.Proofs
end

section
/-!
PROOFS. The terms of the commands' rules, said once (a command's word in format R or I, `Fails` and `Writes` from how
`exec` ends), and with them the rules and the laws of the buffer primitives (spec/40_buffer_primitives.md R110 to R114).
-/

namespace Sys2Proof.Proofs
open Sys2Proof.Machine Sys2Proof.Laws

/-! ## The word of a command, as the number R92 writes -/

theorem fieldOfReg_toNat (r : Reg) : (fieldOfReg r).toNat = regNumber r := by cases r <;> rfl

theorem wordI_toNat (op : BitVec 8) (rd ra : BitVec 4) (imm : Half) :
    (wordI op rd ra imm).toNat = op.toNat * 2 ^ 24 + rd.toNat * 2 ^ 20 + ra.toNat * 2 ^ 16 + imm.toNat := by
  unfold wordI
  rw [BitVec.toNat_append, BitVec.toNat_append, BitVec.toNat_append, ← Nat.shiftLeft_add_eq_or_of_lt imm.isLt,
    ← Nat.shiftLeft_add_eq_or_of_lt ra.isLt, ← Nat.shiftLeft_add_eq_or_of_lt rd.isLt]
  simp only [Nat.shiftLeft_eq]
  omega

/-- R82: the fields of format I at their weights. -/
theorem wordI_eq_formatI (op : BitVec 8) (rd ra : BitVec 4) (imm : Half) :
    wordI op rd ra imm = formatI op.toNat rd.toNat ra.toNat imm.toNat := by
  rw [formatI, ← wordI_toNat, BitVec.ofNat_toNat, BitVec.setWidth_eq]

/-- R81: the fields of format R at their weights. -/
theorem wordR_eq_formatR (op : BitVec 8) (rd ra rb : BitVec 4) :
    wordR op rd ra rb = formatR op.toNat rd.toNat ra.toNat rb.toNat := by
  have hrb : (rb ++ 0#12 : Half).toNat = rb.toNat * 2 ^ 12 := by
    rw [BitVec.toNat_append, ← Nat.shiftLeft_add_eq_or_of_lt (0#12).isLt, Nat.shiftLeft_eq]
    exact Nat.add_zero _
  rw [wordR_eq_wordI, wordI_eq_formatI, hrb]
  rfl

/-- The decoder reads back the word a command encodes to, so the encoder alone decides how a command is spelled. -/
theorem spelled_of_encode {i : Instr} {w : Word} (h : encode i = w) : Spelled i w :=
  ⟨h, h ▸ decodeOfEncodeIsIdentity i⟩

section format
variable {i : Instr} {op : BitVec 8} (rd ra : Reg)

theorem spelled_formatR_rd (h : encode i = wordR op (fieldOfReg rd) 0#4 0#4) :
    Spelled i (formatR op.toNat (regNumber rd) 0 0) :=
  spelled_of_encode (by rw [h, wordR_eq_formatR, fieldOfReg_toNat]; rfl)

theorem spelled_formatR_rd_ra (h : encode i = wordR op (fieldOfReg rd) (fieldOfReg ra) 0#4) :
    Spelled i (formatR op.toNat (regNumber rd) (regNumber ra) 0) :=
  spelled_of_encode (by rw [h, wordR_eq_formatR, fieldOfReg_toNat, fieldOfReg_toNat]; rfl)

end format

/-! ## How a command ends, in the terms of the rules -/

section ends
variable {i : Instr} {s : State} {rd : Reg} {b : Buffer}

theorem fails_of_raise {e : ErrorKind} (h : exec i s = raise e s) : Fails i s e.code := ⟨_, h, rfl⟩

theorem onlyRegister_setReg (s : State) (rd : Reg) (b : Buffer) :
    OnlyRegister s ((s.setReg rd b).setErr 0#4) rd b :=
  ⟨setReg_getReg_same s rd b, fun _ hr => setReg_getReg_other s rd b hr, fun _ => rfl,
    rfl, rfl, rfl, rfl, rfl, rfl, rfl⟩

theorem writes_of_succeed {P : Buffer → Prop} (h : exec i s = succeed (s.setReg rd b)) (hb : P b) :
    Writes i s rd P := ⟨_, b, h, onlyRegister_setReg s rd b, hb⟩

theorem execAll_cons_of_succeed {u : State} {is : List Instr} (h : exec i s = succeed u) :
    execAll (i :: is) s = execAll is (u.setErr 0#4) := by
  rw [execAll, h, succeed]

/-- A list of commands whose last one writes `b` to `r` yields `b` there. -/
theorem yields_of_succeed {is : List Instr} {u : State} {r : Reg}
    (h : execAll is s = succeed (u.setReg r b)) : Yields is s r b :=
  ⟨_, h, rfl, setReg_getReg_same u r b⟩

end ends

/-! ## The command shapes, one equation per check -/

section shapes
variable {s : State} {rd ra : Reg}

theorem creatorCommand_of_badWidth {f : Nat → Buffer} (h : badWidth s) :
    creatorCommand f rd s = raise .invalidOperand s := by
  rw [creatorCommand, declaredWidth_of_bad h]

theorem creatorCommand_of_legalWidth {f : Nat → Buffer} (h : ¬ badWidth s) :
    creatorCommand f rd s = succeed (s.setReg rd (f s.width.toNat)) := by
  unfold badWidth at h
  rw [creatorCommand, declaredWidth_of_ok (by omega) (by omega)]

theorem unaryCommand_of_ne {f : Buffer → Buffer} (ha : s.getReg ra ≠ []) :
    unaryCommand f rd ra s = succeed (s.setReg rd (f (s.getReg ra))) := by
  rw [unaryCommand, sourceOperand_of_ne ha]

theorem execNot_of_ne (ha : s.getReg ra ≠ []) :
    exec (.not rd ra) s = succeed (s.setReg rd (notBuffer (s.getReg ra))) :=
  unaryCommand_of_ne ha

theorem execIsZero_of_ne (ha : s.getReg ra ≠ []) :
    exec (.isZero ra) s = succeed (s.setZ (allZero (s.getReg ra))) := by
  rw [exec, execIsZero, sourceOperand_of_ne ha]

theorem execResize_of_bad (h : s.getReg ra = [] ∨ badWidth s) :
    exec (.resize rd ra) s = raise .invalidOperand s := by
  rw [exec, execResize]
  by_cases ha : s.getReg ra = []
  · rw [sourceOperand_of_empty ha]
  · rw [sourceOperand_of_ne ha]
    exact creatorCommand_of_badWidth (h.resolve_left ha)

theorem execResize_of_ok (ha : s.getReg ra ≠ []) (hw : ¬ badWidth s) :
    exec (.resize rd ra) s = succeed (s.setReg rd (resizeBuffer s.width.toNat (s.getReg ra))) := by
  rw [exec, execResize, sourceOperand_of_ne ha]
  exact creatorCommand_of_legalWidth hw

theorem execSet_of_empty (h : s.getReg rd = [] ∨ s.getReg ra = []) :
    exec (.set rd ra) s = raise .invalidOperand s := by
  rw [exec, execSet, operandPair_of_empty h]

theorem execSet_of_mismatch (hd : s.getReg rd ≠ []) (ha : s.getReg ra ≠ [])
    (hl : (s.getReg rd).length ≠ (s.getReg ra).length) : exec (.set rd ra) s = raise .lengthMismatch s := by
  rw [exec, execSet, operandPair_of_mismatch hd ha hl]

theorem execSet_of_ok (hd : s.getReg rd ≠ []) (hl : (s.getReg rd).length = (s.getReg ra).length) :
    exec (.set rd ra) s = succeed (s.setReg rd (s.getReg ra)) := by
  rw [exec, execSet, operandPair_of_ok hd hl]

end shapes

/-! ## The creators without a source -/

/-- The commands `c` write the buffer `f N` of WIDTH.N bytes, and read nothing else. -/
structure Creates (c : Reg → Instr) (f : Nat → Buffer) : Prop where
  exec_eq : ∀ rd s, exec (c rd) s = creatorCommand f rd s
  length_eq : ∀ n, (f n).length = n

theorem creates_zero : Creates .zero zeroBuffer := ⟨fun _ _ => rfl, length_zeroBuffer⟩

theorem creates_max : Creates .max maxBuffer := ⟨fun _ _ => rfl, length_maxBuffer⟩

section creators
variable {c d : Reg → Instr} {f g : Nat → Buffer} {s : State}

theorem Creates.exec_of_legalWidth (hc : Creates c f) (rd : Reg) (hw : ¬ badWidth s) :
    exec (c rd) s = succeed (s.setReg rd (f s.width.toNat)) :=
  (hc.exec_eq rd s).trans (creatorCommand_of_legalWidth hw)

theorem Creates.ne_nil (hc : Creates c f) (hw : ¬ badWidth s) : f s.width.toNat ≠ [] := by
  rw [← List.length_pos_iff, hc.length_eq]
  unfold badWidth at hw
  omega

/-- The rule of a creator, from its word and from what its buffer satisfies. -/
theorem Creates.rule (hc : Creates c f) {op : BitVec 8}
    (henc : ∀ rd, encode (c rd) = wordR op (fieldOfReg rd) 0#4 0#4) {P : Nat → Buffer → Prop}
    (hP : ∀ n, P n (f n)) : CreatorRule c op.toNat P := fun s rd =>
  ⟨spelled_formatR_rd rd (henc rd),
    fun hw => fails_of_raise ((hc.exec_eq rd s).trans (creatorCommand_of_badWidth hw)),
    fun hw => writes_of_succeed (hc.exec_of_legalWidth rd hw) ⟨hc.length_eq _, hP _⟩⟩

/-- The commands that follow a creator run on a state in which its register holds the created buffer. -/
theorem Creates.execAll_cons (hc : Creates c f) (r : Reg) (hw : ¬ badWidth s) :
    ∃ u : State, u.getReg r = f s.width.toNat ∧ ∀ is, execAll (c r :: is) s = execAll is u :=
  ⟨(s.setReg r (f s.width.toNat)).setErr 0#4, setReg_getReg_same s r _, fun _ =>
    execAll_cons_of_succeed (hc.exec_of_legalWidth r hw)⟩

/-- ISZERO of a created buffer leaves it in place and sets Z by its bytes (R114 (c), (d)). -/
theorem Creates.then_isZero (hc : Creates c f) (r : Reg) (hw : ¬ badWidth s) :
    ∃ t, execAll [c r, .isZero r] s = .next t ∧ t.getReg r = f s.width.toNat ∧
      t.status.z = allZero (f s.width.toNat) := by
  obtain ⟨u, hu, hrun⟩ := hc.execAll_cons r hw
  have hz := execIsZero_of_ne (hu.symm ▸ hc.ne_nil hw)
  rw [hu] at hz
  exact ⟨_, (hrun _).trans (execAll_cons_of_succeed hz), hu, rfl⟩

/-- If the complements of one creator's buffers are another's, NOT after the one leaves what the other creates
(R114 (e)). -/
theorem Creates.then_not (hc : Creates c f) (hd : Creates d g) (hfg : ∀ n, notBuffer (f n) = g n) (r q : Reg)
    (hw : ¬ badWidth s) : SameResult [c r, .not q r] q [d q] q s := by
  obtain ⟨u, hu, hrun⟩ := hc.execAll_cons r hw
  have hnot := execNot_of_ne (rd := q) (hu.symm ▸ hc.ne_nil hw)
  rw [hu, hfg] at hnot
  exact ⟨g s.width.toNat, yields_of_succeed ((hrun _).trans (execAll_cons_of_succeed hnot)),
    yields_of_succeed (execAll_cons_of_succeed (hd.exec_of_legalWidth q hw))⟩

end creators

/-! ## The buffers of the primitives -/

theorem notBuffer_zeroBuffer (n : Nat) : notBuffer (zeroBuffer n) = maxBuffer n := List.map_replicate

theorem notBuffer_maxBuffer (n : Nat) : notBuffer (maxBuffer n) = zeroBuffer n := List.map_replicate

theorem allZero_zeroBuffer (n : Nat) : allZero (zeroBuffer n) = true := (allZero_iff _).mpr (val_zeroBuffer n)

theorem allZero_maxBuffer {n : Nat} (hn : 1 ≤ n) : allZero (maxBuffer n) = false := by
  have hpow : 1 < 256 ^ n := Nat.one_lt_pow (by omega) (by decide)
  rw [← Bool.not_eq_true, allZero_iff, val_maxBuffer]
  omega

/-- R112, byte by byte: A[i] below the source's length, and 0x00, the default of `getD`, beyond. -/
theorem getD_resizeBuffer {n i : Nat} (a : Buffer) (hi : i < n) : (resizeBuffer n a).getD i 0#8 = a.getD i 0#8 := by
  induction n generalizing a i with
  | zero => omega
  | succ n ih =>
    cases i with
    | zero => cases a <;> rfl
    | succ i =>
      cases a with
      | nil => exact ih [] (by omega)
      | cons x a => exact ih a (by omega)

/-- Up and back loses nothing (R114 (a)). -/
theorem resizeBuffer_resizeBuffer_of_le {a : Buffer} {n : Nat} (h : a.length ≤ n) :
    resizeBuffer a.length (resizeBuffer n a) = a := by
  refine val_injective (length_resizeBuffer _ _) ?_
  rw [val_resizeBuffer, val_resizeBuffer, Nat.mod_mod_of_dvd _ (Nat.pow_dvd_pow 256 h),
    Nat.mod_eq_of_lt (val_lt a)]

/-- Down and back keeps what the N bytes between hold (R114 (b)). -/
theorem val_resizeBuffer_resizeBuffer_of_lt {a : Buffer} {n : Nat} (h : n < a.length) :
    val (resizeBuffer a.length (resizeBuffer n a)) = val a % 256 ^ n := by
  have hlt : val a % 256 ^ n < 256 ^ a.length :=
    (Nat.mod_lt _ (by positivity)).trans_le (Nat.pow_le_pow_right (by decide) h.le)
  rw [val_resizeBuffer, val_resizeBuffer, Nat.mod_eq_of_lt hlt]

/-! ## The rules -/

/-- Settles O15: ZERO is a creator, and its buffer is a replicate of 0x00. -/
theorem zeroFollowsItsRule : Obligations.ZeroFollowsItsRule :=
  creates_zero.rule (op := 0x01#8) (fun _ => rfl) fun _ _ => List.eq_of_mem_replicate

/-- Settles O16: MAX is a creator, and its buffer is a replicate of 0xFF. -/
theorem maxFollowsItsRule : Obligations.MaxFollowsItsRule :=
  creates_max.rule (op := 0x02#8) (fun _ => rfl) fun n =>
    ⟨fun _ => List.eq_of_mem_replicate, by rw [val_maxBuffer, two_pow_eight_mul]⟩

/-- Settles O17, from the bytes and the value of a resized buffer. -/
theorem resizeFollowsItsRule : Obligations.ResizeFollowsItsRule := by
  intro s rd ra
  refine ⟨spelled_formatR_rd_ra (op := 0x03#8) rd ra rfl, fun h => fails_of_raise (execResize_of_bad h),
    fun ha hw => writes_of_succeed (execResize_of_ok ha hw) ⟨length_resizeBuffer _ _, fun i hi => ?_, ?_⟩⟩
  · rw [getD_resizeBuffer _ hi]
    split
    · rfl
    · exact List.getD_eq_default _ _ (by omega)
  · rw [val_resizeBuffer, two_pow_eight_mul]

/-- Settles O18: SET's checks are those of a pair of sources, rd being the first. -/
theorem setFollowsItsRule : Obligations.SetFollowsItsRule := fun _ rd ra =>
  ⟨spelled_formatR_rd_ra (op := 0x04#8) rd ra rfl, fun h => fails_of_raise (execSet_of_empty h),
    fun hd ha hl => fails_of_raise (execSet_of_mismatch hd ha hl),
    fun hd hl => writes_of_succeed (execSet_of_ok hd hl) rfl⟩

/-! ## The laws -/

theorem not_badWidth_setWidth {s : State} {n : Half} (hn : 1 ≤ n.toNat) (hnmax : n.toNat ≤ s.params.nmax) :
    ¬ badWidth { s with width := n } := by
  simp only [badWidth]
  omega

/-- RESIZE to a legal WIDTH, as far as the laws look at the state it leaves. -/
theorem resize_next {s : State} {ra : Reg} {n : Half} (rd : Reg) (ha : s.getReg ra ≠ []) (hn : 1 ≤ n.toNat)
    (hnmax : n.toNat ≤ s.params.nmax) :
    ∃ t, exec (.resize rd ra) { s with width := n } = .next t ∧
      t.getReg rd = resizeBuffer n.toNat (s.getReg ra) ∧ t.params = s.params :=
  ⟨_, execResize_of_ok (s := { s with width := n }) ha (not_badWidth_setWidth hn hnmax),
    setReg_getReg_same { s with width := n } rd _, rfl⟩

/-- RESIZE to N bytes and, with WIDTH at the source's length, back. -/
theorem resize_then_back {s : State} (hs : s.Inv) {a : Reg} (r q : Reg) {n : Half} (ha : s.getReg a ≠ [])
    (hn : 1 ≤ n.toNat) (hnmax : n.toNat ≤ s.params.nmax) :
    ∃ t u, exec (.resize r a) { s with width := n } = .next t ∧
      exec (.resize q r) { t with width := BitVec.ofNat 16 (s.getReg a).length } = .next u ∧
      u.getReg q = resizeBuffer (s.getReg a).length (resizeBuffer n.toNat (s.getReg a)) := by
  have hpos := List.length_pos_iff.mpr ha
  have hlen := inv_length_le hs a
  have hbound := nmax_le hs.1
  have hback : (BitVec.ofNat 16 (s.getReg a).length).toNat = (s.getReg a).length :=
    Nat.mod_eq_of_lt (by omega)
  obtain ⟨t, ht, hr, hp⟩ := resize_next r ha hn hnmax
  have hr' : t.getReg r ≠ [] := by rwa [hr, ← List.length_pos_iff, length_resizeBuffer]
  obtain ⟨u, hu, hq, -⟩ := resize_next q hr' (by omega : 1 ≤ (BitVec.ofNat 16 (s.getReg a).length).toNat)
    (by rwa [hback, hp])
  exact ⟨t, u, ht, hu, by rw [hq, hback, hr]⟩

/-- Settles O44: (a) and (b) by the two resizes, (c) to (e) by ZERO and MAX as creators. -/
theorem primitivesObeyTheirLaws : Obligations.PrimitivesObeyTheirLaws := by
  intro s a r q n hs ha hn hnmax
  have hw := not_badWidth_setWidth hn hnmax
  refine ⟨?_, ?_, ?_, creates_zero.then_not creates_max notBuffer_zeroBuffer r q hw,
    creates_max.then_not creates_zero notBuffer_maxBuffer r q hw⟩
  · obtain ⟨t, u, ht, hu, hq⟩ := resize_then_back hs r q ha hn hnmax
    refine ⟨t, u, ht, hu, ?_, fun hle => ?_, fun hlt => ?_⟩
    · rw [hq, length_resizeBuffer]
    · rw [hq, resizeBuffer_resizeBuffer_of_le hle]
    · rw [hq, val_resizeBuffer_resizeBuffer_of_lt hlt, two_pow_eight_mul]
  · obtain ⟨t, ht, hr, hz⟩ := creates_zero.then_isZero r hw
    exact ⟨t, ht, by rw [hr, val_zeroBuffer], hz.trans (allZero_zeroBuffer _)⟩
  · obtain ⟨t, ht, hr, hz⟩ := creates_max.then_isZero r hw
    exact ⟨t, ht, by rw [hr, val_maxBuffer, two_pow_eight_mul], hz.trans (allZero_maxBuffer hn)⟩

end Sys2Proof.Proofs
end

section
/-!
PROOFS. The rules and the laws of the shifts and the bitwise commands (spec/41_shift_bitwise.md R130 to R140). A rule
follows from the shape of its command (`unaryRule_of_exec`, `binaryRule_of_exec`) and from what its buffer satisfies;
the laws of two fills and of two shifts in turn follow from where each bit of a shift comes from (`Shift`).
-/

namespace Sys2Proof.Proofs
open Sys2Proof.Machine Sys2Proof.Laws

/-! ## The words with three registers and with an immediate -/

section format
variable {i : Instr} {op : BitVec 8} (rd ra rb : Reg)

theorem spelled_formatR_rd_ra_rb (h : encode i = wordR op (fieldOfReg rd) (fieldOfReg ra) (fieldOfReg rb)) :
    Spelled i (formatR op.toNat (regNumber rd) (regNumber ra) (regNumber rb)) :=
  spelled_of_encode (by rw [h, wordR_eq_formatR, fieldOfReg_toNat, fieldOfReg_toNat, fieldOfReg_toNat])

theorem spelled_formatI_rd_ra {k : Half} (h : encode i = wordI op (fieldOfReg rd) (fieldOfReg ra) k) :
    Spelled i (formatI op.toNat (regNumber rd) (regNumber ra) k.toNat) :=
  spelled_of_encode (by rw [h, wordI_eq_formatI, fieldOfReg_toNat, fieldOfReg_toNat])

end format

/-! ## The rules of the commands on one and on two sources -/

section shapes
variable {s : State} {rd ra rb : Reg}

theorem unaryCommand_of_empty {f : Buffer → Buffer} (ha : s.getReg ra = []) :
    unaryCommand f rd ra s = raise .invalidOperand s := by
  rw [unaryCommand, sourceOperand_of_empty ha]

theorem binaryCommand_of_empty {f : Buffer → Buffer → Buffer} (h : s.getReg ra = [] ∨ s.getReg rb = []) :
    binaryCommand f rd ra rb s = raise .invalidOperand s := by
  rw [binaryCommand, operandPair_of_empty h]

theorem binaryCommand_of_mismatch {f : Buffer → Buffer → Buffer} (ha : s.getReg ra ≠ []) (hb : s.getReg rb ≠ [])
    (hl : (s.getReg ra).length ≠ (s.getReg rb).length) :
    binaryCommand f rd ra rb s = raise .lengthMismatch s := by
  rw [binaryCommand, operandPair_of_mismatch ha hb hl]

theorem binaryCommand_of_ok {f : Buffer → Buffer → Buffer} {a b : Buffer} (hra : s.getReg ra = a)
    (hrb : s.getReg rb = b) (ha : a ≠ []) (hl : a.length = b.length) :
    binaryCommand f rd ra rb s = succeed (s.setReg rd (f a b)) := by
  subst hra hrb
  rw [binaryCommand, operandPair_of_ok ha hl]

/-- The rule of a command on one source, from its word, its meaning and what its buffer satisfies. -/
theorem unaryRule_of_exec {i : Instr} {w : Word} {f : Buffer → Buffer} {P : Buffer → Buffer → Prop}
    (hw : Spelled i w) (hexec : ∀ s, exec i s = unaryCommand f rd ra s) (hlen : ∀ a, (f a).length = a.length)
    (hP : ∀ a, P a (f a)) : UnaryRule i w rd ra P := fun s =>
  ⟨hw, fun ha => fails_of_raise ((hexec s).trans (unaryCommand_of_empty ha)),
    fun ha => writes_of_succeed ((hexec s).trans (unaryCommand_of_ne ha)) ⟨hlen _, hP _⟩⟩

/-- The rule of a command on two sources, from its word, its meaning and what its buffer satisfies. -/
theorem binaryRule_of_exec {c : Reg → Reg → Reg → Instr} {op : BitVec 8} {f : Buffer → Buffer → Buffer}
    {P : Buffer → Buffer → Buffer → Prop}
    (henc : ∀ rd ra rb, encode (c rd ra rb) = wordR op (fieldOfReg rd) (fieldOfReg ra) (fieldOfReg rb))
    (hexec : ∀ rd ra rb s, exec (c rd ra rb) s = binaryCommand f rd ra rb s)
    (hlen : ∀ a b, a.length = b.length → (f a b).length = a.length)
    (hP : ∀ a b, a.length = b.length → P a b (f a b)) : BinaryRule c op.toNat P := fun s rd ra rb =>
  ⟨spelled_formatR_rd_ra_rb rd ra rb (henc rd ra rb),
    fun he => fails_of_raise ((hexec rd ra rb s).trans (binaryCommand_of_empty he)),
    fun ha hb hl => fails_of_raise ((hexec rd ra rb s).trans (binaryCommand_of_mismatch ha hb hl)),
    fun ha hl => writes_of_succeed ((hexec rd ra rb s).trans (binaryCommand_of_ok rfl rfl ha hl))
      ⟨hlen _ _ hl, hP _ _ hl⟩⟩

end shapes

/-! ## Commands in turn -/

section sequences
variable {i : Instr} {is : List Instr} {s u : State} {r : Reg} {b : Buffer}

theorem yields_singleton (h : exec i s = succeed (s.setReg r b)) : Yields [i] s r b :=
  yields_of_succeed (execAll_cons_of_succeed h)

theorem yields_cons (h : exec i s = succeed u) (hu : Yields is (u.setErr 0#4) r b) : Yields (i :: is) s r b := by
  obtain ⟨t, ht, herr, hr⟩ := hu
  exact ⟨t, (execAll_cons_of_succeed h).trans ht, herr, hr⟩

theorem exists_next_of_yields {v : Nat} (h : Yields is s r b) (hv : val b = v) :
    ∃ t, execAll is s = .next t ∧ val (t.getReg r) = v := by
  obtain ⟨t, ht, -, hr⟩ := h
  exact ⟨t, ht, by rw [hr, hv]⟩

/-- A buffer of register `q`'s length, written anywhere, leaves `q` at its length. -/
theorem length_getReg_setReg {q : Reg} (hb : b.length = (s.getReg q).length) :
    ((s.setReg r b).getReg q).length = (s.getReg q).length := by
  by_cases hq : q = r
  · subst hq
    rw [setReg_getReg_same, hb]
  · rw [setReg_getReg_other s r b hq]

end sequences

/-! ## The bytes and the bits of the bitwise commands -/

theorem bytewise_zipWith (f : Byte → Byte → Byte) (a b : Buffer) (h : a.length = b.length) :
    Bytewise f a b (List.zipWith f a b) := fun i hi => by
  rw [List.getD_eq_getElem _ _ (by rw [length_zipWith f a b h]; exact hi), List.getElem_zipWith,
    List.getD_eq_getElem _ _ hi, List.getD_eq_getElem _ _ (h ▸ hi)]

theorem getD_notBuffer {a : Buffer} {i : Nat} (hi : i < a.length) :
    ((notBuffer a).getD i 0#8).toNat = 255 - (a.getD i 0#8).toNat := by
  have hget : (notBuffer a).getD i 0#8 = 0xFF#8 - a.getD i 0#8 := by
    rw [List.getD_eq_getElem _ _ (by rwa [length_notBuffer]), List.getD_eq_getElem _ _ hi]
    exact List.getElem_map _
  rw [hget, complement_toNat]

theorem testBit_orBuffer {a b : Buffer} (h : a.length = b.length) {j : Nat} (hj : j < 8 * a.length) :
    (val (orBuffer a b)).testBit j = ((val a).testBit j || (val b).testBit j) := by
  rw [testBit_val, testBit_val, testBit_val, ← BitVec.getLsbD_or]
  exact congrArg (·.getLsbD (j % 8)) (bytewise_zipWith _ a b h (j / 8) (by omega))

/-- XOR of a register with itself is the ZERO of its length (R139). -/
theorem xorBuffer_self (a : Buffer) : xorBuffer a a = zeroBuffer a.length := by
  rw [xorBuffer, List.zipWith_self, zeroBuffer]
  simp only [BitVec.xor_self]
  exact List.map_const'

/-! ## A buffer by its length and the bits of its value -/

theorem val_eq_of_testBit {a : Buffer} {v : Nat} (hv : v < 2 ^ (8 * a.length))
    (h : ∀ j, j < 8 * a.length → (val a).testBit j = v.testBit j) : val a = v := by
  refine Nat.eq_of_testBit_eq fun j => ?_
  by_cases hj : j < 8 * a.length
  · exact h j hj
  · rw [testBit_val_ge a j (by omega),
      Nat.testBit_lt_two_pow (hv.trans_le (Nat.pow_le_pow_right (by decide) (by omega)))]

theorem ne_nil_of_length_eq {a b : Buffer} (hl : a.length = b.length) (hb : b ≠ []) : a ≠ [] := by
  rwa [← List.length_pos_iff, hl, List.length_pos_iff]

theorem val_lt_two_pow (a : Buffer) : val a < 2 ^ (8 * a.length) := by
  rw [two_pow_eight_mul]
  exact val_lt a

theorem buffer_eq_of_testBit {a b : Buffer} (hl : a.length = b.length)
    (h : ∀ j, j < 8 * a.length → (val a).testBit j = (val b).testBit j) : a = b :=
  val_injective hl (val_eq_of_testBit (by rw [hl]; exact val_lt_two_pow b) h)

/-! ## Where the bits of a shift come from -/

/-- The source bit of bit `j` of a left shift by `k`; below `k` there is none (R130). -/
def leftSource (_n k j : Nat) : Option Nat := if j < k then none else some (j - k)

/-- The source bit of bit `j` of a right shift by `k` of `n` bytes; in the top `k` bits there is none (R130). -/
def rightSource (n k j : Nat) : Option Nat := if j + k < 8 * n then some (j + k) else none

/-- The commands LSH0 and LSH1, by their fill. -/
def leftCommand : Bool → Reg → Reg → Half → Instr
  | false => .lsh0
  | true => .lsh1

/-- The commands RSH0 and RSH1, by their fill. -/
def rightCommand : Bool → Reg → Reg → Half → Instr
  | false => .rsh0
  | true => .rsh1

/-- The commands `c` shift by `g`: bit `j` of a result of `n` bytes is the source's bit `src n k j`, or the fill where
there is none. -/
structure Shift (c : Bool → Reg → Reg → Half → Instr) (g : Bool → Nat → Buffer → Buffer)
    (src : Nat → Nat → Nat → Option Nat) : Prop where
  exec_eq : ∀ f rd ra k s, exec (c f rd ra k) s = unaryCommand (g f k.toNat) rd ra s
  length_eq : ∀ f k a, (g f k a).length = a.length
  bit_eq : ∀ f k (a : Buffer) j, j < 8 * a.length →
    (val (g f k a)).testBit j = (src a.length k j).elim f (val a).testBit
  src_lt : ∀ {n k j i}, j < 8 * n → src n k j = some i → i < 8 * n
  src_add : ∀ n i k j, (src n k j).bind (src n i) = src n (i + k) j

theorem shift_left : Shift leftCommand leftShift leftSource where
  exec_eq f rd ra k s := by cases f <;> rfl
  length_eq := length_leftShift
  bit_eq f k a j hj := by
    rw [leftShift_bit f k a j hj, leftSource]
    split <;> rfl
  src_lt {n k j i} hj h := by
    unfold leftSource at h
    split at h
    · cases h
    · cases h
      omega
  src_add n i k j := by
    unfold leftSource
    by_cases hk : j < k
    · rw [if_pos hk, if_pos (by omega)]
      rfl
    · rw [if_neg hk, Option.bind_some, Nat.sub_sub, Nat.add_comm k i]
      exact if_congr (by omega) rfl rfl

theorem shift_right : Shift rightCommand rightShift rightSource where
  exec_eq f rd ra k s := by cases f <;> rfl
  length_eq := length_rightShift
  bit_eq f k a j hj := by
    rw [rightShift_bit f k a j hj, rightSource]
    split <;> rfl
  src_lt {n k j i} hj h := by
    unfold rightSource at h
    split at h
    · cases h
      assumption
    · cases h
  src_add n i k j := by
    unfold rightSource
    by_cases hk : j + k < 8 * n
    · rw [if_pos hk, Option.bind_some, Nat.add_assoc, Nat.add_comm k i]
    · rw [if_neg hk, if_neg (by omega)]
      rfl

section shift
variable {c c' : Bool → Reg → Reg → Half → Instr} {g g' : Bool → Nat → Buffer → Buffer}
  {src src' : Nat → Nat → Nat → Option Nat}

/-- Two shifts in one direction with one fill are one by the sum of the counts (R140 (d)). -/
theorem Shift.shift_shift (hg : Shift c g src) (f : Bool) (j k : Nat) (a : Buffer) :
    g f k (g f j a) = g f (j + k) a := by
  have hl := hg.length_eq f j a
  refine buffer_eq_of_testBit (by simp only [hg.length_eq]) fun t ht => ?_
  simp only [hg.length_eq] at ht
  rw [hg.bit_eq f k _ t (by rwa [hl]), hg.bit_eq f (j + k) a t ht, ← hg.src_add, hl]
  cases hs : src a.length k t with
  | none => rfl
  | some i => exact hg.bit_eq f j a i (hg.src_lt ht hs)

/-- Fill 1 is fill 0, or'ed with the shifted ZERO (R140 (c)). -/
theorem Shift.or_shift_zero (hg : Shift c g src) (k : Nat) (a : Buffer) :
    orBuffer (g false k a) (g true k (zeroBuffer a.length)) = g true k a := by
  have hz := length_zeroBuffer a.length
  have hl : (g false k a).length = (g true k (zeroBuffer a.length)).length := by simp only [hg.length_eq, hz]
  refine buffer_eq_of_testBit (by simp only [length_orBuffer _ _ hl, hg.length_eq]) fun t ht => ?_
  simp only [length_orBuffer _ _ hl, hg.length_eq] at ht
  rw [testBit_orBuffer hl (by rwa [hg.length_eq]), hg.bit_eq false k a t ht, hg.bit_eq true k a t ht,
    hg.bit_eq true k _ t (by rwa [hz]), hz, val_zeroBuffer]
  cases src a.length k t with
  | none => rfl
  | some i => simp

variable {s : State} {ra : Reg} {a : Buffer}

theorem Shift.exec_of_ne (hg : Shift c g src) (f : Bool) (rd : Reg) (k : Half) (hra : s.getReg ra = a) (ha : a ≠ []) :
    exec (c f rd ra k) s = succeed (s.setReg rd (g f k.toNat a)) := by
  subst hra
  exact (hg.exec_eq f rd ra k s).trans (unaryCommand_of_ne ha)

theorem Shift.ne_nil (hg : Shift c g src) (f : Bool) (k : Nat) (ha : a ≠ []) : g f k a ≠ [] :=
  ne_nil_of_length_eq (hg.length_eq f k a) ha

/-- Two shifts in turn, of any kinds. -/
theorem Shift.yields_then (hg : Shift c g src) (hg' : Shift c' g' src') (f : Bool) (r q : Reg) (j k : Half)
    (ha : s.getReg ra ≠ []) :
    Yields [c f r ra j, c' f q r k] s q (g' f k.toNat (g f j.toNat (s.getReg ra))) :=
  yields_cons (hg.exec_of_ne f r j rfl ha)
    (yields_singleton (hg'.exec_of_ne f q k (setReg_getReg_same s r _) (hg.ne_nil f _ ha)))

/-- R140 (d), in commands; the second shift may run in place. -/
theorem Shift.twice (hg : Shift c g src) (f : Bool) (r : Reg) {j k : Half} (ha : s.getReg ra ≠ [])
    (hjk : j.toNat + k.toNat ≤ 65535) : SameResult [c f r ra j, c f r r k] r [c f r ra (j + k)] r s := by
  have hsum : (j + k).toNat = j.toNat + k.toNat := BitVec.toNat_add_of_lt (by omega)
  refine ⟨_, hg.yields_then hg f r r j k ha, ?_⟩
  rw [hg.shift_shift, ← hsum]
  exact yields_singleton (hg.exec_of_ne f r (j + k) rfl ha)

/-- The right-hand side of R140 (c) after its first command: XOR makes a ZERO of whatever register `x` is as long
as `b`. -/
theorem Shift.yields_or_shifted_zero (hg : Shift c g src) {r q x : Reg} (hqr : q ≠ r) (k : Half) {b : Buffer}
    (hr : s.getReg r = b) (hx : (s.getReg x).length = b.length) (hb : b ≠ []) :
    Yields [.xor q x x, c true q q k, .or r r q] s r (orBuffer b (g true k.toNat (zeroBuffer b.length))) := by
  have hzero : exec (.xor q x x) s = succeed (s.setReg q (zeroBuffer b.length)) := by
    rw [← hx, ← xorBuffer_self]
    exact binaryCommand_of_ok rfl rfl (ne_nil_of_length_eq hx hb) rfl
  have hzne := ne_nil_of_length_eq (length_zeroBuffer b.length) hb
  refine yields_cons hzero (yields_cons (hg.exec_of_ne true q k (setReg_getReg_same s q _) hzne)
    (yields_singleton (binaryCommand_of_ok ?_ (setReg_getReg_same _ q _) hb ?_)))
  · simp only [setErr_getReg, setReg_getReg_other _ _ _ hqr.symm, hr]
  · rw [hg.length_eq, length_zeroBuffer]

/-- R140 (c), in commands; `r` or `q` may be the source's own register. -/
theorem Shift.fill (hg : Shift c g src) {r q : Reg} (hqr : q ≠ r) (k : Half) (ha : s.getReg ra ≠ []) :
    SameResult [c true r ra k] r [c false r ra k, .xor q ra ra, c true q q k, .or r r q] r s := by
  refine ⟨_, yields_singleton (hg.exec_of_ne true r k rfl ha), yields_cons (hg.exec_of_ne false r k rfl ha) ?_⟩
  have hl := hg.length_eq false k.toNat (s.getReg ra)
  rw [← hg.or_shift_zero, ← hl]
  exact hg.yields_or_shifted_zero hqr k (setReg_getReg_same s r _) ((length_getReg_setReg hl).trans hl.symm)
    (hg.ne_nil false _ ha)

end shift

/-! ## A shift and the shift back -/

/-- R140 (a): the top bits are cleared. -/
theorem val_rightShift_leftShift (k : Nat) (a : Buffer) :
    val (rightShift false k (leftShift false k a)) = val a % 2 ^ (8 * a.length - min k (8 * a.length)) := by
  have hlt : val a % 2 ^ (8 * a.length - min k (8 * a.length)) < 2 ^ (8 * a.length) :=
    (Nat.mod_le _ _).trans_lt (val_lt_two_pow a)
  refine val_eq_of_testBit (by simpa only [length_rightShift, length_leftShift] using hlt) fun j hj => ?_
  simp only [length_rightShift, length_leftShift] at hj
  rw [rightShift_bit _ _ _ _ (by rwa [length_leftShift]), length_leftShift, Nat.testBit_mod_two_pow]
  by_cases hk : j + k < 8 * a.length
  · rw [if_pos hk, leftShift_bit _ _ _ _ hk, if_neg (by omega), Nat.add_sub_cancel,
      decide_eq_true (by omega : j < 8 * a.length - min k (8 * a.length)), Bool.true_and]
  · rw [if_neg hk, decide_eq_false (by omega : ¬ j < 8 * a.length - min k (8 * a.length)), Bool.false_and]

/-- R140 (b): the low bits are cleared. -/
theorem val_leftShift_rightShift (k : Nat) (a : Buffer) :
    val (leftShift false k (rightShift false k a)) = val a - val a % 2 ^ min k (8 * a.length) := by
  have hlt : val a - val a % 2 ^ min k (8 * a.length) < 2 ^ (8 * a.length) :=
    (Nat.sub_le _ _).trans_lt (val_lt_two_pow a)
  refine val_eq_of_testBit (by simpa only [length_rightShift, length_leftShift] using hlt) fun j hj => ?_
  simp only [length_rightShift, length_leftShift] at hj
  rw [leftShift_bit _ _ _ _ (by rwa [length_rightShift]), ← Nat.mul_div_self_eq_mod_sub_self, Nat.testBit_two_pow_mul,
    Nat.testBit_div_two_pow]
  by_cases hk : j < k
  · rw [if_pos hk, decide_eq_false (by omega), Bool.false_and]
  · have hmin : min k (8 * a.length) = k := by omega
    rw [if_neg hk, rightShift_bit _ _ _ _ (by omega), if_pos (by omega), hmin, decide_eq_true (by omega), Bool.true_and]

/-- R140 (e), in buffers. -/
theorem leftShift_one (a : Buffer) : leftShift false 1 a = addBuffer a a := by
  refine val_injective (by rw [length_leftShift, length_addBuffer a a rfl]) ?_
  rw [val_leftShift, val_addBuffer a a rfl, two_pow_eight_mul, Bool.toNat_false, Nat.zero_mul, Nat.add_zero, pow_one,
    Nat.mul_two]

/-! ## The rules -/

/-- Settles O19, from the bytes and the value of a complement. -/
theorem notFollowsItsRule : Obligations.NotFollowsItsRule := fun rd ra =>
  unaryRule_of_exec (spelled_formatR_rd_ra (op := 0x08#8) rd ra rfl) (fun _ => rfl) length_notBuffer fun a =>
    ⟨fun _ => getD_notBuffer, by rw [val_notBuffer, two_pow_eight_mul]⟩

/-- Settles O20: AND is byte-wise, as a zip of its sources. -/
theorem andFollowsItsRule : Obligations.AndFollowsItsRule :=
  binaryRule_of_exec (op := 0x09#8) (fun _ _ _ => rfl) (fun _ _ _ _ => rfl) length_andBuffer (bytewise_zipWith _)

/-- Settles O21: OR is byte-wise, as a zip of its sources. -/
theorem orFollowsItsRule : Obligations.OrFollowsItsRule :=
  binaryRule_of_exec (op := 0x0A#8) (fun _ _ _ => rfl) (fun _ _ _ _ => rfl) length_orBuffer (bytewise_zipWith _)

/-- Settles O22: XOR is byte-wise, as a zip of its sources. -/
theorem xorFollowsItsRule : Obligations.XorFollowsItsRule :=
  binaryRule_of_exec (op := 0x0B#8) (fun _ _ _ => rfl) (fun _ _ _ _ => rfl) length_xorBuffer (bytewise_zipWith _)

/-- Settles O23: the left shift with fill 0. -/
theorem lsh0FollowsItsRule : Obligations.Lsh0FollowsItsRule := fun rd ra k =>
  unaryRule_of_exec (spelled_formatI_rd_ra (op := 0x10#8) rd ra rfl) (fun _ => rfl) (length_leftShift false _) fun a =>
    ⟨by rw [val_leftShift, Bool.toNat_false, Nat.zero_mul, Nat.add_zero], leftShift_bit false _ a⟩

/-- Settles O24: the left shift with fill 1. -/
theorem lsh1FollowsItsRule : Obligations.Lsh1FollowsItsRule := fun rd ra k =>
  unaryRule_of_exec (spelled_formatI_rd_ra (op := 0x11#8) rd ra rfl) (fun _ => rfl) (length_leftShift true _) fun a =>
    ⟨by rw [val_leftShift, Bool.toNat_true, Nat.one_mul, Nat.add_sub_assoc Nat.one_le_two_pow],
      leftShift_bit true _ a⟩

/-- Settles O25: the right shift with fill 0. -/
theorem rsh0FollowsItsRule : Obligations.Rsh0FollowsItsRule := fun rd ra k =>
  unaryRule_of_exec (spelled_formatI_rd_ra (op := 0x12#8) rd ra rfl) (fun _ => rfl) (length_rightShift false _) fun a =>
    ⟨by rw [val_rightShift, Bool.toNat_false, Nat.zero_mul, Nat.add_zero], rightShift_bit false _ a⟩

/-- Settles O26: the right shift with fill 1. -/
theorem rsh1FollowsItsRule : Obligations.Rsh1FollowsItsRule := fun rd ra k =>
  unaryRule_of_exec (spelled_formatI_rd_ra (op := 0x13#8) rd ra rfl) (fun _ => rfl) (length_rightShift true _) fun a =>
    ⟨by rw [val_rightShift, Bool.toNat_true, Nat.one_mul,
        Nat.add_sub_assoc (Nat.pow_le_pow_right (by decide) (Nat.sub_le _ _))],
      rightShift_bit true _ a⟩

/-! ## The laws -/

/-- Settles O45: (a) and (b) by the bits of the two shifts in turn, (c) and (d) by where a shift's bits come from, (e)
by the values. -/
theorem shiftsObeyTheirLaws : Obligations.ShiftsObeyTheirLaws := fun s a r q j k ha =>
  ⟨exists_next_of_yields (shift_left.yields_then shift_right false r q k k ha) (val_rightShift_leftShift _ _),
    exists_next_of_yields (shift_right.yields_then shift_left false r q k k ha) (val_leftShift_rightShift _ _),
    fun hqr => shift_left.fill hqr k ha,
    fun hqr => shift_right.fill hqr k ha,
    fun hjk => ⟨shift_left.twice false r ha hjk, shift_left.twice true r ha hjk, shift_right.twice false r ha hjk,
      shift_right.twice true r ha hjk⟩,
    ⟨_, yields_singleton (shift_left.exec_of_ne false r 1#16 rfl ha), by
      rw [show (1#16).toNat = 1 from rfl, leftShift_one]
      exact yields_singleton (binaryCommand_of_ok rfl rfl ha rfl)⟩⟩

end Sys2Proof.Proofs
end

section
/-!
PROOFS. The rules and the laws of ADD and SUB (spec/42_add_sub.md R160 to R163). On buffers of N bytes the commands
calculate modulo 2^(8N): each law is an identity of that ring, carried back to buffers by `residue_injective`.
-/

namespace Sys2Proof.Proofs
open Sys2Proof.Machine Sys2Proof.Laws

/-! ## The difference in values -/

/-- R162: SUB wraps exactly where it borrows. -/
theorem val_subBuffer_eq_ite {a b : Buffer} (h : a.length = b.length) :
    val (subBuffer a b) = if val b ≤ val a then val a - val b else 2 ^ (8 * a.length) + val a - val b := by
  have ha := val_lt a
  have hb := val_lt b
  rw [← h] at hb
  rw [val_subBuffer a b h, two_pow_eight_mul]
  split
  case isTrue hle => rw [Nat.add_sub_assoc hle, Nat.add_mod_left, Nat.mod_eq_of_lt (by omega)]
  case isFalse hlt => exact Nat.mod_eq_of_lt (by omega)

/-! ## Buffers of one length as a ring -/

/-- The value of a buffer of `n` bytes, in the ring in which the commands calculate. -/
def residue (n : Nat) (a : Buffer) : ZMod (256 ^ n) := (val a : ZMod (256 ^ n))

section residues
variable {n : Nat} {a b c : Buffer}

/-- A buffer is its length and its residue. -/
theorem residue_injective (ha : a.length = n) (hb : b.length = n) (h : residue n a = residue n b) : a = b := by
  have hmod : val a ≡ val b [MOD 256 ^ n] := (ZMod.natCast_eq_natCast_iff _ _ _).mp h
  exact val_injective (ha.trans hb.symm) (hmod.eq_of_lt_of_lt (ha ▸ val_lt a) (hb ▸ val_lt b))

theorem residue_of_val {v : Nat} (h : val a = v) : residue n a = v := by rw [residue, h]

theorem residue_addBuffer (ha : a.length = n) (hb : b.length = n) :
    residue n (addBuffer a b) = residue n a + residue n b := by
  simp only [residue]
  rw [val_addBuffer a b (ha.trans hb.symm), ha, ZMod.natCast_mod, Nat.cast_add]

theorem residue_subBuffer (ha : a.length = n) (hb : b.length = n) :
    residue n (subBuffer a b) = residue n a - residue n b := by
  have hle : val b ≤ 256 ^ n + val a := (hb ▸ val_lt b).le.trans (Nat.le_add_right _ _)
  simp only [residue]
  rw [val_subBuffer a b (ha.trans hb.symm), ha, ZMod.natCast_mod, Nat.cast_sub hle, Nat.cast_add,
    ZMod.natCast_self, zero_add]

theorem residue_notBuffer (ha : a.length = n) : residue n (notBuffer a) = -1 - residue n a := by
  have hlt : val a < 256 ^ n := ha ▸ val_lt a
  simp only [residue]
  rw [val_notBuffer, ha, Nat.cast_sub (by omega), Nat.cast_sub (by omega), ZMod.natCast_self, zero_sub, Nat.cast_one]

/-- R163 (a), in buffers. -/
theorem addBuffer_subBuffer_cancel (h : a.length = b.length) : addBuffer (subBuffer a b) b = a := by
  have hs := length_subBuffer a b h
  refine residue_injective ((length_addBuffer _ _ (hs.trans h)).trans hs) rfl ?_
  rw [residue_addBuffer hs h.symm, residue_subBuffer rfl h.symm, sub_add_cancel]

/-- R163 (b), in buffers. -/
theorem subBuffer_addBuffer_cancel (h : a.length = b.length) : subBuffer (addBuffer a b) b = a := by
  have hs := length_addBuffer a b h
  refine residue_injective ((length_subBuffer _ _ (hs.trans h)).trans hs) rfl ?_
  rw [residue_subBuffer hs h.symm, residue_addBuffer rfl h.symm, add_sub_cancel_right]

/-- R163 (c), commutativity, in buffers. -/
theorem addBuffer_comm (h : a.length = b.length) : addBuffer a b = addBuffer b a := by
  refine residue_injective (length_addBuffer a b h) ((length_addBuffer b a h.symm).trans h.symm) ?_
  rw [residue_addBuffer rfl h.symm, residue_addBuffer h.symm rfl, add_comm]

/-- R163 (c), associativity, in buffers. -/
theorem addBuffer_assoc (hb : a.length = b.length) (hc : a.length = c.length) :
    addBuffer (addBuffer a b) c = addBuffer a (addBuffer b c) := by
  have hab := length_addBuffer a b hb
  have hbc := (length_addBuffer b c (hb.symm.trans hc)).trans hb.symm
  refine residue_injective ((length_addBuffer _ _ (hab.trans hc)).trans hab) (length_addBuffer _ _ hbc.symm) ?_
  rw [residue_addBuffer hab hc.symm, residue_addBuffer rfl hb.symm, residue_addBuffer rfl hbc,
    residue_addBuffer hb.symm hc.symm, add_assoc]

/-- R163 (d), in buffers: the two's complement. -/
theorem subBuffer_eq_add_complement {one : Buffer} (hb : a.length = b.length) (hone : a.length = one.length)
    (hv : val one = 1) : subBuffer a b = addBuffer a (addBuffer (notBuffer b) one) := by
  have hnot := (length_notBuffer b).trans hb.symm
  have hneg := (length_addBuffer _ _ (hnot.trans hone)).trans hnot
  refine residue_injective (length_subBuffer a b hb) (length_addBuffer _ _ hneg.symm) ?_
  rw [residue_subBuffer rfl hb.symm, residue_addBuffer rfl hneg, residue_addBuffer hnot hone.symm,
    residue_notBuffer hb.symm, residue_of_val hv, Nat.cast_one]
  ring

/-- R163 (e), in buffers. -/
theorem addBuffer_zero {zero : Buffer} (h : a.length = zero.length) (hv : val zero = 0) : addBuffer a zero = a := by
  refine residue_injective (length_addBuffer a zero h) rfl ?_
  rw [residue_addBuffer rfl h.symm, residue_of_val hv, Nat.cast_zero, add_zero]

end residues

/-! ## Commands on two sources, in turn -/

/-- The command `c` puts `f` of its two sources, of their common length, in its destination. -/
structure BinaryOp (c : Reg → Reg → Reg → Instr) (f : Buffer → Buffer → Buffer) : Prop where
  exec_eq : ∀ rd ra rb s, exec (c rd ra rb) s = binaryCommand f rd ra rb s
  length_eq : ∀ a b : Buffer, a.length = b.length → (f a b).length = a.length

theorem binaryOp_add : BinaryOp .add addBuffer := ⟨fun _ _ _ _ => rfl, length_addBuffer⟩

theorem binaryOp_sub : BinaryOp .sub subBuffer := ⟨fun _ _ _ _ => rfl, length_subBuffer⟩

section binary
variable {c c' : Reg → Reg → Reg → Instr} {f f' : Buffer → Buffer → Buffer} {s : State} {r ra rb rx : Reg}
  {a b x : Buffer}

theorem BinaryOp.exec_of_ok (hc : BinaryOp c f) (rd : Reg) (hra : s.getReg ra = a) (hrb : s.getReg rb = b)
    (ha : a ≠ []) (hl : a.length = b.length) : exec (c rd ra rb) s = succeed (s.setReg rd (f a b)) :=
  (hc.exec_eq rd ra rb s).trans (binaryCommand_of_ok hra hrb ha hl)

theorem BinaryOp.yields (hc : BinaryOp c f) (rd : Reg) (hra : s.getReg ra = a) (hrb : s.getReg rb = b)
    (ha : a ≠ []) (hl : a.length = b.length) : Yields [c rd ra rb] s rd (f a b) :=
  yields_singleton (hc.exec_of_ok rd hra hrb ha hl)

/-- Two commands in turn, the first one's result being the first source of the second. -/
theorem BinaryOp.yields_left (hc : BinaryOp c f) (hc' : BinaryOp c' f') (q : Reg) (hr : r ≠ rx)
    (hra : s.getReg ra = a) (hrb : s.getReg rb = b) (hrx : s.getReg rx = x) (ha : a ≠ [])
    (hl : a.length = b.length) (hx : a.length = x.length) : Yields [c r ra rb, c' q r rx] s q (f' (f a b) x) := by
  have hf := hc.length_eq a b hl
  have hx' : (s.setReg r (f a b)).getReg rx = x := by rw [setReg_getReg_other s r _ hr.symm, hrx]
  exact yields_cons (hc.exec_of_ok r hra hrb ha hl)
    (hc'.yields q (setReg_getReg_same s r _) hx' (ne_nil_of_length_eq hf ha) (hf.trans hx))

/-- Two commands in turn, the first one's result being the second source of the second. -/
theorem BinaryOp.yields_right (hc : BinaryOp c f) (hc' : BinaryOp c' f') (q : Reg) (hr : r ≠ rx)
    (hra : s.getReg ra = a) (hrb : s.getReg rb = b) (hrx : s.getReg rx = x) (ha : a ≠ [])
    (hl : a.length = b.length) (hx : a.length = x.length) : Yields [c r ra rb, c' q rx r] s q (f' x (f a b)) := by
  have hf := hc.length_eq a b hl
  have hx' : (s.setReg r (f a b)).getReg rx = x := by rw [setReg_getReg_other s r _ hr.symm, hrx]
  exact yields_cons (hc.exec_of_ok r hra hrb ha hl)
    (hc'.yields q hx' (setReg_getReg_same s r _) (ne_nil_of_length_eq hx.symm ha) (hx.symm.trans hf.symm))

/-- The right-hand side of R163 (d); `r` may be the register of `b`. -/
theorem yields_add_complement {one : Reg} (q : Reg) (hra : r ≠ ra) (hrone : r ≠ one) (ha : s.getReg ra ≠ [])
    (hb : (s.getReg ra).length = (s.getReg rb).length) (hone : (s.getReg ra).length = (s.getReg one).length) :
    Yields [.not r rb, .add r r one, .add q ra r] s q
      (addBuffer (s.getReg ra) (addBuffer (notBuffer (s.getReg rb)) (s.getReg one))) := by
  have hbne := ne_nil_of_length_eq hb.symm ha
  have hnot := length_notBuffer (s.getReg rb)
  exact yields_cons (execNot_of_ne hbne)
    (binaryOp_add.yields_right binaryOp_add q hra (setReg_getReg_same s r _) (setReg_getReg_other s r _ hrone.symm)
      (setReg_getReg_other s r _ hra.symm) (ne_nil_of_length_eq hnot hbne) (hnot.trans (hb.symm.trans hone))
      (hnot.trans hb.symm))

end binary

/-! ## The rules -/

/-- Settles O27, from the value of a sum. -/
theorem addFollowsItsRule : Obligations.AddFollowsItsRule :=
  binaryRule_of_exec (op := 0x20#8) (fun _ _ _ => rfl) binaryOp_add.exec_eq binaryOp_add.length_eq
    fun a b h => by rw [val_addBuffer a b h, two_pow_eight_mul]

/-- Settles O28, from the value of a difference with and without a borrow. -/
theorem subFollowsItsRule : Obligations.SubFollowsItsRule :=
  binaryRule_of_exec (op := 0x21#8) (fun _ _ _ => rfl) binaryOp_sub.exec_eq binaryOp_sub.length_eq
    fun _ _ => val_subBuffer_eq_ite

/-! ## The laws -/

/-- Settles O46: each sequence of commands yields the buffer of its law, by the identities of the ring. -/
theorem addAndSubObeyTheirLaws : Obligations.AddAndSubObeyTheirLaws := by
  intro s a b r q ha hb
  refine ⟨fun hrb => ?_, fun hrb => ?_, ⟨_, binaryOp_add.yields r rfl rfl ha hb, ?_⟩, fun c hc hra hrc => ?_,
    fun one hone hv hra hrone => ?_, fun zero hzero hv => ?_⟩
  · have h := binaryOp_sub.yields_left binaryOp_add r hrb rfl rfl rfl ha hb hb
    rwa [addBuffer_subBuffer_cancel hb] at h
  · have h := binaryOp_add.yields_left binaryOp_sub r hrb rfl rfl rfl ha hb hb
    rwa [subBuffer_addBuffer_cancel hb] at h
  · rw [addBuffer_comm hb]
    exact binaryOp_add.yields r rfl rfl (ne_nil_of_length_eq hb.symm ha) hb.symm
  · refine ⟨_, binaryOp_add.yields_left binaryOp_add r hrc rfl rfl rfl ha hb hc, ?_⟩
    rw [addBuffer_assoc hb hc]
    exact binaryOp_add.yields_right binaryOp_add r hra rfl rfl rfl (ne_nil_of_length_eq hb.symm ha)
      (hb.symm.trans hc) hb.symm
  · refine ⟨_, binaryOp_sub.yields q rfl rfl ha hb, ?_⟩
    rw [subBuffer_eq_add_complement hb hone hv]
    exact yields_add_complement q hra hrone ha hb hone
  · have h := binaryOp_add.yields r rfl rfl ha hzero
    rwa [addBuffer_zero hzero hv] at h

end Sys2Proof.Proofs
end

section
/-!
PROOFS. The rule and the laws of MUL (spec/43_multiply.md R170 to R172). On buffers of N bytes MUL is the product of the
ring of `residue`, so R172 (a), (b) and (d) are identities of that ring; (c) is the value of a left shift, and (e) holds
because a quotient times its divisor never exceeds the dividend.
-/

namespace Sys2Proof.Proofs
open Sys2Proof.Machine Sys2Proof.Laws

theorem binaryOp_mul : BinaryOp .mul mulBuffer := ⟨fun _ _ _ _ => rfl, length_mulBuffer⟩

/-! ## The product in the ring of the buffers -/

section residues
variable {n : Nat} {a b c : Buffer}

theorem residue_mulBuffer (ha : a.length = n) (hb : b.length = n) :
    residue n (mulBuffer a b) = residue n a * residue n b := by
  simp only [residue]
  rw [val_mulBuffer a b (ha.trans hb.symm), ha, ZMod.natCast_mod, Nat.cast_mul]

/-- R172 (a), commutativity, in buffers. -/
theorem mulBuffer_comm (h : a.length = b.length) : mulBuffer a b = mulBuffer b a := by
  refine residue_injective (length_mulBuffer a b h) ((length_mulBuffer b a h.symm).trans h.symm) ?_
  rw [residue_mulBuffer rfl h.symm, residue_mulBuffer h.symm rfl, mul_comm]

/-- R172 (a), associativity, in buffers. -/
theorem mulBuffer_assoc (hb : a.length = b.length) (hc : a.length = c.length) :
    mulBuffer (mulBuffer a b) c = mulBuffer a (mulBuffer b c) := by
  have hab := length_mulBuffer a b hb
  have hbc := (length_mulBuffer b c (hb.symm.trans hc)).trans hb.symm
  refine residue_injective ((length_mulBuffer _ _ (hab.trans hc)).trans hab) (length_mulBuffer _ _ hbc.symm) ?_
  rw [residue_mulBuffer hab hc.symm, residue_mulBuffer rfl hb.symm, residue_mulBuffer rfl hbc,
    residue_mulBuffer hb.symm hc.symm, mul_assoc]

/-- MUL distributes over a command that is, in the ring, an operation the ring's product distributes over. -/
theorem BinaryOp.mulBuffer_distributes {o : Reg → Reg → Reg → Instr} {f : Buffer → Buffer → Buffer}
    (ho : BinaryOp o f) {φ : ZMod (256 ^ a.length) → ZMod (256 ^ a.length) → ZMod (256 ^ a.length)}
    (hφ : ∀ x y z, x * φ y z = φ (x * y) (x * z))
    (hf : ∀ {x y : Buffer}, x.length = a.length → y.length = a.length →
      residue a.length (f x y) = φ (residue a.length x) (residue a.length y))
    (hb : a.length = b.length) (hc : a.length = c.length) :
    mulBuffer a (f b c) = f (mulBuffer a b) (mulBuffer a c) := by
  have hbc := (ho.length_eq b c (hb.symm.trans hc)).trans hb.symm
  have hab := length_mulBuffer a b hb
  have hac := length_mulBuffer a c hc
  refine residue_injective (length_mulBuffer _ _ hbc.symm) ((ho.length_eq _ _ (hab.trans hac.symm)).trans hab) ?_
  rw [residue_mulBuffer rfl hbc, hf hb.symm hc.symm, hf hab hac, residue_mulBuffer rfl hb.symm,
    residue_mulBuffer rfl hc.symm, hφ]

/-- R172 (b), over ADD, in buffers. -/
theorem mulBuffer_addBuffer (hb : a.length = b.length) (hc : a.length = c.length) :
    mulBuffer a (addBuffer b c) = addBuffer (mulBuffer a b) (mulBuffer a c) :=
  binaryOp_add.mulBuffer_distributes mul_add residue_addBuffer hb hc

/-- R172 (b), over SUB, in buffers. -/
theorem mulBuffer_subBuffer (hb : a.length = b.length) (hc : a.length = c.length) :
    mulBuffer a (subBuffer b c) = subBuffer (mulBuffer a b) (mulBuffer a c) :=
  binaryOp_sub.mulBuffer_distributes mul_sub residue_subBuffer hb hc

/-- R172 (c), in buffers. -/
theorem mulBuffer_two_pow {k : Nat} (h : a.length = b.length) (hv : val b = 2 ^ k) :
    mulBuffer a b = leftShift false k a := by
  refine val_injective (by rw [length_mulBuffer a b h, length_leftShift]) ?_
  rw [val_mulBuffer a b h, hv, val_leftShift, two_pow_eight_mul, Bool.toNat_false, Nat.zero_mul, Nat.add_zero]

/-- R172 (d), in buffers. -/
theorem mulBuffer_zero {zero : Buffer} (h : a.length = zero.length) (hv : val zero = 0) : mulBuffer a zero = zero := by
  refine val_injective ((length_mulBuffer a zero h).trans h) ?_
  rw [val_mulBuffer a zero h, hv, Nat.mul_zero, Nat.zero_mod]

/-- R172 (e), in buffers: the product of a quotient and its divisor is exact. -/
theorem val_mulBuffer_quotient (h : a.length = b.length) (hb : val b ≠ 0) :
    val (mulBuffer (divide a b).2 b) = val (divide a b).2 * val b := by
  obtain ⟨-, hlen, hval⟩ := divide_spec a b hb
  have hlt : val a / val b * val b < 256 ^ a.length := (Nat.div_mul_le_self _ _).trans_lt (val_lt a)
  rw [val_mulBuffer _ _ (hlen.trans h), hlen, hval, Nat.mod_eq_of_lt hlt]

end residues

/-! ## Sequences with MUL and DIV -/

section sequences
variable {s : State} {ra rb : Reg}

/-- The buffer a division writes: the remainder for `w`, the quotient otherwise (R183, R184). -/
theorem divideCommand_of_ok (w : Bool) (rd : Reg) (ha : s.getReg ra ≠ [])
    (hl : (s.getReg ra).length = (s.getReg rb).length) (hb : val (s.getReg rb) ≠ 0) :
    divideCommand w rd ra rb s = succeed (s.setReg rd
      (if w then bufOf (s.getReg ra).length (divide (s.getReg ra) (s.getReg rb)).1
        else (divide (s.getReg ra) (s.getReg rb)).2)) := by
  have hz : ¬ allZero (s.getReg rb) = true := (allZero_iff _).not.mpr hb
  rw [divideCommand, operandPair_of_ok ha hl]
  exact if_neg hz

theorem execDiv_of_ok (rd : Reg) (ha : s.getReg ra ≠ []) (hl : (s.getReg ra).length = (s.getReg rb).length)
    (hb : val (s.getReg rb) ≠ 0) :
    exec (.div rd ra rb) s = succeed (s.setReg rd (divide (s.getReg ra) (s.getReg rb)).2) :=
  divideCommand_of_ok false rd ha hl hb

/-- R172 (b), in commands, for any command whose buffers MUL distributes over; `r` may be the register of `b` or `c`. -/
theorem BinaryOp.mul_distributes {o : Reg → Reg → Reg → Instr} {f : Buffer → Buffer → Buffer}
    (ho : BinaryOp o f)
    {rc r q : Reg} (hra : r ≠ ra) (hqa : q ≠ ra) (hqc : q ≠ rc) (hqr : q ≠ r) (ha : s.getReg ra ≠ [])
    (hlb : (s.getReg ra).length = (s.getReg rb).length) (hlc : (s.getReg ra).length = (s.getReg rc).length)
    (hf : mulBuffer (s.getReg ra) (f (s.getReg rb) (s.getReg rc)) =
      f (mulBuffer (s.getReg ra) (s.getReg rb)) (mulBuffer (s.getReg ra) (s.getReg rc))) :
    SameResult [o r rb rc, .mul r ra r] r [.mul q ra rb, .mul r ra rc, o r q r] r s := by
  refine ⟨_, ho.yields_right binaryOp_mul r hra rfl rfl rfl (ne_nil_of_length_eq hlb.symm ha) (hlb.symm.trans hlc)
    hlb.symm, ?_⟩
  rw [hf]
  exact yields_cons (binaryOp_mul.exec_of_ok q rfl rfl ha hlb)
    (binaryOp_mul.yields_right ho r hqr.symm (setReg_getReg_other s q _ hqa.symm) (setReg_getReg_other s q _ hqc.symm)
      (setReg_getReg_same s q _) ha hlc (length_mulBuffer _ _ hlb).symm)

/-- R172 (e), in commands; the product may go to any register. -/
theorem quotient_times_divisor {q : Reg} (r : Reg) (hqb : q ≠ rb) (ha : s.getReg ra ≠ [])
    (hl : (s.getReg ra).length = (s.getReg rb).length) (hb : val (s.getReg rb) ≠ 0) :
    ∃ t u, exec (.div q ra rb) s = .next t ∧ exec (.mul r q rb) t = .next u ∧ u.status.err = 0#4 ∧
      val (u.getReg r) = val (t.getReg q) * val (s.getReg rb) := by
  obtain ⟨-, hlen, -⟩ := divide_spec (s.getReg ra) (s.getReg rb) hb
  refine ⟨_, _, execDiv_of_ok q ha hl hb,
    binaryOp_mul.exec_of_ok r (setReg_getReg_same s q _) (setReg_getReg_other s q _ hqb.symm)
      (ne_nil_of_length_eq hlen ha) (hlen.trans hl), rfl, ?_⟩
  simp only [setErr_getReg, setReg_getReg_same]
  exact val_mulBuffer_quotient hl hb

end sequences

/-! ## The rule -/

/-- Settles O29, from the value of a product. -/
theorem mulFollowsItsRule : Obligations.MulFollowsItsRule :=
  binaryRule_of_exec (op := 0x22#8) (fun _ _ _ => rfl) binaryOp_mul.exec_eq binaryOp_mul.length_eq
    fun a b h => by rw [val_mulBuffer a b h, two_pow_eight_mul]

/-! ## The laws -/

/-- Settles O47: each sequence of commands yields the buffer of its law. -/
theorem mulObeysItsLaws : Obligations.MulObeysItsLaws := by
  intro s a b r q ha hb
  refine ⟨⟨_, binaryOp_mul.yields r rfl rfl ha hb, ?_⟩, fun c hc hra hrc => ?_, fun c hc hra hqa hqc hqr => ?_,
    fun power k hp hv => ⟨_, binaryOp_mul.yields r rfl rfl ha hp, ?_⟩, fun zero hzero hv => ?_,
    fun hv hqb => quotient_times_divisor r hqb ha hb hv⟩
  · rw [mulBuffer_comm hb]
    exact binaryOp_mul.yields r rfl rfl (ne_nil_of_length_eq hb.symm ha) hb.symm
  · refine ⟨_, binaryOp_mul.yields_left binaryOp_mul r hrc rfl rfl rfl ha hb hc, ?_⟩
    rw [mulBuffer_assoc hb hc]
    exact binaryOp_mul.yields_right binaryOp_mul r hra rfl rfl rfl (ne_nil_of_length_eq hb.symm ha)
      (hb.symm.trans hc) hb.symm
  · exact ⟨binaryOp_add.mul_distributes hra hqa hqc hqr ha hb hc (mulBuffer_addBuffer hb hc),
      binaryOp_sub.mul_distributes hra hqa hqc hqr ha hb hc (mulBuffer_subBuffer hb hc)⟩
  · rw [mulBuffer_two_pow hp hv]
    exact yields_singleton (shift_left.exec_of_ne false r k rfl ha)
  · have h := binaryOp_mul.yields r rfl rfl ha hzero
    rwa [mulBuffer_zero hzero hv] at h

end Sys2Proof.Proofs
end

section
/-!
PROOFS. The rules of DIV and MOD and the division identity (spec/44_divide.md R180 to R185). The two commands are one
machine that keeps either half of a division (`divisionResult`), so their rule is proved once for both; the identity
runs the five commands one by one on what the registers hold.
-/

namespace Sys2Proof.Proofs
open Sys2Proof.Machine Sys2Proof.Laws

/-! ## The two halves of a division -/

/-- The buffer the divider writes: the remainder if it is wanted, the quotient otherwise (R180). -/
def divisionResult (wantRemainder : Bool) (a b : Buffer) : Buffer :=
  if wantRemainder then bufOf a.length (divide a b).1 else (divide a b).2

section buffers
variable {a b : Buffer}

theorem length_divisionResult (w : Bool) (hb : val b ≠ 0) : (divisionResult w a b).length = a.length := by
  cases w with
  | false =>
    obtain ⟨-, hlen, -⟩ := divide_spec a b hb
    exact hlen
  | true => exact length_bufOf _ _

theorem val_quotient (h : a.length = b.length) (hb : val b ≠ 0) :
    val (divisionResult false a b) = val a / val b := (divide_values a b hb h).1

theorem val_remainder (h : a.length = b.length) (hb : val b ≠ 0) :
    val (divisionResult true a b) = val a % val b := (divide_values a b hb h).2

theorem val_remainder_lt (h : a.length = b.length) (hb : val b ≠ 0) : val (divisionResult true a b) < val b := by
  rw [val_remainder h hb]
  exact Nat.mod_lt _ (Nat.pos_of_ne_zero hb)

/-- R185 in buffers: neither the product nor the sum wraps, because the dividend is what they add up to. -/
theorem addBuffer_mulBuffer_quotient_remainder (h : a.length = b.length) (hb : val b ≠ 0) :
    addBuffer (mulBuffer (divisionResult false a b) b) (divisionResult true a b) = a := by
  have hquot : (divisionResult false a b).length = a.length := length_divisionResult false hb
  have hprod : (mulBuffer (divisionResult false a b) b).length = a.length :=
    (length_mulBuffer _ _ (hquot.trans h)).trans hquot
  have hsum := hprod.trans (length_divisionResult true hb).symm
  have hexact : val (mulBuffer (divisionResult false a b) b) = val a / val b * val b :=
    (val_mulBuffer_quotient h hb).trans (congrArg (· * val b) (val_quotient h hb))
  refine val_injective ((length_addBuffer _ _ hsum).trans hprod) ?_
  rw [val_addBuffer _ _ hsum, hprod, hexact, val_remainder h hb, Nat.div_add_mod', Nat.mod_eq_of_lt (val_lt a)]

/-- The divider's zero test, as R182 says it and as a test of the value. -/
theorem forall_mem_eq_zero_iff : (∀ x ∈ b, x = 0#8) ↔ val b = 0 := by
  rw [← allZero_iff, allZero, List.all_eq_true]
  simp only [beq_iff_eq]

/-- R191: CMP of a smaller value with a larger one is negative. -/
theorem compareCode_of_lt (h : a.length = b.length) (hlt : val a < val b) : compareCode a b = 0b11#2 := by
  rw [compareCode_eq a b h, if_pos hlt]

end buffers

/-! ## The divider, one equation per check -/

section divider
variable {w : Bool} {s : State} {rd ra rb : Reg}

theorem divideCommand_of_empty (h : s.getReg ra = [] ∨ s.getReg rb = []) :
    divideCommand w rd ra rb s = raise .invalidOperand s := by
  rw [divideCommand, operandPair_of_empty h]

theorem divideCommand_of_mismatch (ha : s.getReg ra ≠ []) (hb : s.getReg rb ≠ [])
    (hl : (s.getReg ra).length ≠ (s.getReg rb).length) :
    divideCommand w rd ra rb s = raise .lengthMismatch s := by
  rw [divideCommand, operandPair_of_mismatch ha hb hl]

theorem divideCommand_of_zero (ha : s.getReg ra ≠ []) (hl : (s.getReg ra).length = (s.getReg rb).length)
    (hb : val (s.getReg rb) = 0) : divideCommand w rd ra rb s = raise .divisionByZero s := by
  rw [divideCommand, operandPair_of_ok ha hl]
  exact if_pos ((allZero_iff _).mpr hb)

theorem divideCommand_eq_setReg {a b : Buffer} (hra : s.getReg ra = a) (hrb : s.getReg rb = b) (ha : a ≠ [])
    (hl : a.length = b.length) (hb : val b ≠ 0) :
    divideCommand w rd ra rb s = succeed (s.setReg rd (divisionResult w a b)) := by
  subst hra hrb
  exact divideCommand_of_ok w rd ha hl hb

/-- The rule of a division command, from its word, which half it keeps and what that half satisfies. -/
theorem divisionRule_of_exec {c : Reg → Reg → Reg → Instr} {op : BitVec 8} {P : Buffer → Buffer → Buffer → Prop}
    (henc : ∀ rd ra rb, encode (c rd ra rb) = wordR op (fieldOfReg rd) (fieldOfReg ra) (fieldOfReg rb))
    (hexec : ∀ rd ra rb s, exec (c rd ra rb) s = divideCommand w rd ra rb s)
    (hP : ∀ a b : Buffer, a.length = b.length → val b ≠ 0 → P a b (divisionResult w a b)) :
    DivisionRule c op.toNat P := by
  intro s rd ra rb
  refine ⟨spelled_formatR_rd_ra_rb rd ra rb (henc rd ra rb),
    fun he => fails_of_raise ((hexec rd ra rb s).trans (divideCommand_of_empty he)),
    fun ha hb hl => fails_of_raise ((hexec rd ra rb s).trans (divideCommand_of_mismatch ha hb hl)),
    fun ha hl hz => fails_of_raise ((hexec rd ra rb s).trans
      (divideCommand_of_zero ha hl (forall_mem_eq_zero_iff.mp hz))),
    fun ha hl hnz => ?_⟩
  have hb : val (s.getReg rb) ≠ 0 := forall_mem_eq_zero_iff.not.mp hnz
  exact writes_of_succeed ((hexec rd ra rb s).trans (divideCommand_eq_setReg rfl rfl ha hl hb))
    ⟨length_divisionResult w hb, hP _ _ hl hb⟩

end divider

/-! ## Commands in turn, by what the registers hold -/

section sequences
variable {i : Instr} {s : State} {rd ra rb : Reg} {a b : Buffer}

/-- The commands after one that writes `b` to `rd` run on a state that differs in that register alone. -/
theorem execAll_cons_of_setReg (h : exec i s = succeed (s.setReg rd b)) :
    ∃ u : State, u.getReg rd = b ∧ (∀ x, x ≠ rd → u.getReg x = s.getReg x) ∧
      ∀ is, execAll (i :: is) s = execAll is u :=
  ⟨(s.setReg rd b).setErr 0#4, setReg_getReg_same s rd b, fun _ hx => setReg_getReg_other s rd b hx,
    fun _ => execAll_cons_of_succeed h⟩

theorem execCmp_of_ok (hra : s.getReg ra = a) (hrb : s.getReg rb = b) (ha : a ≠ []) (hl : a.length = b.length) :
    exec (.cmp ra rb) s = succeed (s.setCmp (compareCode a b)) := by
  subst hra hrb
  rw [exec, execCmp, operandPair_of_ok ha hl]

end sequences

/-! ## The rules -/

/-- Settles O30: the divider's quotient. -/
theorem divFollowsItsRule : Obligations.DivFollowsItsRule :=
  divisionRule_of_exec (w := false) (op := 0x24#8) (fun _ _ _ => rfl) (fun _ _ _ _ => rfl)
    fun _ _ h hb => val_quotient h hb

/-- Settles O31: the divider's remainder. -/
theorem modFollowsItsRule : Obligations.ModFollowsItsRule :=
  divisionRule_of_exec (w := true) (op := 0x25#8) (fun _ _ _ => rfl) (fun _ _ _ _ => rfl)
    fun _ _ h hb => ⟨val_remainder h hb, val_remainder_lt h hb⟩

/-! ## The identity -/

/-- Settles O48: DIV and MOD leave the halves of the division in q and r, MUL and ADD put them together again in p, and
CMP finds the remainder below the divisor. -/
theorem divisionIdentityHoldsExactly : Obligations.DivisionIdentityHoldsExactly := by
  intro s a b q r p hdistinct ha hl hb
  obtain ⟨⟨-, haq, -, -⟩, ⟨hbq, hbr, hbp⟩, ⟨hqr, -⟩, hrp⟩ :
      (a ≠ b ∧ a ≠ q ∧ a ≠ r ∧ a ≠ p) ∧ (b ≠ q ∧ b ≠ r ∧ b ≠ p) ∧ (q ≠ r ∧ q ≠ p) ∧ r ≠ p := by
    simpa using hdistinct
  have hquot : (divisionResult false (s.getReg a) (s.getReg b)).length = (s.getReg a).length :=
    length_divisionResult false hb
  have hrem : (divisionResult true (s.getReg a) (s.getReg b)).length = (s.getReg a).length :=
    length_divisionResult true hb
  have hprod := (length_mulBuffer _ _ (hquot.trans hl)).trans hquot
  obtain ⟨u, huq, hu, hdiv⟩ := execAll_cons_of_setReg (i := .div q a b)
    (divideCommand_eq_setReg (w := false) rfl rfl ha hl hb)
  obtain ⟨v, hvr, hv, hmod⟩ := execAll_cons_of_setReg (i := .mod r a b)
    (divideCommand_eq_setReg (w := true) (hu a haq) (hu b hbq) ha hl hb)
  obtain ⟨x, hxp, hx, hmul⟩ := execAll_cons_of_setReg (binaryOp_mul.exec_of_ok p ((hv q hqr).trans huq)
    ((hv b hbr).trans (hu b hbq)) (ne_nil_of_length_eq hquot ha) (hquot.trans hl))
  obtain ⟨y, hyp, hy, hadd⟩ := execAll_cons_of_setReg (binaryOp_add.exec_of_ok p hxp ((hx r hrp).trans hvr)
    (ne_nil_of_length_eq hprod ha) (hprod.trans hrem.symm))
  have hyr := (hy r hrp).trans ((hx r hrp).trans hvr)
  have hyb := (hy b hbp).trans ((hx b hbp).trans ((hv b hbr).trans (hu b hbq)))
  have hcmp := execCmp_of_ok hyr hyb (ne_nil_of_length_eq hrem ha) (hrem.trans hl)
  rw [compareCode_of_lt (hrem.trans hl) (val_remainder_lt hl hb)] at hcmp
  rw [addBuffer_mulBuffer_quotient_remainder hl hb] at hyp
  refine ⟨(y.setCmp 0b11#2).setErr 0#4, ?_, hyp, rfl, rfl⟩
  rw [hdiv, hmod, hmul, hadd]
  exact execAll_cons_of_succeed hcmp

end Sys2Proof.Proofs
end

section
/-!
PROOFS. The rules of CMP and ISZERO and the order that CMP decides (spec/45_compare.md R190 to R193). Each answer of CMP
is one comparison of values (`cmpGives_negative_iff`, `cmpGives_zero_iff`, `cmpGives_positive_iff`), and ISZERO, alone or
after a command on two sources, is one test of a value; the laws of R193 are then those of the order of values.
-/

namespace Sys2Proof.Proofs
open Sys2Proof.Machine Sys2Proof.Laws

/-! ## The word of a command without a destination -/

section format
variable {i : Instr} {op : BitVec 8} (ra rb : Reg)

theorem spelled_formatR_ra_rb (h : encode i = wordR op 0#4 (fieldOfReg ra) (fieldOfReg rb)) :
    Spelled i (formatR op.toNat 0 (regNumber ra) (regNumber rb)) :=
  spelled_of_encode (by rw [h, wordR_eq_formatR, fieldOfReg_toNat, fieldOfReg_toNat]; rfl)

theorem spelled_formatR_ra (h : encode i = wordR op 0#4 (fieldOfReg ra) 0#4) :
    Spelled i (formatR op.toNat 0 (regNumber ra) 0) :=
  spelled_of_encode (by rw [h, wordR_eq_formatR, fieldOfReg_toNat]; rfl)

end format

/-! ## The two commands, one equation per failing check, and what their success changes -/

section shapes
variable {s : State} {ra rb : Reg}

theorem execCmp_of_empty (h : s.getReg ra = [] ∨ s.getReg rb = []) :
    exec (.cmp ra rb) s = raise .invalidOperand s := by
  rw [exec, execCmp, operandPair_of_empty h]

theorem execCmp_of_mismatch (ha : s.getReg ra ≠ []) (hb : s.getReg rb ≠ [])
    (hl : (s.getReg ra).length ≠ (s.getReg rb).length) : exec (.cmp ra rb) s = raise .lengthMismatch s := by
  rw [exec, execCmp, operandPair_of_mismatch ha hb hl]

theorem execIsZero_of_empty (ha : s.getReg ra = []) : exec (.isZero ra) s = raise .invalidOperand s := by
  rw [exec, execIsZero, sourceOperand_of_empty ha]

theorem onlyFlags_setCmp (s : State) (c : BitVec 2) : OnlyFlags s ((s.setCmp c).setErr 0#4) c s.status.z := rfl

theorem onlyFlags_setZ (s : State) (z : Bool) : OnlyFlags s ((s.setZ z).setErr 0#4) s.status.cmp z := rfl

end shapes

/-! ## The code of CMP, and the zero test of XOR and SUB, by value -/

section buffers
variable {a b : Buffer}

theorem val_eq_val_iff (h : a.length = b.length) : val a = val b ↔ a = b := ⟨val_injective h, congrArg val⟩

/-- R191, in values. -/
theorem compareCode_eq_ite (h : a.length = b.length) :
    compareCode a b = if val a < val b then 0b11#2 else if val a = val b then 0b00#2 else 0b01#2 := by
  rw [compareCode_eq a b h]
  rcases lt_trichotomy (val a) (val b) with hlt | heq | hgt
  · rw [if_pos hlt, if_pos hlt]
  · simp only [heq, lt_irrefl, if_false, if_true]
  · rw [if_neg hgt.asymm, if_pos hgt, if_neg hgt.asymm, if_neg hgt.ne']

/-- The three codes differ, so each of them tells which of `<`, `=` and `>` holds. -/
theorem compareCode_iff (h : a.length = b.length) :
    (compareCode a b = 0b11#2 ↔ val a < val b) ∧ (compareCode a b = 0b00#2 ↔ val a = val b) ∧
      (compareCode a b = 0b01#2 ↔ val b < val a) := by
  rw [compareCode_eq_ite h]
  rcases lt_trichotomy (val a) (val b) with hlt | heq | hgt
  · simp [hlt, hlt.ne, hlt.asymm]
  · simp [heq]
  · simp [hgt, hgt.ne', hgt.asymm]

/-- A bitwise difference is zero only between equal bytes. -/
theorem val_xorBuffer_eq_zero_iff (h : a.length = b.length) : val (xorBuffer a b) = 0 ↔ a = b := by
  constructor
  · intro hz
    have hbytes := forall_mem_eq_zero_iff.mpr hz
    refine List.ext_getElem h fun i hia hib => BitVec.xor_eq_zero_iff.mp (hbytes _ ?_)
    exact List.mem_iff_getElem.mpr ⟨i, by rwa [length_xorBuffer a b h], List.getElem_zipWith⟩
  · rintro rfl
    rw [xorBuffer_self, val_zeroBuffer]

/-- A difference that borrows is not zero: the subtrahend is less than what is borrowed. -/
theorem val_subBuffer_eq_zero_iff (h : a.length = b.length) : val (subBuffer a b) = 0 ↔ a = b := by
  have hb := val_lt_two_pow b
  rw [← h] at hb
  rw [val_subBuffer_eq_ite h, ← val_eq_val_iff h]
  split <;> omega

end buffers

/-! ## What the two commands answer -/

/-- CMP of `p` and `q` succeeds and leaves `code` in STATUS.CMP. -/
def CmpGives (s : State) (p q : Reg) (code : BitVec 2) : Prop :=
  ∃ t, exec (.cmp p q) s = .next t ∧ t.status.err = 0#4 ∧ t.status.cmp = code

/-- The commands run, the last one succeeds, and STATUS.Z is then `z`. -/
def IsZeroGives (s : State) (is : List Instr) (z : Bool) : Prop :=
  ∃ t, execAll is s = .next t ∧ t.status.err = 0#4 ∧ t.status.z = z

section cmpGives
variable {s : State} {p q : Reg} (hp : s.getReg p ≠ []) (hl : (s.getReg p).length = (s.getReg q).length)
include hp hl

theorem cmpGives_iff {code : BitVec 2} :
    CmpGives s p q code ↔ compareCode (s.getReg p) (s.getReg q) = code := by
  rw [CmpGives, execCmp_of_ok rfl rfl hp hl]
  constructor
  · rintro ⟨t, ht, -, hcmp⟩
    cases ht
    exact hcmp
  · exact fun hcode => ⟨_, rfl, rfl, hcode⟩

theorem cmpGives_negative_iff : CmpGives s p q 0b11#2 ↔ val (s.getReg p) < val (s.getReg q) := by
  obtain ⟨hneg, -, -⟩ := compareCode_iff hl
  exact (cmpGives_iff hp hl).trans hneg

theorem cmpGives_zero_iff : CmpGives s p q 0b00#2 ↔ s.getReg p = s.getReg q := by
  obtain ⟨-, hzero, -⟩ := compareCode_iff hl
  exact (cmpGives_iff hp hl).trans (hzero.trans (val_eq_val_iff hl))

theorem cmpGives_positive_iff : CmpGives s p q 0b01#2 ↔ val (s.getReg q) < val (s.getReg p) := by
  obtain ⟨-, -, hpos⟩ := compareCode_iff hl
  exact (cmpGives_iff hp hl).trans hpos

end cmpGives

theorem isZeroGives_iff {s : State} {p : Reg} (hp : s.getReg p ≠ []) :
    IsZeroGives s [.isZero p] true ↔ val (s.getReg p) = 0 := by
  rw [IsZeroGives, execAll_cons_of_succeed (execIsZero_of_ne hp), ← allZero_iff]
  constructor
  · rintro ⟨t, ht, -, hz⟩
    cases ht
    exact hz
  · exact fun hz => ⟨_, rfl, rfl, hz⟩

/-- ISZERO after a command on two sources tests what that command has written. -/
theorem BinaryOp.isZeroGives_iff {c : Reg → Reg → Reg → Instr} {f : Buffer → Buffer → Buffer} (hc : BinaryOp c f)
    {s : State} {p q : Reg} (r : Reg) (hp : s.getReg p ≠ []) (hl : (s.getReg p).length = (s.getReg q).length) :
    IsZeroGives s [c r p q, .isZero r] true ↔ val (f (s.getReg p) (s.getReg q)) = 0 := by
  obtain ⟨u, hur, -, hrun⟩ := execAll_cons_of_setReg (hc.exec_of_ok r rfl rfl hp hl)
  have hu : u.getReg r ≠ [] := hur ▸ ne_nil_of_length_eq (hc.length_eq _ _ hl) hp
  rw [IsZeroGives, hrun, ← hur]
  exact Proofs.isZeroGives_iff hu

theorem binaryOp_xor : BinaryOp .xor xorBuffer := ⟨fun _ _ _ _ => rfl, length_xorBuffer⟩

/-! ## The rules -/

/-- Settles O32, from the code of CMP in values. -/
theorem cmpFollowsItsRule : Obligations.CmpFollowsItsRule := fun s ra rb =>
  ⟨spelled_formatR_ra_rb (op := 0x30#8) ra rb rfl, fun he => fails_of_raise (execCmp_of_empty he),
    fun ha hb hl => fails_of_raise (execCmp_of_mismatch ha hb hl),
    fun ha hl => ⟨_, execCmp_of_ok rfl rfl ha hl, compareCode_eq_ite hl ▸ onlyFlags_setCmp s _⟩⟩

/-- Settles O33: Z is the zero test of the bytes, which is that of the value. -/
theorem isZeroFollowsItsRule : Obligations.IsZeroFollowsItsRule := fun s ra =>
  ⟨spelled_formatR_ra (op := 0x31#8) ra rfl, fun ha => fails_of_raise (execIsZero_of_empty ha),
    fun ha => ⟨_, _, execIsZero_of_ne ha, onlyFlags_setZ s _,
      (allZero_iff _).trans forall_mem_eq_zero_iff.symm, allZero_iff _⟩⟩

/-! ## The laws -/

/-- Settles O49: every clause of R193 is read as its comparison of values or of buffers. -/
theorem compareIsATotalOrder : Obligations.CompareIsATotalOrder := by
  intro s a b r ha hl
  have hb := ne_nil_of_length_eq hl.symm ha
  refine ⟨(cmpGives_zero_iff ha rfl).mpr rfl, cmpGives_zero_iff ha hl,
    (cmpGives_negative_iff ha hl).trans (cmpGives_positive_iff hb hl.symm).symm, fun c hc hab hbc => ?_,
    cmpGives_negative_iff ha hl, fun zero hzero hv => ?_, ?_, ?_⟩
  · have hltab := (cmpGives_negative_iff ha hl).mp hab
    have hltbc := (cmpGives_negative_iff hb (hl.symm.trans hc)).mp hbc
    exact (cmpGives_negative_iff ha hc).mpr (hltab.trans hltbc)
  · calc IsZeroGives s [.isZero a] true
      _ ↔ val (s.getReg a) = val (s.getReg zero) := by rw [hv, isZeroGives_iff ha]
      _ ↔ s.getReg a = s.getReg zero := val_eq_val_iff hzero
      _ ↔ CmpGives s a zero 0b00#2 := (cmpGives_zero_iff ha hzero).symm
  · calc CmpGives s a b 0b00#2
      _ ↔ s.getReg a = s.getReg b := cmpGives_zero_iff ha hl
      _ ↔ val (xorBuffer (s.getReg a) (s.getReg b)) = 0 := (val_xorBuffer_eq_zero_iff hl).symm
      _ ↔ IsZeroGives s [.xor r a b, .isZero r] true := (binaryOp_xor.isZeroGives_iff r ha hl).symm
  · calc CmpGives s a b 0b00#2
      _ ↔ s.getReg a = s.getReg b := cmpGives_zero_iff ha hl
      _ ↔ val (subBuffer (s.getReg a) (s.getReg b)) = 0 := (val_subBuffer_eq_zero_iff hl).symm
      _ ↔ IsZeroGives s [.sub r a b, .isZero r] true := (binaryOp_sub.isZeroGives_iff r ha hl).symm

end Sys2Proof.Proofs
end

section
/-!
PROOFS. The rules and the laws of TOSTR and FROMSTR (spec/46_base_conversion.md R200 to R210). Every string of TOSTR is
one construction, the numeral of a number in a base at a number of digits (`stringOf_eq`), and every string FROMSTR
accepts is, in upper case, the numeral of its own value at its own length (`map_upperCase_eq_numeral`); the round trips are
then facts about one number at two lengths.
-/

namespace Sys2Proof.Proofs
open Sys2Proof.Machine Sys2Proof.Laws

/-! ## Numerals of a fixed number of digits -/

/-- The last `k` digits of `v` in base `b` as characters, most significant first. -/
def numeral (b : Nat) : Nat → Nat → List Byte
  | 0, _ => []
  | k + 1, v => numeral b k (v / b) ++ [digitChar (v % b)]

section numeral
variable {b : Nat}

@[simp] theorem length_numeral (k v : Nat) : (numeral b k v).length = k := by
  induction k generalizing v with
  | zero => rfl
  | succ k ih => simp [numeral, ih]

theorem numeral_one (v : Nat) : numeral b 1 v = [digitChar (v % b)] := rfl

/-- The digits of a numeral in two runs: what the low digits leave, then the low digits. -/
theorem numeral_add (j k v : Nat) : numeral b (j + k) v = numeral b j (v / b ^ k) ++ numeral b k v := by
  induction k generalizing v with
  | zero => simp [numeral]
  | succ k ih =>
    rw [← Nat.add_assoc, numeral, ih, numeral, pow_succ', Nat.div_div_eq_div_mul, List.append_assoc]

theorem numeral_zero (k : Nat) : numeral b k 0 = List.replicate k 0x30#8 := by
  induction k with
  | zero => rfl
  | succ k ih => rw [numeral, Nat.zero_div, Nat.zero_mod, ih, List.replicate_succ']; rfl

/-- More digits than a number needs are leading zeros. -/
theorem numeral_eq_replicate_append {k v : Nat} (j : Nat) (hv : v < b ^ k) :
    numeral b (j + k) v = List.replicate j 0x30#8 ++ numeral b k v := by
  rw [numeral_add, Nat.div_eq_of_lt hv, numeral_zero]

/-- A numeral shows its number modulo the power of the base. -/
theorem numeral_eq_of_mod_eq {k v w : Nat} (h : v % b ^ k = w % b ^ k) : numeral b k v = numeral b k w := by
  induction k generalizing v w with
  | zero => rfl
  | succ k ih =>
    have hdiv : v / b % b ^ k = w / b % b ^ k := by
      rw [← Nat.mod_mul_right_div_self, ← Nat.mod_mul_right_div_self, ← pow_succ', h]
    have hmod : v % b = w % b := by
      have hdvd : b ∣ b ^ (k + 1) := Dvd.intro_left _ rfl
      rw [← Nat.mod_mod_of_dvd v hdvd, ← Nat.mod_mod_of_dvd w hdvd, h]
    rw [numeral, numeral, ih hdiv, hmod]

theorem mem_numeral (hb : 0 < b) {k v : Nat} {c : Byte} (hc : c ∈ numeral b k v) : ∃ d, d < b ∧ c = digitChar d := by
  induction k generalizing v with
  | zero => cases hc
  | succ k ih =>
    obtain hc | hc := List.mem_append.mp hc
    · exact ih hc
    · exact ⟨v % b, Nat.mod_lt v hb, List.mem_singleton.mp hc⟩

/-- The digit at place `i` of a numeral of `k` digits is the one of weight `b ^ (k - 1 - i)`. -/
theorem getD_numeral {k v i : Nat} (hi : i < k) :
    (numeral b k v).getD i 0#8 = digitChar (v / b ^ (k - 1 - i) % b) := by
  obtain ⟨j, rfl⟩ := Nat.exists_eq_add_of_lt hi
  rw [show i + j + 1 = i + 1 + j by omega, numeral_add, numeral, show i + 1 + j - 1 - i = j by omega]
  simp

/-- Horner's scheme over a numeral, with any reading of characters that reads the digits of the base. -/
theorem foldl_numeral {f : Byte → Nat} (hf : ∀ d, d < b → f (digitChar d) = d) (hb : 0 < b) (k v : Nat) :
    (numeral b k v).foldl (fun n c => n * b + f c) 0 = v % b ^ k := by
  induction k generalizing v with
  | zero => simp [numeral, Nat.mod_one]
  | succ k ih =>
    rw [numeral, List.foldl_append, ih, List.foldl_cons, List.foldl_nil, hf _ (Nat.mod_lt v hb), pow_succ', Nat.mod_mul]
    ring

/-- The shortest numeral begins with the leading digit of the number. -/
theorem numeral_log (v : Nat) :
    numeral b (Nat.log b v + 1) v = digitChar (v / b ^ Nat.log b v % b) :: numeral b (Nat.log b v) v := by
  rw [Nat.add_comm, numeral_add, numeral_one, List.singleton_append]

/-- The leading digit of a number other than 0 is a digit other than 0. -/
theorem leading_digit {v : Nat} (hb : 1 < b) (hv : v ≠ 0) :
    0 < v / b ^ Nat.log b v % b ∧ v / b ^ Nat.log b v % b < b := by
  have hpos : 0 < v / b ^ Nat.log b v := Nat.div_pos (Nat.pow_log_le_self b hv) (by positivity)
  have hlt : v / b ^ Nat.log b v < b := Nat.div_lt_of_lt_mul (by
    rw [← pow_succ]; exact Nat.lt_pow_succ_log_self hb v)
  rw [Nat.mod_eq_of_lt hlt]
  exact ⟨hpos, hlt⟩

end numeral

/-! ## The strings of TOSTR are numerals -/

/-- The number of digits of TOSTR's string of an `n`-byte buffer of value `v` (R202 to R204). -/
def stringLength (base : Base) (n v : Nat) : Nat :=
  match base with
  | .two => 8 * n
  | .ten => Nat.log 10 v + 1
  | .sixteen => 2 * n

/-- If `m` digits make a byte, the numerals of the bytes, from the most significant down, are that of the buffer. -/
theorem flatMap_numeral {b m : Nat} (hm : b ^ m = 256) (a : Buffer) :
    a.reverse.flatMap (fun x => numeral b m x.toNat) = numeral b (m * a.length) (val a) := by
  induction a with
  | nil => rfl
  | cons x a ih =>
    have hx := byte_lt x
    have hdiv : val (x :: a) / b ^ m = val a := by rw [hm, val_cons]; omega
    have hmod : x.toNat % b ^ m = val (x :: a) % b ^ m := by rw [hm, val_cons]; omega
    calc (x :: a).reverse.flatMap (fun x => numeral b m x.toNat)
      _ = a.reverse.flatMap (fun x => numeral b m x.toNat) ++ numeral b m x.toNat := by
        simp [List.flatMap_append]
      _ = numeral b (m * a.length) (val (x :: a) / b ^ m) ++ numeral b m (val (x :: a)) := by
        rw [ih, hdiv, numeral_eq_of_mod_eq hmod]
      _ = numeral b (m * (x :: a).length) (val (x :: a)) := (numeral_add _ _ _).symm

theorem hexString_eq (a : Buffer) : hexString a = numeral 16 (2 * a.length) (val a) := by
  rw [← flatMap_numeral (by norm_num), hexString]
  refine congrArg a.reverse.flatMap (funext fun x => ?_)
  have hhigh : x.toNat / 16 % 16 = x.toNat / 16 := by have := byte_lt x; omega
  simp [numeral, hhigh]

theorem binString_eq (a : Buffer) : binString a = numeral 2 (8 * a.length) (val a) := by
  rw [← flatMap_numeral (by norm_num), binString]
  refine congrArg a.reverse.flatMap (funext fun x => ?_)
  simp [numeral, Nat.shiftRight_eq_div_pow, Nat.div_div_eq_div_mul]

/-- With enough fuel the loop of R204 emits the shortest numeral, last digit first. -/
theorem reverse_decimalDigits {fuel v : Nat} (hv : v ≠ 0) (hfuel : v < 2 ^ fuel) :
    (decimalDigits fuel v).reverse = numeral 10 (Nat.log 10 v + 1) v := by
  induction fuel generalizing v with
  | zero => omega
  | succ fuel ih =>
    rw [decimalDigits, if_neg hv, List.reverse_cons, numeral]
    by_cases hlt : v < 10
    · have hdigits : decimalDigits fuel 0 = [] := by cases fuel <;> rfl
      rw [Nat.div_eq_of_lt hlt, hdigits, Nat.log_of_lt hlt]
      rfl
    · have hlog : Nat.log 10 v = Nat.log 10 (v / 10) + 1 := Nat.log_of_one_lt_of_le (by norm_num) (by omega)
      rw [ih (by omega) (by rw [pow_succ] at hfuel; omega), hlog]

theorem decString_eq (a : Buffer) : decString a = numeral 10 (Nat.log 10 (val a) + 1) (val a) := by
  rw [decString]
  by_cases hv : val a = 0
  · rw [if_pos ((allZero_iff a).mpr hv), hv, Nat.log_zero_right, numeral_zero]
    rfl
  · rw [if_neg ((allZero_iff a).not.mpr hv), reverse_decimalDigits hv (val_lt_two_pow a)]

/-- R201: TOSTR's string is the numeral of the buffer's value, of a length the base and the value decide. -/
theorem stringOf_eq (base : Base) (a : Buffer) :
    stringOf base a = numeral base.toNat (stringLength base a.length (val a)) (val a) := by
  cases base with
  | two => exact binString_eq a
  | ten => exact decString_eq a
  | sixteen => exact hexString_eq a

theorem length_stringOf (base : Base) (a : Buffer) :
    (stringOf base a).length = stringLength base a.length (val a) := by
  rw [stringOf_eq, length_numeral]

theorem one_lt_base (base : Base) : 1 < base.toNat := by cases base <;> decide

/-- The string shows the whole value. -/
theorem lt_pow_stringLength {base : Base} {n v : Nat} (hv : v < 2 ^ (8 * n)) :
    v < base.toNat ^ stringLength base n v := by
  cases base with
  | two => exact hv
  | ten => exact Nat.lt_pow_succ_log_self (by decide) v
  | sixteen =>
    have hpow : (16 : Nat) ^ (2 * n) = 2 ^ (8 * n) := by rw [pow_mul, pow_mul]; norm_num
    exact hv.trans_eq hpow.symm

theorem stringLength_pos {base : Base} {n v : Nat} (hn : n ≠ 0) : 0 < stringLength base n v := by
  cases base <;> simp only [stringLength] <;> omega

/-! ## Digits and their characters -/

section digits
variable {base : Base}

/-- R207: the model's digits are those of the alphabets. -/
theorem digitOf_eq_digitValue (base : Base) (c : Byte) : digitOf base c = digitValue base.toNat c := by
  revert c
  cases base <;> decide

/-- R202, R207: the character of a digit reads as the digit. -/
theorem digitValue_digitChar {d : Nat} (hd : d < base.toNat) : digitValue base.toNat (digitChar d) = some d := by
  revert d
  cases base <;> decide

/-- The upper case of R210 (c): 'a' to 'f' become 'A' to 'F'. -/
def upperCase (c : Byte) : Byte := if 0x61 ≤ c.toNat ∧ c.toNat ≤ 0x66 then c - 0x20#8 else c

/-- Where a digit's character lies: '0' to '9', or a letter of either case (R207). -/
theorem digitOf_cases {c : Byte} {d : Nat} (h : digitOf base c = some d) :
    d < base.toNat ∧ ((d < 10 ∧ c.toNat = 0x30 + d) ∨
      (10 ≤ d ∧ d < 16 ∧ (c.toNat = 0x41 + (d - 10) ∨ c.toNat = 0x61 + (d - 10)))) := by
  cases base <;> simp only [digitOf, Base.toNat] at h ⊢ <;> split_ifs at h <;> cases h <;> omega

theorem isSome_digitValue_iff {c : Byte} :
    (digitValue base.toNat c).isSome = true ↔ ∃ d, digitOf base c = some d := by
  rw [← digitOf_eq_digitValue, Option.isSome_iff_exists]

/-- A character of the alphabet is, in upper case, the character of its digit. -/
theorem digitChar_of_digitOf {c : Byte} {d : Nat} (h : digitOf base c = some d) : digitChar d = upperCase c := by
  refine BitVec.eq_of_toNat_eq ?_
  obtain ⟨-, ⟨hd, hc⟩ | ⟨hd, hlt, hc | hc⟩⟩ := digitOf_cases h
  · rw [digitChar, if_pos hd, upperCase, if_neg (by omega), ofNat_toNat]
    omega
  · rw [digitChar, if_neg (by omega), upperCase, if_neg (by omega), ofNat_toNat]
    omega
  · rw [digitChar, if_neg (by omega), upperCase, if_pos (by omega), ofNat_toNat, BitVec.toNat_sub]
    change _ = (2 ^ 8 - 0x20 + c.toNat) % 2 ^ 8
    omega

theorem digitChar_digitValue {c : Byte} (hc : (digitValue base.toNat c).isSome = true) :
    (digitValue base.toNat c).getD 0 < base.toNat ∧ digitChar ((digitValue base.toNat c).getD 0) = upperCase c := by
  obtain ⟨d, hd⟩ := isSome_digitValue_iff.mp hc
  obtain ⟨hlt, -⟩ := digitOf_cases hd
  rw [← digitOf_eq_digitValue, hd]
  exact ⟨hlt, digitChar_of_digitOf hd⟩

/-- The decimal digits have no case. -/
theorem upperCase_of_decimal {c : Byte} (hc : (digitValue 10 c).isSome = true) : upperCase c = c := by
  obtain ⟨d, hd⟩ := (isSome_digitValue_iff (base := .ten)).mp hc
  obtain ⟨hlt, hcases⟩ := digitOf_cases hd
  have hten : d < 10 := hlt
  rw [upperCase, if_neg (by omega)]

theorem digitChar_toNat {d : Nat} (hd : d < 10) : (digitChar d).toNat = 0x30 + d := by
  revert d
  decide

theorem digitChar_eq_hexAlphabet {d : Nat} (hd : d < 16) : digitChar d = hexAlphabet.getD d 0#8 := by
  revert d
  decide

theorem digitChar_ne_zero {d : Nat} (hpos : 0 < d) (hd : d < 10) : digitChar d ≠ 0x30#8 := by
  intro h
  have hval := digitChar_toNat hd
  rw [h] at hval
  change 0x30 = 0x30 + d at hval
  omega

end digits

/-! ## Reading a string -/

section reading
variable {base : Base} {cs : List Byte}

/-- Every character is a digit of the base (R209). -/
def AllDigits (base : Base) (cs : List Byte) : Prop := ∀ c ∈ cs, (digitValue base.toNat c).isSome = true

theorem isNumeral_iff : IsNumeral base.toNat cs ↔ cs ≠ [] ∧ AllDigits base cs := Iff.rfl

theorem allDigits_append_singleton {c : Byte} :
    AllDigits base (cs ++ [c]) ↔ AllDigits base cs ∧ (digitValue base.toNat c).isSome = true := by
  simp [AllDigits, or_imp, forall_and]

theorem numeralValue_append_singleton (b : Nat) (cs : List Byte) (c : Byte) :
    numeralValue b (cs ++ [c]) = numeralValue b cs * b + (digitValue b c).getD 0 := by
  rw [numeralValue, List.foldl_append]
  rfl

theorem digitsOf_of_allDigits (h : AllDigits base cs) :
    digitsOf base cs = some (cs.map fun c => (digitValue base.toNat c).getD 0) := by
  induction cs with
  | nil => rfl
  | cons c cs ih =>
    obtain ⟨hc, hcs⟩ := List.forall_mem_cons.mp h
    obtain ⟨d, hd⟩ := Option.isSome_iff_exists.mp hc
    rw [digitsOf, digitOf_eq_digitValue, ih hcs, hd, List.map_cons, hd]
    rfl

theorem digitsOf_of_not_allDigits (h : ¬ AllDigits base cs) : digitsOf base cs = none := by
  induction cs with
  | nil => exact absurd (List.forall_mem_nil _) h
  | cons c cs ih =>
    rw [digitsOf, digitOf_eq_digitValue]
    cases hc : digitValue base.toNat c with
    | none => rfl
    | some d =>
      have hcs : ¬ AllDigits base cs := fun hcs => h (List.forall_mem_cons.mpr ⟨by rw [hc]; rfl, hcs⟩)
      rw [ih hcs]

/-- Reducing at every digit changes the number by multiples of the modulus only (R208). -/
theorem accumulate_modEq {b n acc acc' : Nat} (ds : List Nat) (h : acc ≡ acc' [MOD 2 ^ (8 * n)]) :
    accumulate b n acc ds ≡ ds.foldl (fun m d => m * b + d) acc' [MOD 2 ^ (8 * n)] := by
  induction ds generalizing acc acc' with
  | nil => exact h
  | cons d ds ih => exact ih ((Nat.mod_modEq _ _).trans ((h.mul_right b).add_right d))

theorem bufOf_mod (n v : Nat) : bufOf n (v % 2 ^ (8 * n)) = bufOf n v :=
  val_injective (by simp) (by simp [val_bufOf, two_pow_eight_mul])

/-- R206 to R208: a numeral is read as the buffer of its value. -/
theorem parseString_of_isNumeral (n : Nat) (h : IsNumeral base.toNat cs) :
    parseString base n cs = .ok (bufOf n (numeralValue base.toNat cs)) := by
  obtain ⟨hne, hdigits⟩ := isNumeral_iff.mp h
  have hvalue : accumulate base.toNat n 0 (cs.map fun c => (digitValue base.toNat c).getD 0) % 2 ^ (8 * n) =
      numeralValue base.toNat cs % 2 ^ (8 * n) := by
    rw [numeralValue, ← List.foldl_map (f := fun c => (digitValue base.toNat c).getD 0)]
    exact accumulate_modEq _ rfl
  rw [parseString, if_neg (List.length_eq_zero_iff.not.mpr hne), digitsOf_of_allDigits hdigits]
  simp only
  rw [← bufOf_mod, hvalue, bufOf_mod]

/-- R209: anything else is refused. -/
theorem parseString_of_not_isNumeral (n : Nat) (h : ¬ IsNumeral base.toNat cs) :
    parseString base n cs = .error .invalidFormat := by
  rw [parseString]
  by_cases hne : cs = []
  · rw [if_pos (List.length_eq_zero_iff.mpr hne)]
  · have hdigits : ¬ AllDigits base cs := fun hd => h (isNumeral_iff.mpr ⟨hne, hd⟩)
    rw [if_neg (List.length_eq_zero_iff.not.mpr hne), digitsOf_of_not_allDigits hdigits]

end reading

/-! ## Numerals read back, and strings as numerals -/

section strings
variable {base : Base} {cs : List Byte}

theorem isNumeral_numeral {k : Nat} (hk : 0 < k) (v : Nat) : IsNumeral base.toNat (numeral base.toNat k v) := by
  refine isNumeral_iff.mpr ⟨List.length_pos_iff.mp ((length_numeral k v).symm ▸ hk), fun c hc => ?_⟩
  obtain ⟨d, hd, rfl⟩ := mem_numeral (Nat.zero_lt_of_lt (one_lt_base base)) hc
  rw [digitValue_digitChar hd]
  rfl

theorem numeralValue_numeral (base : Base) (k v : Nat) :
    numeralValue base.toNat (numeral base.toNat k v) = v % base.toNat ^ k :=
  foldl_numeral (f := fun c => (digitValue base.toNat c).getD 0)
    (fun _ hd => by rw [digitValue_digitChar hd]; rfl) (Nat.zero_lt_of_lt (one_lt_base base)) k v

theorem numeralValue_lt (h : AllDigits base cs) : numeralValue base.toNat cs < base.toNat ^ cs.length := by
  induction cs using List.reverseRecOn with
  | nil => exact Nat.one_pos
  | append_singleton cs c ih =>
    obtain ⟨hcs, hc⟩ := allDigits_append_singleton.mp h
    obtain ⟨hlt, -⟩ := digitChar_digitValue hc
    rw [numeralValue_append_singleton, List.length_append, List.length_singleton, pow_succ]
    calc numeralValue base.toNat cs * base.toNat + (digitValue base.toNat c).getD 0
      _ < (numeralValue base.toNat cs + 1) * base.toNat := by rw [Nat.succ_mul]; omega
      _ ≤ base.toNat ^ cs.length * base.toNat := Nat.mul_le_mul_right _ (ih hcs)

/-- A string of digits is, in upper case, the numeral of its own value at its own length. -/
theorem map_upperCase_eq_numeral (h : AllDigits base cs) :
    cs.map upperCase = numeral base.toNat cs.length (numeralValue base.toNat cs) := by
  induction cs using List.reverseRecOn with
  | nil => rfl
  | append_singleton cs c ih =>
    obtain ⟨hcs, hc⟩ := allDigits_append_singleton.mp h
    obtain ⟨hlt, hchar⟩ := digitChar_digitValue hc
    have hdiv : numeralValue base.toNat (cs ++ [c]) / base.toNat = numeralValue base.toNat cs := by
      rw [numeralValue_append_singleton, Nat.mul_comm, Nat.mul_add_div (by omega), Nat.div_eq_of_lt hlt, Nat.add_zero]
    have hmod : numeralValue base.toNat (cs ++ [c]) % base.toNat = (digitValue base.toNat c).getD 0 := by
      rw [numeralValue_append_singleton, Nat.mul_add_mod', Nat.mod_eq_of_lt hlt]
    rw [List.map_append, ih hcs, List.length_append, List.length_singleton, numeral, hdiv, hmod, hchar]
    rfl

/-- R210 (c), (d): padded with '0' or cut on the left to `k` characters, a string of digits is the numeral of its value
with `k` digits. -/
theorem drop_replicate_append_eq_numeral (h : AllDigits base cs) (k : Nat) :
    (List.replicate k 0x30#8 ++ cs.map upperCase).drop cs.length =
      numeral base.toNat k (numeralValue base.toNat cs) := by
  rw [map_upperCase_eq_numeral h, ← numeral_eq_replicate_append k (numeralValue_lt h), Nat.add_comm, numeral_add]
  exact List.drop_left' (length_numeral _ _)

/-- The shortest decimal numeral of a number other than 0 does not begin with '0'. -/
theorem head?_numeral_log {v : Nat} (hv : v ≠ 0) : (numeral 10 (Nat.log 10 v + 1) v).head? ≠ some 0x30#8 := by
  obtain ⟨hpos, hlt⟩ := leading_digit (b := 10) (by norm_num) hv
  rw [numeral_log, List.head?_cons, ne_eq, Option.some_inj]
  exact digitChar_ne_zero hpos hlt

/-- Without its leading zeros a decimal numeral is the shortest one, or nothing if it showed 0. -/
theorem dropWhile_numeral {k v : Nat} (hv : v < 10 ^ k) :
    (numeral 10 k v).dropWhile (· == 0x30#8) = if v = 0 then [] else numeral 10 (Nat.log 10 v + 1) v := by
  split
  next h0 => rw [h0, numeral_zero]; simp
  next hne =>
    obtain ⟨j, rfl⟩ := Nat.exists_eq_add_of_lt (Nat.log_lt_of_lt_pow hne hv)
    rw [show Nat.log 10 v + j + 1 = j + (Nat.log 10 v + 1) by omega,
      numeral_eq_replicate_append j (Nat.lt_pow_succ_log_self (by norm_num) v),
      List.dropWhile_append_of_pos (fun c hc => by simp [List.eq_of_mem_replicate hc])]
    have hhead := head?_numeral_log hne
    rw [numeral_log] at hhead ⊢
    exact List.dropWhile_cons_of_neg (by simpa using hhead)

/-- R210 (b): a decimal string without its leading zeros, or "0", is the shortest numeral of its value. -/
theorem strip_decimal (h : AllDigits .ten cs) :
    (if cs.dropWhile (· == 0x30#8) = [] then [0x30#8] else cs.dropWhile (· == 0x30#8)) =
      numeral 10 (Nat.log 10 (numeralValue 10 cs) + 1) (numeralValue 10 cs) := by
  have hupper : cs.map upperCase = cs :=
    (List.map_congr_left fun c hc => upperCase_of_decimal (h c hc)).trans (List.map_id cs)
  have hcs : cs = numeral 10 cs.length (numeralValue 10 cs) := hupper.symm.trans (map_upperCase_eq_numeral h)
  have hdrop : cs.dropWhile (· == 0x30#8) =
      if numeralValue 10 cs = 0 then [] else numeral 10 (Nat.log 10 (numeralValue 10 cs) + 1) (numeralValue 10 cs) :=
    (congrArg _ hcs).trans (dropWhile_numeral (numeralValue_lt h))
  rw [hdrop]
  by_cases hv : numeralValue 10 cs = 0
  · simp [hv, numeral_zero]
  · simp [hv, numeral_log]

end strings

/-! ## The three strings, as R202 to R204 say them -/

theorem hexNumeral_numeral (a : Buffer) : HexNumeral a (numeral 16 (2 * a.length) (val a)) := by
  refine ⟨length_numeral _ _, fun i hi => ?_⟩
  have hbyte := getD_toNat a (a.length - 1 - i)
  have hpow : (16 : Nat) ^ (2 * (a.length - 1 - i)) = 256 ^ (a.length - 1 - i) := by rw [pow_mul]; norm_num
  have hlow : val a / 256 ^ (a.length - 1 - i) % 16 = (a.getD (a.length - 1 - i) 0#8).toNat % 16 := by omega
  have hhigh : val a / 16 ^ (2 * (a.length - 1 - i) + 1) % 16 = (a.getD (a.length - 1 - i) 0#8).toNat / 16 := by
    rw [pow_succ, hpow, ← Nat.div_div_eq_div_mul]; omega
  have hlt := byte_lt (a.getD (a.length - 1 - i) 0#8)
  constructor
  · rw [getD_numeral (by omega), show 2 * a.length - 1 - 2 * i = 2 * (a.length - 1 - i) + 1 by omega, hhigh]
    exact digitChar_eq_hexAlphabet (by omega)
  · rw [getD_numeral (by omega), show 2 * a.length - 1 - (2 * i + 1) = 2 * (a.length - 1 - i) by omega, hpow, hlow]
    exact digitChar_eq_hexAlphabet (by omega)

theorem binaryNumeral_numeral (a : Buffer) : BinaryNumeral a (numeral 2 (8 * a.length) (val a)) := by
  refine ⟨length_numeral _ _, fun k hk => ?_⟩
  rw [getD_numeral hk, Nat.testBit_eq_decide_div_mod_eq]
  obtain hbit | hbit := Nat.mod_two_eq_zero_or_one (val a / 2 ^ (8 * a.length - 1 - k)) <;> rw [hbit] <;> rfl

theorem decimalNumeral_numeral (v : Nat) : DecimalNumeral v (numeral 10 (Nat.log 10 v + 1) v) := by
  refine ⟨by simp [numeral_log], fun c hc => ?_, fun hhead => ?_, ?_⟩
  · obtain ⟨d, hd, rfl⟩ := mem_numeral (by norm_num) hc
    rw [digitChar_toNat hd]
    omega
  · have hv : v = 0 := by_contra fun hv => head?_numeral_log hv hhead
    subst hv
    rfl
  · have hdigit : ∀ d, d < 10 → (digitChar d).toNat - 0x30 = d := fun d hd => by rw [digitChar_toNat hd]; omega
    simp only [Nat.mul_comm 10]
    rw [foldl_numeral hdigit (by norm_num), Nat.mod_eq_of_lt (Nat.lt_pow_succ_log_self (by norm_num) v)]

/-! ## The words with an immediate and one register -/

section format
variable {i : Instr} {op : BitVec 8} (r : Reg)

theorem spelled_formatI_ra {k : Half} (h : encode i = wordI op 0#4 (fieldOfReg r) k) :
    Spelled i (formatI op.toNat 0 (regNumber r) k.toNat) :=
  spelled_of_encode (by rw [h, wordI_eq_formatI, fieldOfReg_toNat]; rfl)

theorem spelled_formatI_rd {k : Half} (h : encode i = wordI op (fieldOfReg r) 0#4 k) :
    Spelled i (formatI op.toNat (regNumber r) 0 k.toNat) :=
  spelled_of_encode (by rw [h, wordI_eq_formatI, fieldOfReg_toNat]; rfl)

end format

/-! ## The two commands, one equation per check -/

theorem supportedBase_iff {n : Nat} : supportedBase n ↔ ∃ base : Base, n = base.toNat := by
  constructor
  · rintro (rfl | rfl | rfl)
    · exact ⟨.two, rfl⟩
    · exact ⟨.ten, rfl⟩
    · exact ⟨.sixteen, rfl⟩
  · rintro ⟨base, rfl⟩
    cases base <;> simp [supportedBase, Base.toNat]

theorem baseOperand_of_unsupported {imm : Half} (h : ¬ supportedBase imm.toNat) :
    baseOperand imm = .error .unsupportedBase := by
  unfold supportedBase at h
  exact baseOperand_of_bad (by omega) (by omega) (by omega)

section commands
variable {s : State} {r : Reg} {imm : Half} {base : Base}

theorem execToStr_of_unsupported (h : ¬ supportedBase imm.toNat) :
    exec (.toStr r imm) s = raise .unsupportedBase s := by
  rw [exec, execToStr, baseOperand_of_unsupported h]

theorem execToStr_of_empty (hb : imm.toNat = base.toNat) (hr : s.getReg r = []) :
    exec (.toStr r imm) s = raise .invalidOperand s := by
  rw [exec, execToStr, baseOperand_of_ok hb]
  simp only [sourceOperand_of_empty hr]

theorem execToStr_of_ne (hb : imm.toNat = base.toNat) (hr : s.getReg r ≠ []) :
    exec (.toStr r imm) s = succeed (s.setString (stringOf base (s.getReg r))) := by
  rw [exec, execToStr, baseOperand_of_ok hb]
  simp only [sourceOperand_of_ne hr]

theorem execFromStr_of_unsupported (h : ¬ supportedBase imm.toNat) :
    exec (.fromStr r imm) s = raise .unsupportedBase s := by
  rw [exec, execFromStr, baseOperand_of_unsupported h]

theorem declaredWidth_of_not_badWidth (hw : ¬ badWidth s) : declaredWidth s = .ok s.width.toNat := by
  unfold badWidth at hw
  exact declaredWidth_of_ok (by omega) (by omega)

theorem execFromStr_of_invalid (hb : imm.toNat = base.toNat) (h : badWidth s ∨ s.params.smax < s.slen.toNat) :
    exec (.fromStr r imm) s = raise .invalidOperand s := by
  rw [exec, execFromStr, baseOperand_of_ok hb]
  by_cases hw : badWidth s
  · simp only [declaredWidth_of_bad hw]
  · simp only [declaredWidth_of_not_badWidth hw, stringOperand_of_bad (h.resolve_left hw)]

theorem execFromStr_of_not_isNumeral (hb : imm.toNat = base.toNat) (hw : ¬ badWidth s)
    (hl : s.slen.toNat ≤ s.params.smax) (h : ¬ IsNumeral base.toNat (s.chars s.slen.toNat)) :
    exec (.fromStr r imm) s = raise .invalidFormat s := by
  rw [exec, execFromStr, baseOperand_of_ok hb]
  simp only [declaredWidth_of_not_badWidth hw, stringOperand_of_ok hl, parseString_of_not_isNumeral _ h]

theorem execFromStr_of_isNumeral (hb : imm.toNat = base.toNat) (hw : ¬ badWidth s)
    (hl : s.slen.toNat ≤ s.params.smax) (h : IsNumeral base.toNat (s.chars s.slen.toNat)) :
    exec (.fromStr r imm) s =
      succeed (s.setReg r (bufOf s.width.toNat (numeralValue base.toNat (s.chars s.slen.toNat)))) := by
  rw [exec, execFromStr, baseOperand_of_ok hb]
  simp only [declaredWidth_of_not_badWidth hw, stringOperand_of_ok hl, parseString_of_isNumeral _ h]

theorem onlyString_setString (s : State) (cs : List Byte) : OnlyString s ((s.setString cs).setErr 0#4) cs :=
  ⟨fun _ hk => setString_charAt_of_lt s hk,
    fun k hk => (setString_charAt s cs k).trans (dif_neg (Nat.not_lt.mpr hk)),
    rfl, fun _ => rfl, rfl, rfl, rfl, rfl, rfl, rfl⟩

/-- What FROMSTR would read after a TOSTR: its string (R201, R205). -/
theorem chars_setString (hs : s.Inv) (base : Base) (hr : s.getReg r ≠ []) :
    (s.setString (stringOf base (s.getReg r))).chars (s.setString (stringOf base (s.getReg r))).slen.toNat =
      stringOf base (s.getReg r) := by
  rw [inv_slen_setString_stringOf hs base hr, State.chars]
  refine List.ext_getElem (by simp) fun k hk hk' => ?_
  rw [List.getElem_map, List.getElem_range, setString_charAt_of_lt s hk']

/-- The commands after a TOSTR run on a state whose string is the numeral of the buffer's value. -/
theorem execAll_cons_of_toStr (hs : s.Inv) (hb : imm.toNat = base.toNat) (hr : s.getReg r ≠ []) :
    ∃ u : State, (∀ is, execAll (.toStr r imm :: is) s = execAll is u) ∧ u.status.err = 0#4 ∧ u.width = s.width ∧
      u.params = s.params ∧ u.slen.toNat ≤ s.params.smax ∧
      u.chars u.slen.toNat =
        numeral base.toNat (stringLength base (s.getReg r).length (val (s.getReg r))) (val (s.getReg r)) :=
  ⟨_, fun _ => execAll_cons_of_succeed (execToStr_of_ne hb hr), rfl, rfl, rfl,
    (inv_slen_setString_stringOf hs base hr).trans_le (inv_length_stringOf_le hs base hr),
    (chars_setString hs base hr).trans (stringOf_eq base _)⟩

/-- FROMSTR then TOSTR on one register and in one base leave the numeral of the string's value. -/
theorem fromStr_then_toStr (hs : s.Inv) (hb : imm.toNat = base.toNat) (hw : ¬ badWidth s)
    (hl : s.slen.toNat ≤ s.params.smax) (h : IsNumeral base.toNat (s.chars s.slen.toNat))
    (hv : numeralValue base.toNat (s.chars s.slen.toNat) < 2 ^ (8 * s.width.toNat)) :
    ∃ t, execAll [.fromStr r imm, .toStr r imm] s = .next t ∧ t.status.err = 0#4 ∧
      t.chars t.slen.toNat =
        numeral base.toNat (stringLength base s.width.toNat (numeralValue base.toNat (s.chars s.slen.toNat)))
          (numeralValue base.toNat (s.chars s.slen.toNat)) := by
  have hfrom := execFromStr_of_isNumeral (r := r) hb hw hl h
  generalize numeralValue base.toNat (s.chars s.slen.toNat) = v at hfrom hv ⊢
  obtain ⟨u, hu, hur⟩ : ∃ u, u = (s.setReg r (bufOf s.width.toNat v)).setErr 0#4 ∧
      u.getReg r = bufOf s.width.toNat v := ⟨_, rfl, setReg_getReg_same s r _⟩
  have hval : val (u.getReg r) = v := by rw [hur, val_bufOf, ← two_pow_eight_mul, Nat.mod_eq_of_lt hv]
  have hlen : (u.getReg r).length = s.width.toNat := by rw [hur, length_bufOf]
  have hne : u.getReg r ≠ [] := List.length_pos_iff.mp (by unfold badWidth at hw; omega)
  obtain ⟨t, hto, herr, -, -, -, hchars⟩ :=
    execAll_cons_of_toStr (s := u) (hu ▸ (exec_ends hfrom).inv hs) hb hne
  rw [hlen, hval] at hchars
  refine ⟨t, ?_, herr, hchars⟩
  rw [execAll_cons_of_succeed hfrom, ← hu, hto]
  rfl

/-- The same in the string's own characters: in upper case, padded with '0' or cut on the left to TOSTR's length
(R210 (c), (d)). -/
theorem fromStr_then_toStr_fits (hs : s.Inv) (hb : imm.toNat = base.toNat) (hw : ¬ badWidth s)
    (hl : s.slen.toNat ≤ s.params.smax) (h : IsNumeral base.toNat (s.chars s.slen.toNat))
    (hv : numeralValue base.toNat (s.chars s.slen.toNat) < 2 ^ (8 * s.width.toNat)) :
    ∃ t, execAll [.fromStr r imm, .toStr r imm] s = .next t ∧ t.status.err = 0#4 ∧
      t.chars t.slen.toNat =
        (List.replicate (stringLength base s.width.toNat (numeralValue base.toNat (s.chars s.slen.toNat))) 0x30#8 ++
          (s.chars s.slen.toNat).map upperCase).drop (s.chars s.slen.toNat).length := by
  obtain ⟨t, hrun, herr, hchars⟩ := fromStr_then_toStr (r := r) hs hb hw hl h hv
  obtain ⟨-, hdigits⟩ := isNumeral_iff.mp h
  exact ⟨t, hrun, herr, hchars.trans (drop_replicate_append_eq_numeral hdigits _).symm⟩

end commands

/-! ## The rules -/

/-- Settles O34: each check in its order, and the string as the numeral that R202, R203 or R204 asks for. -/
theorem toStrFollowsItsRule : Obligations.ToStrFollowsItsRule := by
  intro s ra imm
  refine ⟨spelled_formatI_ra (op := 0x40#8) ra rfl, fun hb => fails_of_raise (execToStr_of_unsupported hb),
    fun hb ha => ?_, fun hb ha => ?_⟩
  · obtain ⟨base, hbase⟩ := supportedBase_iff.mp hb
    exact fails_of_raise (execToStr_of_empty hbase ha)
  · obtain ⟨base, hbase⟩ := supportedBase_iff.mp hb
    refine ⟨_, _, execToStr_of_ne hbase ha, onlyString_setString s _, ?_⟩
    rw [hbase, stringOf_eq]
    cases base with
    | two => exact ⟨nofun, fun _ => binaryNumeral_numeral _, nofun⟩
    | ten => exact ⟨nofun, nofun, fun _ => decimalNumeral_numeral _⟩
    | sixteen => exact ⟨fun _ => hexNumeral_numeral _, nofun, nofun⟩

/-- Settles O35: each check in its order, and the buffer of the string's value. -/
theorem fromStrFollowsItsRule : Obligations.FromStrFollowsItsRule := by
  intro s rd imm
  refine ⟨spelled_formatI_rd (op := 0x41#8) rd rfl, fun hb => fails_of_raise (execFromStr_of_unsupported hb),
    fun hb h => ?_, fun hb hw hl h => ?_, fun hb hw hl h => ?_⟩
  all_goals obtain ⟨base, hbase⟩ := supportedBase_iff.mp hb
  · exact fails_of_raise (execFromStr_of_invalid hbase h)
  · rw [hbase] at h
    exact fails_of_raise (execFromStr_of_not_isNumeral hbase hw hl h)
  · rw [hbase] at h ⊢
    refine writes_of_succeed (execFromStr_of_isNumeral hbase hw hl h) ⟨length_bufOf _ _, ?_⟩
    rw [two_pow_eight_mul]
    exact val_bufOf _ _

/-! ## The lengths -/

/-- R205's bound by a logarithm, read as a number of digits. -/
theorem le_of_pow_pred_lt {l m v : Nat} (h : 10 ^ (l - 1) < v) (hv : v ≤ 10 ^ m) : l ≤ m := by
  have hlt : l - 1 < m := (Nat.pow_lt_pow_iff_right (by norm_num)).mp (h.trans_le hv)
  omega

theorem pow_log_lt {n v : Nat} (hn : n ≠ 0) (hv : v < 2 ^ (8 * n)) : 10 ^ Nat.log 10 v < 2 ^ (8 * n) := by
  by_cases h0 : v = 0
  · subst h0
    exact Nat.one_lt_two_pow (by omega)
  · exact (Nat.pow_log_le_self 10 h0).trans_lt hv

/-- Settles O53: SLEN is the length of the string, which the base and the value decide. -/
theorem stringsOfBuffersFit : Obligations.StringsOfBuffersFit := by
  intro s t a imm hs ha hb hexec
  obtain ⟨base, hbase⟩ := supportedBase_iff.mp hb
  cases (execToStr_of_ne hbase ha).symm.trans hexec
  have hslen : ((s.setString (stringOf base (s.getReg a))).setErr 0#4).slen.toNat =
      (stringOf base (s.getReg a)).length := inv_slen_setString_stringOf hs base ha
  rw [hslen, hbase]
  refine ⟨inv_length_stringOf_le hs base ha, length_stringOf_le base _ ha, ?_⟩
  cases base with
  | two => exact ⟨nofun, fun _ => length_binString _, nofun⟩
  | sixteen => exact ⟨fun _ => length_hexString _, nofun, nofun⟩
  | ten =>
    refine ⟨nofun, nofun, fun _ => ?_⟩
    obtain ⟨hpos, hle⟩ := length_decString _ ha
    have hpow : 10 ^ ((stringOf .ten (s.getReg a)).length - 1) < 2 ^ (8 * (s.getReg a).length) := by
      rw [length_stringOf]
      exact pow_log_lt (List.length_eq_zero_iff.not.mpr ha) (val_lt_two_pow _)
    have hbound : ∀ m, 256 ^ (s.getReg a).length ≤ 10 ^ m → (stringOf .ten (s.getReg a)).length ≤ m := fun m hm =>
      le_of_pow_pred_lt hpow ((two_pow_eight_mul _).trans_le hm)
    exact ⟨hpos, hpow, hle, fun hn => hbound 39 (by rw [hn]; norm_num), fun hn => hbound 78 (by rw [hn]; norm_num),
      fun hn => hbound 155 (by rw [hn]; norm_num)⟩

/-! ## The laws -/

/-- Settles O50: FROMSTR reads the numeral of the buffer's value that TOSTR wrote. -/
theorem bufferToStringAndBack : Obligations.BufferToStringAndBack := by
  intro s a r imm hs ha hwidth hb
  obtain ⟨base, hbase⟩ := supportedBase_iff.mp hb
  have hn : (s.getReg a).length ≠ 0 := List.length_eq_zero_iff.not.mpr ha
  obtain ⟨u, hrun, -, hwu, hpu, hl, hchars⟩ := execAll_cons_of_toStr hs hbase ha
  have hw : ¬ badWidth u := by
    have hle := inv_length_le hs a
    unfold badWidth
    rw [hwu, hpu]
    omega
  have hnumeral : IsNumeral base.toNat (u.chars u.slen.toNat) := by
    rw [hchars]
    exact isNumeral_numeral (stringLength_pos hn) _
  have hback : bufOf u.width.toNat (numeralValue base.toNat (u.chars u.slen.toNat)) = s.getReg a := by
    rw [hchars, numeralValue_numeral, Nat.mod_eq_of_lt (lt_pow_stringLength (val_lt_two_pow _)), hwu, hwidth, bufOf_val]
  have hfrom := execFromStr_of_isNumeral (r := r) hbase hw (hpu ▸ hl) hnumeral
  rw [hback] at hfrom
  unfold Yields
  rw [hrun]
  exact yields_singleton hfrom

/-- Settles O51: TOSTR shows the shortest numeral of the string's value. -/
theorem decimalStringToBufferAndBack : Obligations.DecimalStringToBufferAndBack := by
  intro s r hs hw hl cs hcs hv
  obtain ⟨t, hrun, herr, hchars⟩ := fromStr_then_toStr (r := r) (imm := 10#16) (base := .ten) hs rfl hw hl hcs hv
  obtain ⟨-, hdigits⟩ := (isNumeral_iff (base := .ten)).mp hcs
  exact ⟨t, hrun, herr, hchars.trans (strip_decimal hdigits).symm⟩

/-- Settles O52: TOSTR shows the string's value in the width's number of digits. -/
theorem hexAndBinaryStringsToBufferAndBack : Obligations.HexAndBinaryStringsToBufferAndBack :=
  fun _ _ hs hw hl => ⟨fromStr_then_toStr_fits (imm := 16#16) (base := .sixteen) hs rfl hw hl,
    fromStr_then_toStr_fits (imm := 2#16) (base := .two) hs rfl hw hl⟩

end Sys2Proof.Proofs
end

section
/-!
PROOFS. Error reporting (spec/60_exceptions.md R230 to R239). A CMD write of any word runs it to a next state and
completes; the error of a command is the first cause that applies in the order of R238 (`FirstError`), read off the rule
that each command follows. What an error leaves unchanged and which command can leave which code follow from it.
-/

namespace Sys2Proof.Proofs
open Sys2Proof.Machine Sys2Proof.Laws

/-! ## A CMD write of any word -/

section cmd
variable {s t : State} {rest : List Input} {w : Word}

theorem runCommand_of_illegal (h : legalByFields w = false) : runCommand w s = raise .illegalCommand s := by
  unfold runCommand
  cases hd : decode w with
  | ok i =>
    have hlegal := (exists_decode_iff_legalByFields w).mp ⟨i, hd⟩
    cases hlegal.symm.trans h
  | error e => rfl

/-- A write of CMD runs its word, legal or not, and then completes (spec/20_memory.md R61, R232). -/
theorem step_write_cmd_of_runCommand (hp : s.pending = .write s.params.base 4 w.toNat :: rest)
    (ht : runCommand w { s with pending := rest } = .next t) : step s = .next (t.answer .done) := by
  have hcmd : hostWrite { s with pending := rest } s.params.base 4 w.toNat = .ok (.command w) := by
    have h := hostWrite_control (c := .cmd) (off := 0) { s with pending := rest } w.toNat (by decide) rfl
    simpa [writePlace] using h
  rw [step_of_pending hp, serve, serveWrite, hcmd]
  simp only [ht, completeWrite]

end cmd

/-- A word that leaves an error has changed ERR alone (R232). -/
theorem runCommand_eq_setErr_of_err {w : Word} {s t : State} (h : runCommand w s = .next t)
    (he : t.status.err ≠ 0#4) : t = s.setErr t.status.err := by
  obtain ⟨i, -, hi⟩ | ⟨-, rfl⟩ := runCommand_cases h
  · obtain ⟨e, rfl⟩ := (exec_ends hi).eq_setErr_of_err he
    rfl
  · rfl

/-! ## The first error that applies -/

/-- The code R238 asks of the command `i` on `s`: that of the first cause that applies in the fixed order, or 0. -/
inductive FirstError (i : Instr) (s : State) : BitVec 4 → Prop
  | unsupportedBase (hb : causesUnsupportedBase i) : FirstError i s 2#4
  | invalidOperand (hb : ¬ causesUnsupportedBase i) (ho : causesInvalidOperand i s) : FirstError i s 6#4
  | lengthMismatch (hb : ¬ causesUnsupportedBase i) (ho : ¬ causesInvalidOperand i s)
      (hl : causesLengthMismatch i s) : FirstError i s 4#4
  | divisionByZero (hb : ¬ causesUnsupportedBase i) (ho : ¬ causesInvalidOperand i s)
      (hl : ¬ causesLengthMismatch i s) (hz : causesDivisionByZero i s) : FirstError i s 3#4
  | invalidFormat (hb : ¬ causesUnsupportedBase i) (ho : ¬ causesInvalidOperand i s)
      (hl : ¬ causesLengthMismatch i s) (hz : ¬ causesDivisionByZero i s) (hf : causesInvalidFormat i s) :
      FirstError i s 1#4
  | noError (hb : ¬ causesUnsupportedBase i) (ho : ¬ causesInvalidOperand i s)
      (hl : ¬ causesLengthMismatch i s) (hz : ¬ causesDivisionByZero i s) (hf : ¬ causesInvalidFormat i s) :
      FirstError i s 0#4

/-- The command `i` ends in a next state whose ERR is the code R238 asks for. -/
def ReportsFirstError (i : Instr) (s : State) : Prop := ∃ t, exec i s = .next t ∧ FirstError i s t.status.err

/-- The command `i` ends in a next state without an error. -/
def Succeeds (i : Instr) (s : State) : Prop := ∃ t, exec i s = .next t ∧ t.status.err = 0#4

section reports
variable {i : Instr} {s : State}

theorem succeeds_of_writes {rd : Reg} {P : Buffer → Prop} (h : Writes i s rd P) : Succeeds i s := by
  obtain ⟨t, r, ht, ⟨-, -, -, -, -, hst, -⟩, -⟩ := h
  exact ⟨t, ht, by rw [hst]⟩

theorem FirstError.reports_of_fails {code : BitVec 4} (h : FirstError i s code) (hi : Fails i s code) :
    ReportsFirstError i s := by
  obtain ⟨t, ht, rfl⟩ := hi
  exact ⟨_, ht, h⟩

theorem FirstError.reports_of_succeeds (h : FirstError i s 0#4) (hi : Succeeds i s) : ReportsFirstError i s := by
  obtain ⟨t, ht, hst⟩ := hi
  exact ⟨t, ht, hst ▸ h⟩

end reports

/-! ## The causes, by the number of sources -/

theorem not_causesUnsupportedBase {i : Instr} (hb : baseOf i = none) : ¬ causesUnsupportedBase i := by
  simp [causesUnsupportedBase, hb]

theorem causesUnsupportedBase_iff {i : Instr} {b : Nat} (hb : baseOf i = some b) :
    causesUnsupportedBase i ↔ ¬ supportedBase b := by
  simp [causesUnsupportedBase, hb]

theorem not_causesInvalidFormat {i : Instr} {s : State} (hf : isFromStr i = false) : ¬ causesInvalidFormat i s := by
  simp [causesInvalidFormat, hf]

/-- A command with at most one source has no lengths to compare and no divisor. -/
theorem FirstError.of_length_sources_le_one {i : Instr} {s : State} (hs : (sourcesOf i).length ≤ 1)
    (hb : ¬ causesUnsupportedBase i) (ho : ¬ causesInvalidOperand i s) (hf : ¬ causesInvalidFormat i s) :
    FirstError i s 0#4 := by
  have hpair : ∀ p q, sourcesOf i ≠ [p, q] := fun p q h => by simp [h] at hs
  exact .noError hb ho (fun ⟨p, q, h, _⟩ => hpair p q h) (fun ⟨_, p, q, h, _⟩ => hpair p q h) hf

/-- A command with at most one source, other than FROMSTR, reports its first error if, past the base check, it fails
exactly on an invalid operand. -/
theorem reports_of_operand_check {i : Instr} {s : State} {bad : Prop} (hs : (sourcesOf i).length ≤ 1)
    (hf : isFromStr i = false) (hb : ¬ causesUnsupportedBase i) (ho : causesInvalidOperand i s ↔ bad)
    (hbad : bad → Fails i s 6#4) (hok : ¬ bad → Succeeds i s) : ReportsFirstError i s := by
  by_cases h : bad
  · exact (FirstError.invalidOperand hb (ho.mpr h)).reports_of_fails (hbad h)
  · exact (FirstError.of_length_sources_le_one hs hb (ho.not.mpr h)
      (not_causesInvalidFormat hf)).reports_of_succeeds (hok h)

section pair
variable {i : Instr} {s : State} {p q : Reg} (hs : sourcesOf i = [p, q])
include hs

/-- No command on two sources has a base, and none is a creator. -/
theorem operands_of_pair : baseOf i = none ∧ isCreator i = false ∧ isFromStr i = false := by
  cases i with
  | set | and | or | xor | add | sub | mul | div | mod | cmp => exact ⟨rfl, rfl, rfl⟩
  | _ => cases hs

theorem causesInvalidOperand_pair_iff :
    causesInvalidOperand i s ↔ s.getReg p = [] ∨ s.getReg q = [] := by
  obtain ⟨-, hc, hf⟩ := operands_of_pair hs
  simp [causesInvalidOperand, hs, hc, hf]

theorem causesLengthMismatch_pair_iff :
    causesLengthMismatch i s ↔ (s.getReg p).length ≠ (s.getReg q).length := by
  simp [causesLengthMismatch, hs]

theorem causesDivisionByZero_pair_iff :
    causesDivisionByZero i s ↔ isDivision i = true ∧ ∀ b ∈ s.getReg q, b = 0#8 := by
  simp [causesDivisionByZero, hs]

theorem not_causesUnsupportedBase_pair : ¬ causesUnsupportedBase i := by
  obtain ⟨hb, -, -⟩ := operands_of_pair hs
  exact not_causesUnsupportedBase hb

theorem not_causesInvalidOperand_pair (hp : s.getReg p ≠ []) (hq : s.getReg q ≠ []) :
    ¬ causesInvalidOperand i s := by
  rw [causesInvalidOperand_pair_iff hs]
  simp [hp, hq]

theorem FirstError.of_pair_zero (hp : s.getReg p ≠ []) (hl : (s.getReg p).length = (s.getReg q).length)
    (hd : isDivision i = true) (hz : ∀ b ∈ s.getReg q, b = 0#8) : FirstError i s 3#4 :=
  .divisionByZero (not_causesUnsupportedBase_pair hs)
    (not_causesInvalidOperand_pair hs hp (ne_nil_of_length_eq hl.symm hp))
    ((causesLengthMismatch_pair_iff hs).not_left.mpr hl) ((causesDivisionByZero_pair_iff hs).mpr ⟨hd, hz⟩)

theorem FirstError.of_pair_ok (hp : s.getReg p ≠ []) (hl : (s.getReg p).length = (s.getReg q).length)
    (hz : isDivision i = true → ¬ ∀ b ∈ s.getReg q, b = 0#8) : FirstError i s 0#4 := by
  obtain ⟨-, -, hf⟩ := operands_of_pair hs
  exact .noError (not_causesUnsupportedBase_pair hs)
    (not_causesInvalidOperand_pair hs hp (ne_nil_of_length_eq hl.symm hp))
    ((causesLengthMismatch_pair_iff hs).not_left.mpr hl)
    ((causesDivisionByZero_pair_iff hs).not.mpr fun ⟨hd, h⟩ => hz hd h) (not_causesInvalidFormat hf)

/-- A command on two sources makes the pair check first: emptiness, then the lengths (R236 (a), R237). -/
theorem reports_of_pair_check (hempty : s.getReg p = [] ∨ s.getReg q = [] → Fails i s 6#4)
    (hmismatch : s.getReg p ≠ [] → s.getReg q ≠ [] → (s.getReg p).length ≠ (s.getReg q).length → Fails i s 4#4)
    (hok : s.getReg p ≠ [] → (s.getReg p).length = (s.getReg q).length → ReportsFirstError i s) :
    ReportsFirstError i s := by
  have hb := not_causesUnsupportedBase_pair hs
  by_cases he : s.getReg p = [] ∨ s.getReg q = []
  · exact (FirstError.invalidOperand hb ((causesInvalidOperand_pair_iff hs).mpr he)).reports_of_fails (hempty he)
  · obtain ⟨hp, hq⟩ := not_or.mp he
    by_cases hl : (s.getReg p).length = (s.getReg q).length
    · exact hok hp hl
    · exact (FirstError.lengthMismatch hb (not_causesInvalidOperand_pair hs hp hq)
        ((causesLengthMismatch_pair_iff hs).mpr hl)).reports_of_fails (hmismatch hp hq hl)

/-- A command on two sources other than a division makes no check beyond. -/
theorem reports_of_pair_check_alone (hd : isDivision i = false)
    (hempty : s.getReg p = [] ∨ s.getReg q = [] → Fails i s 6#4)
    (hmismatch : s.getReg p ≠ [] → s.getReg q ≠ [] → (s.getReg p).length ≠ (s.getReg q).length → Fails i s 4#4)
    (hok : s.getReg p ≠ [] → (s.getReg p).length = (s.getReg q).length → Succeeds i s) : ReportsFirstError i s :=
  reports_of_pair_check hs hempty hmismatch fun hp hl =>
    (FirstError.of_pair_ok hs hp hl (by simp [hd])).reports_of_succeeds (hok hp hl)

end pair

/-! ## Every command reports its first error, by its rule -/

theorem reports_of_creatorRule {c : Reg → Instr} {op : Nat} {P : Nat → Buffer → Prop} (hrule : CreatorRule c op P)
    {s : State} {rd : Reg} (hs : sourcesOf (c rd) = []) (hb : baseOf (c rd) = none)
    (hc : isCreator (c rd) = true) (hf : isFromStr (c rd) = false) : ReportsFirstError (c rd) s := by
  obtain ⟨-, hbad, hok⟩ := hrule s rd
  exact reports_of_operand_check (by simp [hs]) hf (not_causesUnsupportedBase hb)
    (by simp [causesInvalidOperand, hs, hc, hf]) hbad fun hw => succeeds_of_writes (hok hw)

theorem reports_of_unaryRule {i : Instr} {w : Word} {rd ra : Reg} {P : Buffer → Buffer → Prop}
    (hrule : UnaryRule i w rd ra P) {s : State} (hs : sourcesOf i = [ra]) (hb : baseOf i = none)
    (hc : isCreator i = false) (hf : isFromStr i = false) : ReportsFirstError i s := by
  obtain ⟨-, hempty, hok⟩ := hrule s
  exact reports_of_operand_check (by simp [hs]) hf (not_causesUnsupportedBase hb)
    (by simp [causesInvalidOperand, hs, hc, hf]) hempty fun ha => succeeds_of_writes (hok ha)

theorem reports_of_binaryRule {c : Reg → Reg → Reg → Instr} {op : Nat} {P : Buffer → Buffer → Buffer → Prop}
    (hrule : BinaryRule c op P) {s : State} {rd ra rb : Reg} (hs : sourcesOf (c rd ra rb) = [ra, rb])
    (hd : isDivision (c rd ra rb) = false) : ReportsFirstError (c rd ra rb) s := by
  obtain ⟨-, hempty, hmismatch, hok⟩ := hrule s rd ra rb
  exact reports_of_pair_check_alone hs hd hempty hmismatch fun ha hl => succeeds_of_writes (hok ha hl)

theorem reports_of_divisionRule {c : Reg → Reg → Reg → Instr} {op : Nat} {P : Buffer → Buffer → Buffer → Prop}
    (hrule : DivisionRule c op P) {s : State} {rd ra rb : Reg} (hs : sourcesOf (c rd ra rb) = [ra, rb])
    (hd : isDivision (c rd ra rb) = true) : ReportsFirstError (c rd ra rb) s := by
  obtain ⟨-, hempty, hmismatch, hzero, hok⟩ := hrule s rd ra rb
  refine reports_of_pair_check hs hempty hmismatch fun ha hl => ?_
  by_cases hz : ∀ b ∈ s.getReg rb, b = 0#8
  · exact (FirstError.of_pair_zero hs ha hl hd hz).reports_of_fails (hzero ha hl hz)
  · exact (FirstError.of_pair_ok hs ha hl fun _ => hz).reports_of_succeeds (succeeds_of_writes (hok ha hl hz))

section commands
variable {s : State} {rd ra rb : Reg} {imm : Half}

theorem resize_reports : ReportsFirstError (.resize rd ra) s := by
  obtain ⟨-, hbad, hok⟩ := resizeFollowsItsRule s rd ra
  refine reports_of_operand_check le_rfl rfl (not_causesUnsupportedBase rfl)
    (by simp [causesInvalidOperand, sourcesOf, isCreator, isFromStr]) hbad fun h => ?_
  obtain ⟨ha, hw⟩ := not_or.mp h
  exact succeeds_of_writes (hok ha hw)

theorem set_reports : ReportsFirstError (.set rd ra) s := by
  obtain ⟨-, hempty, hmismatch, hok⟩ := setFollowsItsRule s rd ra
  exact reports_of_pair_check_alone rfl rfl hempty hmismatch fun hd hl => succeeds_of_writes (hok hd hl)

theorem cmp_reports : ReportsFirstError (.cmp ra rb) s :=
  reports_of_pair_check_alone rfl rfl (fun he => fails_of_raise (execCmp_of_empty he))
    (fun ha hb hl => fails_of_raise (execCmp_of_mismatch ha hb hl))
    fun ha hl => ⟨_, execCmp_of_ok rfl rfl ha hl, rfl⟩

theorem isZero_reports : ReportsFirstError (.isZero ra) s :=
  reports_of_operand_check le_rfl rfl (not_causesUnsupportedBase rfl)
    (by simp [causesInvalidOperand, sourcesOf, isCreator, isFromStr])
    (fun ha => fails_of_raise (execIsZero_of_empty ha)) fun ha => ⟨_, execIsZero_of_ne ha, rfl⟩

theorem toStr_reports : ReportsFirstError (.toStr ra imm) s := by
  have hu := causesUnsupportedBase_iff (i := .toStr ra imm) rfl
  by_cases hb : supportedBase imm.toNat
  · obtain ⟨base, hbase⟩ := supportedBase_iff.mp hb
    exact reports_of_operand_check le_rfl rfl (hu.not_left.mpr hb)
      (by simp [causesInvalidOperand, sourcesOf, isCreator, isFromStr])
      (fun ha => fails_of_raise (execToStr_of_empty hbase ha)) fun ha => ⟨_, execToStr_of_ne hbase ha, rfl⟩
  · exact (FirstError.unsupportedBase (hu.mpr hb)).reports_of_fails (fails_of_raise (execToStr_of_unsupported hb))

/-- FROMSTR alone can meet a malformed string, after every other check (R238 item 6). -/
theorem fromStr_reports : ReportsFirstError (.fromStr rd imm) s := by
  obtain ⟨-, hunsupported, hinvalid, hformat, hok⟩ := fromStrFollowsItsRule s rd imm
  have hu := causesUnsupportedBase_iff (i := .fromStr rd imm) rfl
  have ho : causesInvalidOperand (.fromStr rd imm) s ↔ badWidth s ∨ s.params.smax < s.slen.toNat := by
    simp [causesInvalidOperand, sourcesOf, isCreator, isFromStr]
  have hf : causesInvalidFormat (.fromStr rd imm) s ↔
      ¬ IsNumeral imm.toNat ((List.range s.slen.toNat).map s.charAt) := by
    simp [causesInvalidFormat, baseOf, isFromStr]
  by_cases hb : supportedBase imm.toNat
  · have hu' := hu.not_left.mpr hb
    by_cases h : badWidth s ∨ s.params.smax < s.slen.toNat
    · exact (FirstError.invalidOperand hu' (ho.mpr h)).reports_of_fails (hinvalid hb h)
    · obtain ⟨hw, hl⟩ := not_or.mp h
      have ho' := ho.not.mpr h
      by_cases hn : IsNumeral imm.toNat ((List.range s.slen.toNat).map s.charAt)
      · exact (FirstError.of_length_sources_le_one (by simp [sourcesOf]) hu' ho'
          (hf.not_left.mpr hn)).reports_of_succeeds (succeeds_of_writes (hok hb hw (Nat.not_lt.mp hl) hn))
      · exact (FirstError.invalidFormat hu' ho' nofun nofun (hf.mpr hn)).reports_of_fails
          (hformat hb hw (Nat.not_lt.mp hl) hn)
  · exact (FirstError.unsupportedBase (hu.mpr hb)).reports_of_fails (hunsupported hb)

end commands

/-- R238, for every command. -/
theorem exec_reports (i : Instr) (s : State) : ReportsFirstError i s := by
  cases i with
  | zero rd => exact reports_of_creatorRule zeroFollowsItsRule rfl rfl rfl rfl
  | max rd => exact reports_of_creatorRule maxFollowsItsRule rfl rfl rfl rfl
  | resize rd ra => exact resize_reports
  | set rd ra => exact set_reports
  | not rd ra => exact reports_of_unaryRule (notFollowsItsRule rd ra) rfl rfl rfl rfl
  | and rd ra rb => exact reports_of_binaryRule andFollowsItsRule rfl rfl
  | or rd ra rb => exact reports_of_binaryRule orFollowsItsRule rfl rfl
  | xor rd ra rb => exact reports_of_binaryRule xorFollowsItsRule rfl rfl
  | lsh0 rd ra k => exact reports_of_unaryRule (lsh0FollowsItsRule rd ra k) rfl rfl rfl rfl
  | lsh1 rd ra k => exact reports_of_unaryRule (lsh1FollowsItsRule rd ra k) rfl rfl rfl rfl
  | rsh0 rd ra k => exact reports_of_unaryRule (rsh0FollowsItsRule rd ra k) rfl rfl rfl rfl
  | rsh1 rd ra k => exact reports_of_unaryRule (rsh1FollowsItsRule rd ra k) rfl rfl rfl rfl
  | add rd ra rb => exact reports_of_binaryRule addFollowsItsRule rfl rfl
  | sub rd ra rb => exact reports_of_binaryRule subFollowsItsRule rfl rfl
  | mul rd ra rb => exact reports_of_binaryRule mulFollowsItsRule rfl rfl
  | div rd ra rb => exact reports_of_divisionRule divFollowsItsRule rfl rfl
  | mod rd ra rb => exact reports_of_divisionRule modFollowsItsRule rfl rfl
  | cmp ra rb => exact cmp_reports
  | isZero ra => exact isZero_reports
  | toStr ra imm => exact toStr_reports
  | fromStr rd imm => exact fromStr_reports

theorem exec_firstError {i : Instr} {s t : State} (h : exec i s = .next t) : FirstError i s t.status.err := by
  obtain ⟨u, hu, hfirst⟩ := exec_reports i s
  cases h.symm.trans hu
  exact hfirst

/-! ## What a code says of its command -/

/-- The clauses of R238, one for each place in the order. -/
theorem FirstError.clauses {i : Instr} {s : State} {code : BitVec 4} (h : FirstError i s code) :
    (causesUnsupportedBase i → code = 2#4) ∧
    (¬ causesUnsupportedBase i → causesInvalidOperand i s → code = 6#4) ∧
    (¬ causesUnsupportedBase i → ¬ causesInvalidOperand i s → causesLengthMismatch i s → code = 4#4) ∧
    (¬ causesUnsupportedBase i → ¬ causesInvalidOperand i s → ¬ causesLengthMismatch i s →
      causesDivisionByZero i s → code = 3#4) ∧
    (¬ causesUnsupportedBase i → ¬ causesInvalidOperand i s → ¬ causesLengthMismatch i s →
      ¬ causesDivisionByZero i s → causesInvalidFormat i s → code = 1#4) ∧
    (¬ causesUnsupportedBase i → ¬ causesInvalidOperand i s → ¬ causesLengthMismatch i s →
      ¬ causesDivisionByZero i s → ¬ causesInvalidFormat i s → code = 0#4) := by
  cases h <;> simp [*]

theorem isConversion_of_baseOf {i : Instr} {b : Nat} (h : baseOf i = some b) :
    isFromStr i = true ∨ isToStr i = true := by
  cases i with
  | toStr => exact .inr rfl
  | fromStr => exact .inl rfl
  | _ => cases h

/-! ## The statements -/

/-- Settles O4: a word that no row accepts decodes to nothing, and the write completes with the error. -/
theorem illegalWordsEndWithIllegalCommand : Obligations.IllegalWordsEndWithIllegalCommand :=
  fun _ _ _ hp hillegal => step_write_cmd_of_runCommand hp (runCommand_of_illegal hillegal)

/-- Settles O36: the write completes with the state the word's command leaves, which is the old one but for ERR if ERR
is not 0. -/
theorem errorsChangeNothingElse : Obligations.ErrorsChangeNothingElse := by
  intro s rest w hp
  obtain ⟨t, ht⟩ := runCommand_next w { s with pending := rest }
  refine ⟨_, step_write_cmd_of_runCommand hp ht, ?_, fun he => ?_⟩
  · rw [answer_answers, (runCommand_host ht).2]
  · rw [runCommand_eq_setErr_of_err ht he]
    rfl

/-- Settles O37, from the first error of each command, which does not depend on the inputs still pending. -/
theorem everyCommandReportsItsFirstError : Obligations.EveryCommandReportsItsFirstError := by
  intro s rest w hp
  obtain ⟨t, ht⟩ := runCommand_next w { s with pending := rest }
  refine ⟨_, step_write_cmd_of_runCommand hp ht, fun hillegal => ?_, fun i hi => ?_⟩
  · rw [runCommand_of_illegal hillegal] at ht
    cases ht
    rfl
  · rw [runCommand_of_decode hi] at ht
    exact (exec_firstError ht).clauses

/-- Settles O38: each cause of an error names the commands it can apply to. -/
theorem eachErrorHasItsCommands : Obligations.EachErrorHasItsCommands := by
  intro i s t h
  have hfirst := exec_firstError h
  generalize t.status.err = code at hfirst ⊢
  cases hfirst with
  | unsupportedBase hb =>
    obtain ⟨b, hb, -⟩ := hb
    simp [isConversion_of_baseOf hb]
  | invalidOperand => simp
  | lengthMismatch _ _ hl =>
    obtain ⟨p, q, hs, -⟩ := hl
    simp [hs]
  | divisionByZero _ _ _ hz => simp [hz.1]
  | invalidFormat _ _ _ _ hf => simp [hf.1]
  | noError => simp

end Sys2Proof.Proofs
end

section
/-!
PROOFS. After reset (spec/70_reset_and_hazards.md R264, R265, R261): every register is empty, so a command with a source
fails, and only a creator can load a first buffer; the WIDTH write, ZERO and the byte writes load any buffer; and a
character of S that no step has written keeps its value.
-/

namespace Sys2Proof.Proofs
open Sys2Proof.Machine Sys2Proof.Laws

/-! ## Commands on empty registers -/

section empty
variable {i : Instr} {s t : State}

/-- A command without a source is a creator of a buffer from WIDTH alone, or from WIDTH and S. -/
theorem creator_of_sourcesOf_nil (h : sourcesOf i = []) :
    ∃ r, i = .zero r ∨ i = .max r ∨ ∃ base, i = .fromStr r base := by
  cases i with
  | zero r => exact ⟨r, .inl rfl⟩
  | max r => exact ⟨r, .inr (.inl rfl)⟩
  | fromStr r base => exact ⟨r, .inr (.inr ⟨base, rfl⟩)⟩
  | _ => cases h

theorem isCreator_of_sourcesOf_nil (h : sourcesOf i = []) : isCreator i = true := by
  obtain ⟨r, rfl | rfl | ⟨base, rfl⟩⟩ := creator_of_sourcesOf_nil h <;> rfl

/-- An empty source is an invalid operand (R22, R236 (a)). -/
theorem causesInvalidOperand_of_empty (hx : ∀ r, s.getReg r = []) (hi : sourcesOf i ≠ []) :
    causesInvalidOperand i s := by
  obtain ⟨r, hr⟩ := List.exists_mem_of_ne_nil _ hi
  exact .inl ⟨r, hr, hx r⟩

/-- With every register empty and no width declared, every command lacks an operand. -/
theorem causesInvalidOperand_of_empty_of_badWidth (hx : ∀ r, s.getReg r = []) (hw : badWidth s) (i : Instr) :
    causesInvalidOperand i s := by
  by_cases hi : sourcesOf i = []
  · exact .inr (.inl ⟨isCreator_of_sourcesOf_nil hi, hw⟩)
  · exact causesInvalidOperand_of_empty hx hi

/-- An invalid operand is reported, unless the base is at fault (R238 items 2, 3), and nothing else changes. -/
theorem onlyErr_of_causesInvalidOperand (ht : exec i s = .next t) (ho : causesInvalidOperand i s) :
    (causesUnsupportedBase i ∧ OnlyErr s t 2#4) ∨ (¬ causesUnsupportedBase i ∧ OnlyErr s t 6#4) := by
  have honly : ∀ {code : BitVec 4}, t.status.err = code → code ≠ 0#4 → OnlyErr s t code := by
    rintro _ rfl he
    obtain ⟨e, rfl⟩ := (exec_ends ht).eq_setErr_of_err he
    rfl
  obtain ⟨hbase, hoperand, -⟩ := (exec_firstError ht).clauses
  by_cases hb : causesUnsupportedBase i
  · exact .inl ⟨hb, honly (hbase hb) (by decide)⟩
  · exact .inr ⟨hb, honly (hoperand hb ho) (by decide)⟩

/-- A command that succeeds on empty registers has no source. -/
theorem sourcesOf_eq_nil_of_succeeds (hx : ∀ r, s.getReg r = []) (ht : exec i s = .next t)
    (he : t.status.err = 0#4) : sourcesOf i = [] := by
  have hfirst := exec_firstError ht
  rw [he] at hfirst
  cases hfirst with
  | noError _ ho => exact by_contra fun hi => ho (causesInvalidOperand_of_empty hx hi)

/-- A command that writes a buffer of `n` bytes, as far as R264 looks at the state it leaves. -/
theorem length_of_writes {rd : Reg} {n : Nat} {P : Buffer → Prop} (h : Writes i s rd (fun b => b.length = n ∧ P b))
    (ht : exec i s = .next t) : t.status.err = 0#4 ∧ (t.getReg rd).length = n := by
  obtain ⟨u, b, hu, ⟨rfl, -, -, -, -, hst, -⟩, hl, -⟩ := h
  cases ht.symm.trans hu
  exact ⟨by rw [hst], hl⟩

end empty

theorem getReg_resetWith (p : Params) (r : Reg) : (State.resetWith p).getReg r = [] := get_empty r

/-- Settles O55: the registers are empty after a reset, which leaves the commands without a source; those follow their
rules. -/
theorem afterResetOnlyCreatorsCanSucceed : Obligations.AfterResetOnlyCreatorsCanSucceed := by
  intro p i _
  constructor
  · obtain ⟨t, ht⟩ := exec_next i (State.resetWith p)
    exact ⟨t, ht, onlyErr_of_causesInvalidOperand ht
      (causesInvalidOperand_of_empty_of_badWidth (getReg_resetWith p) (.inl rfl) i)⟩
  · intro n len chars hn hnmax s
    have hx : ∀ r, s.getReg r = [] := getReg_resetWith p
    have hw : ¬ badWidth s := not_badWidth_setWidth (s := State.resetWith p) hn hnmax
    obtain ⟨t, ht⟩ := exec_next i s
    refine ⟨t, ht, fun he => creator_of_sourcesOf_nil (sourcesOf_eq_nil_of_succeeds hx ht he), ?_, ?_, ?_⟩
    · rintro rd ra rfl
      cases ht.symm.trans (execResize_of_bad (.inl (hx ra)))
      rfl
    · rintro r (rfl | rfl)
      · obtain ⟨-, -, hwrites⟩ := zeroFollowsItsRule s r
        exact length_of_writes (hwrites hw) ht
      · obtain ⟨-, -, hwrites⟩ := maxFollowsItsRule s r
        exact length_of_writes (hwrites hw) ht
    · rintro r base rfl hb hlen hnumeral
      obtain ⟨-, -, -, -, hwrites⟩ := fromStrFollowsItsRule s r base
      exact length_of_writes (hwrites hb hw hlen hnumeral) ht

/-! ## Loading a register -/

/-- The host's writes of the bytes `bs` to register `r` from byte `k` on (R54); `map_range_eq_byteWrites` says that they
are the writes of R265. -/
def byteWrites (base : Nat) (r : Reg) : Nat → Buffer → List Input
  | _, [] => []
  | k, b :: bs => .write (base + (0x10000 + 0x2000 * regNumber r + k)) 1 b.toNat :: byteWrites base r (k + 1) bs

theorem map_range_eq_byteWrites (base : Nat) (r : Reg) (k : Nat) (bs : Buffer) :
    (List.range bs.length).map (fun j =>
      Input.write (base + (0x10000 + 0x2000 * regNumber r + (k + j))) 1 (bs.getD j 0#8).toNat) =
      byteWrites base r k bs := by
  induction bs generalizing k with
  | nil => rfl
  | cons b bs ih =>
    rw [List.length_cons, List.range_succ_eq_map, List.map_cons, List.map_map, byteWrites, ← ih]
    simp [Function.comp_def, Nat.add_assoc, Nat.add_comm 1]

/-- A run takes its steps one by one. -/
theorem run_succ {s t : State} (k : Nat) (h : step s = .next t) :
    Host.Core.run core (k + 1) s = Host.Core.run core k t := by
  have h' : core.step s = .next t := h
  simp only [Host.Core.run, h']

section load
variable {s : State} {rest : List Input} {r : Reg}

/-- A byte write replaces the byte after those already written (R54). -/
theorem step_write_next_byte {done old : Buffer} {a b : Byte} (hr : s.getReg r = done ++ a :: old)
    (hfit : done.length < 0x2000)
    (hp : s.pending = .write (s.params.base + (0x10000 + 0x2000 * regNumber r + done.length)) 1 b.toNat :: rest) :
    ∃ t, step s = .next t ∧ t.getReg r = done ++ [b] ++ old ∧ (∀ q, q ≠ r → t.getReg q = s.getReg q) ∧
      t.pending = rest ∧ t.status = s.status ∧ t.params = s.params := by
  have hi := regNumber_lt r
  have hbyte : byteAccessible s (0x10000 + 0x2000 * regNumber r + done.length) := by
    rw [byteAccessible_buffer_iff hi hfit, regNumbered_regNumber, hr]
    simp
  have hstep := step_write (by omega) hp (writeAccepted_base_iff.mpr (.inr ⟨rfl, hbyte⟩))
  rw [placeOf_buffer hi hfit, regNumbered_regNumber] at hstep
  refine ⟨_, hstep, ?_, fun q hq => setReg_getReg_other s _ _ hq, rfl, rfl, rfl⟩
  rw [storeAt_buffer_getReg, hr]
  simp [setBufferByte]

/-- The byte writes, run one after another, replace the bytes from byte `done.length` on. -/
theorem run_byteWrites {done old bs : Buffer} (hr : s.getReg r = done ++ old) (hl : old.length = bs.length)
    (hfit : done.length + bs.length ≤ 0x2000)
    (hp : s.pending = byteWrites s.params.base r done.length bs ++ rest) :
    ∃ t, Host.Core.run core bs.length s = .next t ∧ t.getReg r = done ++ bs ∧
      (∀ q, q ≠ r → t.getReg q = s.getReg q) ∧ t.pending = rest ∧ t.status = s.status := by
  induction bs generalizing s done old with
  | nil =>
    obtain rfl := List.length_eq_zero_iff.mp hl
    exact ⟨s, rfl, hr, fun _ _ => rfl, hp, rfl⟩
  | cons b bs ih =>
    obtain ⟨a, old, rfl⟩ := List.exists_cons_of_length_eq_add_one hl
    simp only [List.length_cons] at hl hfit
    obtain ⟨u, hstep, hru, hqu, hpu, hstu, hparams⟩ := step_write_next_byte hr (by omega) hp
    obtain ⟨t, hrun, hrt, hqt, hpt, hstt⟩ := ih hru (by omega) (by simp; omega) (by simpa [hparams] using hpu)
    exact ⟨t, (run_succ _ hstep).trans hrun, by simpa using hrt, fun q hq => (hqt q hq).trans (hqu q hq), hpt,
      hstt.trans hstu⟩

/-- A WIDTH write of a length that fits in its 16 bits (R27). -/
theorem step_declare_width {n : Nat} (hn : n < 65536) (hp : s.pending = .write (s.params.base + 0x8) 4 n :: rest) :
    ∃ t, step s = .next t ∧ t.width.toNat = n ∧ (∀ q, t.getReg q = s.getReg q) ∧ t.pending = rest ∧
      t.params = s.params :=
  ⟨_, step_write_width hp, Nat.mod_eq_of_lt hn, fun _ => rfl, rfl, rfl⟩

/-- A CMD write of ZERO with a legal WIDTH (R110). -/
theorem step_write_zero (hw : ¬ badWidth s)
    (hp : s.pending = .write s.params.base 4 (encode (.zero r)).toNat :: rest) :
    ∃ t, step s = .next t ∧ t.getReg r = zeroBuffer s.width.toNat ∧ (∀ q, q ≠ r → t.getReg q = s.getReg q) ∧
      t.pending = rest ∧ t.status.err = 0#4 ∧ t.params = s.params :=
  ⟨_, step_write_cmd (decodeOfEncodeIsIdentity (.zero r)) hp
      (creates_zero.exec_of_legalWidth (s := { s with pending := rest }) r hw),
    setReg_getReg_same s r _, fun _ hq => setReg_getReg_other s r _ hq, rfl, rfl, rfl⟩

end load

/-- Settles O56: the WIDTH write, ZERO on the declared width, and the byte writes over its zeros. -/
theorem loadSequenceLoadsTheRegister : Obligations.LoadSequenceLoadsTheRegister := by
  intro s rest r bs hs hne hle hp
  have hnmax := nmax_le hs.1
  have hpos := List.length_pos_iff.mpr hne
  have hwrites := map_range_eq_byteWrites s.params.base r 0 bs
  simp only [Nat.zero_add] at hwrites
  rw [hwrites] at hp
  obtain ⟨u, hsu, hwidth, hu, hpu, hparams⟩ := step_declare_width (by omega) hp
  have hw : ¬ badWidth u := by
    unfold badWidth
    rw [hwidth, hparams]
    omega
  rw [← hparams] at hpu
  obtain ⟨v, huv, hzero, hv, hpv, herr, hparamsv⟩ := step_write_zero hw hpu
  rw [← hparamsv] at hpv
  obtain ⟨t, hrun, ht, hq, hpt, hst⟩ := run_byteWrites (done := []) (old := zeroBuffer u.width.toNat) hzero
    (by rw [length_zeroBuffer, hwidth]) (by rw [List.length_nil]; omega) hpv
  exact ⟨t, (run_succ _ hsu).trans ((run_succ _ huv).trans hrun), ht,
    fun q hqr => (hq q hqr).trans ((hv q hqr).trans (hu q)), hpt, by rw [hst, herr]⟩

/-! ## The characters never written -/

section unwritten
variable {m : Memory} {k : Nat}

theorem read_eq_none_of_write {j : Nat} {c : Byte} (h : (m.write j c).read k = none) : m.read k = none := by
  by_cases hk : k = j
  · rw [hk, read_write_same] at h
    cases h
  · rwa [read_write_other m c hk] at h

theorem read_eq_none_of_writeFrom {j : Nat} {cs : List Byte} (h : (m.writeFrom j cs).read k = none) :
    m.read k = none := by
  induction cs generalizing j with
  | nil => exact h
  | cons c cs ih => exact ih (read_eq_none_of_write h)

end unwritten

/-- From `s` to `u` nothing but a reset, which `resets` counts, has made a written character `k` unwritten. -/
def KeepsWritten (k : Nat) (s u : State) : Prop :=
  s.resets ≤ u.resets ∧ (u.resets = s.resets → u.str.read k = none → s.str.read k = none)

section keeps
variable {k : Nat} {s u v : State}

/-- One update more, which is no reset and finds unwritten what it leaves unwritten. -/
theorem KeepsWritten.trans_of_resets_eq (h : KeepsWritten k s u) (hr : v.resets = u.resets)
    (hstr : v.str.read k = none → u.str.read k = none) : KeepsWritten k s v := by
  obtain ⟨hle, hread⟩ := h
  exact ⟨hr ▸ hle, fun heq hv => hread (hr ▸ heq) (hstr hv)⟩

theorem KeepsWritten.hardReset (h : KeepsWritten k s u) : KeepsWritten k s u.hardReset := by
  obtain ⟨hle, -⟩ := h
  have hlt : s.resets < u.hardReset.resets := Nat.lt_succ_of_le hle
  exact ⟨hlt.le, fun heq => absurd heq hlt.ne'⟩

theorem CommandEnd.read_eq_none {i : Instr} (h : CommandEnd i u v) (hv : v.str.read k = none) :
    u.str.read k = none := by
  cases h with
  | converted => exact read_eq_none_of_writeFrom hv
  | _ => exact hv

theorem hostWrite_stored_keepsWritten {addr n d : Nat} (hw : hostWrite u addr n d = .ok (.stored v))
    (h : KeepsWritten k s u) : KeepsWritten k s v := by
  obtain rfl | rfl | ⟨r, j, -, rfl⟩ | ⟨j, -, rfl⟩ := hostWrite_stored hw
  · exact h
  · exact h
  · exact h
  · exact h.trans_of_resets_eq rfl read_eq_none_of_write

theorem step_keepsWritten (h : step s = .next u) : KeepsWritten k s u :=
  step_preserves (P := KeepsWritten k s)
    (fun hend hs => hs.trans_of_resets_eq hend.resets_eq hend.read_eq_none) (fun _ hs => hs)
    hostWrite_stored_keepsWritten (fun _ hs => hs) KeepsWritten.hardReset (fun _ hs => hs)
    ⟨le_rfl, fun _ h => h⟩ h

end keeps

theorem charAt_of_unwritten {s : State} {k : Nat} (h : s.str.read k = none) :
    s.charAt k = Config.resetChar s.resets k := by
  rw [State.charAt, h]

/-- Settles O57: the character was unwritten before the step too, and both states read its free value. -/
theorem unwrittenCharactersAreStable : Obligations.UnwrittenCharactersAreStable := by
  intro s t k h hr ht
  obtain ⟨-, hread⟩ := step_keepsWritten (k := k) h
  rw [charAt_of_unwritten ht, charAt_of_unwritten (hread hr ht), hr]

end Sys2Proof.Proofs
end
